-- ==== Sys2Proof/Word.lean ====
section
/-! DEFINITION. Words: the widths of spec/00_scope.md R9 and R11. All values are unsigned bit vectors. -/

namespace Sys2Proof

/-- One byte: a command or index byte, a data byte, a byte of host memory (20_memory.md R54). -/
abbrev Byte := BitVec 8

/-- One 32-bit word of the operation port: `ADDR_W`, `COUNT_W` and `DELAY_W` are all 32 (00_scope.md R9). -/
abbrev Word := BitVec 32

/-- A physical pin identifier, `PIN_ID_W` = 8 bits (00_scope.md R9). -/
abbrev PinId := BitVec 8

/-- The "not connected" sentinel, 0xFF (00_scope.md R9, 10_state.md R20). It names no pin. -/
def NC : PinId := 0xFF#8

end Sys2Proof
end

