-- ==== Sys2Proof/Syntax.lean ====
section
/-! DEFINITION. The operations of the PFPS as syntax: one constructor of `Instr` per row of spec/opcode_table.json. -/

namespace Sys2Proof

/-- A line level (00_scope.md R12). -/
inductive Level where
  | low
  | high
  deriving DecidableEq, Repr, Inhabited

/-- The Chip-Select Selector as the SEL field spells it (30_encoding.md R76): `omitted` is a value of its own,
not another name of `both` (R83). -/
inductive Sel where
  | omitted
  | master
  | slave
  | both
  deriving DecidableEq, Repr, Inhabited

/-- The operation names of the opcode map (30_encoding.md R74), also the assembler's mnemonics (R82). -/
inductive Opcode where
  | sendCommand
  | sendCommandWithByte
  | sendCommandWithByteSelect
  | sendFixedValueRun
  | sendIndexedBuffer
  | selectPanelHalf
  | resume
  | suspend
  | resetSequence
  | waitBusy
  deriving DecidableEq, Repr

/-- The ten operations with their operands (00_scope.md R4, 30_encoding.md R74, R78). -/
inductive Instr where
  | sendCommand (idx : Byte)
  | sendCommandWithByte (idx dat : Byte)
  | sendCommandWithByteSelect (idx dat : Byte) (sel : Sel)
  | sendFixedValueRun (idx dat : Byte) (count : Word) (sel : Sel)
  | sendIndexedBuffer (idx : Byte) (buf len : Word) (sel : Sel)
  | selectPanelHalf (sel : Sel)
  | resume
  | suspend
  | resetSequence (d1 d2 d3 d4 d5 : Word)
  | waitBusy (lvl : Level)
  deriving DecidableEq, Repr

end Sys2Proof
end

