-- ==== Sys2Proof/WellFormed.lean ====
section
/-! DEFINITION. Which terms of `Instr` spell an operation: the selector is required by two of them
(30_encoding.md R73 item 4, R76). Every other operand value is legal (R78). -/

namespace Sys2Proof

/-- A selector was given: SEL is not 0 (OMITTED). -/
def Sel.given : Sel → Bool
  | .omitted => false
  | .master | .slave | .both => true

/-- The term spells an operation: `sendCommandWithByteSelect` and `selectPanelHalf` have their selector. -/
def Instr.wellFormed : Instr → Bool
  | .sendCommand _ => true
  | .sendCommandWithByte _ _ => true
  | .sendCommandWithByteSelect _ _ sel => sel.given
  | .sendFixedValueRun _ _ _ _ => true
  | .sendIndexedBuffer _ _ _ _ => true
  | .selectPanelHalf sel => sel.given
  | .resume => true
  | .suspend => true
  | .resetSequence _ _ _ _ _ => true
  | .waitBusy _ => true

end Sys2Proof
end

