-- ==== Sys2Proof/Decode.lean ====
section
/-! DEFINITION. The operation word and its operand words: fields, opcode map, decoder and encoder
(spec/30_encoding.md R70 to R81). The decoder is total on lists of words and rejects by name. -/

namespace Sys2Proof

/-! ### Fields of the operation word (R71, R79) -/

/-- `OP = OPW[3:0]`. -/
def opField (w : Word) : BitVec 4 := w.extractLsb' 0 4

/-- `SEL = OPW[5:4]`. -/
def selField (w : Word) : BitVec 2 := w.extractLsb' 4 2

/-- `LVL = OPW[6]`. -/
def lvlField (w : Word) : BitVec 1 := w.extractLsb' 6 1

/-- The reserved bit `OPW[7]`. -/
def reservedBit (w : Word) : BitVec 1 := w.extractLsb' 7 1

/-- `IDX = OPW[15:8]`. -/
def idxField (w : Word) : Byte := w.extractLsb' 8 8

/-- `DAT = OPW[23:16]`. -/
def datField (w : Word) : Byte := w.extractLsb' 16 8

/-- The reserved byte `OPW[31:24]`. -/
def reservedByte (w : Word) : Byte := w.extractLsb' 24 8

/-- The operation word with the given fields and both reserved fields 0 (R71): each field, widened with zeros, at its
place. -/
def opWord (dat idx : Byte) (lvl : BitVec 1) (sel : BitVec 2) (op : BitVec 4) : Word :=
  dat.setWidth 32 <<< 16 ||| idx.setWidth 32 <<< 8 ||| lvl.setWidth 32 <<< 6 ||| sel.setWidth 32 <<< 4 |||
    op.setWidth 32

/-- The SEL code (R76). -/
def Sel.code : Sel → BitVec 2
  | .omitted => 0#2
  | .master => 1#2
  | .slave => 2#2
  | .both => 3#2

/-- The selector a SEL field holds (R76). -/
def selOfCode (b : BitVec 2) : Sel :=
  if b = 0#2 then .omitted else if b = 1#2 then .master else if b = 2#2 then .slave else .both

/-- The LVL code: 0 is LOW and 1 is HIGH (R77). -/
def Level.code : Level → BitVec 1
  | .low => 0#1
  | .high => 1#1

/-- The level an LVL field holds (R77). -/
def levelOfCode (b : BitVec 1) : Level := if b = 0#1 then .low else .high

/-! ### The opcode map (R74) and the fields each operation uses (R75) -/

/-- The OP code (R74). -/
def Opcode.code : Opcode → BitVec 4
  | .sendCommand => 0x1#4
  | .sendCommandWithByte => 0x2#4
  | .sendCommandWithByteSelect => 0x3#4
  | .sendFixedValueRun => 0x4#4
  | .sendIndexedBuffer => 0x5#4
  | .selectPanelHalf => 0x6#4
  | .resume => 0x8#4
  | .suspend => 0x9#4
  | .resetSequence => 0xA#4
  | .waitBusy => 0xB#4

/-- `OPMAP` (R74): `none` for the reserved codes 0x0, 0x7 and 0xC to 0xF (R80). -/
def opMap (b : BitVec 4) : Option Opcode :=
  if b = 0x1#4 then some .sendCommand
  else if b = 0x2#4 then some .sendCommandWithByte
  else if b = 0x3#4 then some .sendCommandWithByteSelect
  else if b = 0x4#4 then some .sendFixedValueRun
  else if b = 0x5#4 then some .sendIndexedBuffer
  else if b = 0x6#4 then some .selectPanelHalf
  else if b = 0x8#4 then some .resume
  else if b = 0x9#4 then some .suspend
  else if b = 0xA#4 then some .resetSequence
  else if b = 0xB#4 then some .waitBusy
  else none

/-- `N(OP)` of a defined operation (R74, R81). -/
def Opcode.operandWords : Opcode → Nat
  | .sendFixedValueRun => 1
  | .sendIndexedBuffer => 2
  | .resetSequence => 5
  | .sendCommand | .sendCommandWithByte | .sendCommandWithByteSelect | .selectPanelHalf
  | .resume | .suspend | .waitBusy => 0

/-- The operation has a selector field (R75). -/
def Opcode.usesSel : Opcode → Bool
  | .sendCommandWithByteSelect | .sendFixedValueRun | .sendIndexedBuffer | .selectPanelHalf => true
  | .sendCommand | .sendCommandWithByte | .resume | .suspend | .resetSequence | .waitBusy => false

/-- The operation requires its selector (R76). -/
def Opcode.requiresSel : Opcode → Bool
  | .sendCommandWithByteSelect | .selectPanelHalf => true
  | .sendCommand | .sendCommandWithByte | .sendFixedValueRun | .sendIndexedBuffer
  | .resume | .suspend | .resetSequence | .waitBusy => false

/-- The operation has a target level (R75). -/
def Opcode.usesLvl : Opcode → Bool
  | .waitBusy => true
  | .sendCommand | .sendCommandWithByte | .sendCommandWithByteSelect | .sendFixedValueRun
  | .sendIndexedBuffer | .selectPanelHalf | .resume | .suspend | .resetSequence => false

/-- The operation has a command or index byte (R75). -/
def Opcode.usesIdx : Opcode → Bool
  | .sendCommand | .sendCommandWithByte | .sendCommandWithByteSelect | .sendFixedValueRun
  | .sendIndexedBuffer => true
  | .selectPanelHalf | .resume | .suspend | .resetSequence | .waitBusy => false

/-- The operation has a data byte or fixed run value (R75). -/
def Opcode.usesDat : Opcode → Bool
  | .sendCommandWithByte | .sendCommandWithByteSelect | .sendFixedValueRun => true
  | .sendCommand | .sendIndexedBuffer | .selectPanelHalf | .resume | .suspend | .resetSequence
  | .waitBusy => false

/-- `N(OP)` from the OP field alone; 0 for a reserved code (R74, R81). -/
def operandCount (op : BitVec 4) : Nat :=
  match opMap op with
  | some o => o.operandWords
  | none => 0

/-- The length in words, `1 + N(OP)` (R81). -/
def operationLength (op : BitVec 4) : Nat := 1 + operandCount op

/-- Every field the operation does not use is zero (R73 item 3, R75). -/
def unusedFieldsZero (o : Opcode) (w : Word) : Bool :=
  (o.usesSel || selField w == 0#2) && (o.usesLvl || lvlField w == 0#1) &&
  (o.usesIdx || idxField w == 0#8) && (o.usesDat || datField w == 0#8)

/-! ### The decoder (R73) -/

/-- Why a word list spells no operation. All but `wordCount` are the illegal operations of R73;
`wordCount` is a list that is no issue at all, for the port takes exactly `1 + N(OP)` words (R70). -/
inductive DecodeError where
  /-- Not `1 + N(OP)` words (R70, R81). -/
  | wordCount
  /-- A reserved OP code (R73 item 1, R80). -/
  | reservedOp
  /-- `OPW[7]` or `OPW[31:24]` is not zero (R73 item 2). -/
  | reservedField
  /-- A field the operation does not use is not zero (R73 item 3). -/
  | unusedField
  /-- SEL is OMITTED where a selector is required (R73 item 4). -/
  | selectorRequired
  deriving DecidableEq, Repr

/-- The operation of a legal word: operand words as they stand, in order (R78, R79). -/
def buildInstr (o : Opcode) (w : Word) (operands : List Word) : Instr :=
  match o with
  | .sendCommand => .sendCommand (idxField w)
  | .sendCommandWithByte => .sendCommandWithByte (idxField w) (datField w)
  | .sendCommandWithByteSelect =>
      .sendCommandWithByteSelect (idxField w) (datField w) (selOfCode (selField w))
  | .sendFixedValueRun =>
      .sendFixedValueRun (idxField w) (datField w) (operands.getD 0 0#32) (selOfCode (selField w))
  | .sendIndexedBuffer =>
      .sendIndexedBuffer (idxField w) (operands.getD 0 0#32) (operands.getD 1 0#32) (selOfCode (selField w))
  | .selectPanelHalf => .selectPanelHalf (selOfCode (selField w))
  | .resume => .resume
  | .suspend => .suspend
  | .resetSequence =>
      .resetSequence (operands.getD 0 0#32) (operands.getD 1 0#32) (operands.getD 2 0#32)
        (operands.getD 3 0#32) (operands.getD 4 0#32)
  | .waitBusy => .waitBusy (levelOfCode (lvlField w))

/-- Decode an operation word whose OP code is `o`, with its operand words latched (R73). -/
def decodeAs (o : Opcode) (w : Word) (operands : List Word) : Except DecodeError Instr :=
  if operands.length ≠ o.operandWords then .error .wordCount
  else if reservedBit w ≠ 0#1 ∨ reservedByte w ≠ 0#8 then .error .reservedField
  else if unusedFieldsZero o w = false then .error .unusedField
  else if o.requiresSel = true ∧ selField w = 0#2 then .error .selectorRequired
  else .ok (buildInstr o w operands)

/-- Decode the words of one issue, the operation word first (R70, R73). -/
def decode : List Word → Except DecodeError Instr
  | [] => .error .wordCount
  | w :: operands =>
    match opMap (opField w) with
    | some o => decodeAs o w operands
    | none => if operands = [] then .error .reservedOp else .error .wordCount

/-! ### The encoder (R71, R75, R78) -/

/-- The operation's row of the opcode map. -/
def Instr.opcode : Instr → Opcode
  | .sendCommand _ => .sendCommand
  | .sendCommandWithByte _ _ => .sendCommandWithByte
  | .sendCommandWithByteSelect _ _ _ => .sendCommandWithByteSelect
  | .sendFixedValueRun _ _ _ _ => .sendFixedValueRun
  | .sendIndexedBuffer _ _ _ _ => .sendIndexedBuffer
  | .selectPanelHalf _ => .selectPanelHalf
  | .resume => .resume
  | .suspend => .suspend
  | .resetSequence _ _ _ _ _ => .resetSequence
  | .waitBusy _ => .waitBusy

/-- The operation word (R71, R75). -/
def Instr.word : Instr → Word
  | .sendCommand idx => opWord 0#8 idx 0#1 0#2 0x1#4
  | .sendCommandWithByte idx dat => opWord dat idx 0#1 0#2 0x2#4
  | .sendCommandWithByteSelect idx dat sel => opWord dat idx 0#1 sel.code 0x3#4
  | .sendFixedValueRun idx dat _ sel => opWord dat idx 0#1 sel.code 0x4#4
  | .sendIndexedBuffer idx _ _ sel => opWord 0#8 idx 0#1 sel.code 0x5#4
  | .selectPanelHalf sel => opWord 0#8 0#8 0#1 sel.code 0x6#4
  | .resume => opWord 0#8 0#8 0#1 0#2 0x8#4
  | .suspend => opWord 0#8 0#8 0#1 0#2 0x9#4
  | .resetSequence _ _ _ _ _ => opWord 0#8 0#8 0#1 0#2 0xA#4
  | .waitBusy lvl => opWord 0#8 0#8 lvl.code 0#2 0xB#4

/-- The operand words, in the order they follow the operation word (R78). -/
def Instr.operands : Instr → List Word
  | .sendCommand _ => []
  | .sendCommandWithByte _ _ => []
  | .sendCommandWithByteSelect _ _ _ => []
  | .sendFixedValueRun _ _ count _ => [count]
  | .sendIndexedBuffer _ buf len _ => [buf, len]
  | .selectPanelHalf _ => []
  | .resume => []
  | .suspend => []
  | .resetSequence d1 d2 d3 d4 d5 => [d1, d2, d3, d4, d5]
  | .waitBusy _ => []

/-- The words the host hands the port for an operation (R70). -/
def encode (i : Instr) : List Word := i.word :: i.operands

/-! ### One number for an operation and its operand words -/

/-- `n` words of 32 bits, the least significant first. -/
def splitWords : Nat → Nat → List Word
  | 0, _ => []
  | n + 1, v => BitVec.ofNat 32 v :: splitWords n (v >>> 32)

/-- The words of an operation whose bits are the low `nbits` bits of `w`, bit 0 the least significant bit of the
operation word; bits above are 0 and the length is the one the OP field fixes (R81). -/
def tableWords (nbits w : Nat) : List Word :=
  splitWords (operationLength (opField (BitVec.ofNat 32 (w % 2 ^ nbits)))) (w % 2 ^ nbits)

/-- What the decoder reads from such a number; `none` where it refuses. -/
def decodeTableWord (nbits w : Nat) : Option Instr :=
  match decode (tableWords nbits w) with
  | .ok i => some i
  | .error _ => none

end Sys2Proof
end

