-- ==== Sys2Proof/Config.lean ====
section
/-! DEFINITION. What is fixed for one PFPS before reset (spec/00_scope.md R9, R10; 10_state.md R20 to R23), and the free
values: constants without a body, of which nothing can be proved. -/

namespace Sys2Proof

/-- The logical signal roles, in index order 0 to 9 (10_state.md R20). -/
inductive Role where
  | busy
  | dc
  | reset
  | csM
  | csS
  | flashCS
  | flashCS2
  | sdCS
  | sdDetect
  | rail
  deriving DecidableEq, Repr

/-- The screen-family classifier (10_state.md R22). -/
inductive Family where
  | small
  | medium
  | large
  deriving DecidableEq, Repr

/-- The direction argument of `PinMode` (00_scope.md R12). -/
inductive Direction where
  | input
  | output
  deriving DecidableEq, Repr

/-- What `resume` sets an extension pin to: an input has no level (41_lifecycle.md R142). -/
inductive ExtSetup where
  | input
  | output (initial : Option Level)
  deriving DecidableEq, Repr

/-- One entry of `EXT_PINS` (00_scope.md R9). -/
structure ExtPin where
  pin : PinId
  setup : ExtSetup
  deriving DecidableEq, Repr

/-- The configuration of a PFPS: Pin Assignment, Bus Timing Parameters and the parameters of 00_scope.md R9. -/
structure Configuration where
  busy : PinId
  dc : PinId
  reset : PinId
  csM : PinId
  csS : PinId
  flashCS : PinId
  flashCS2 : PinId
  sdCS : PinId
  sdDetect : PinId
  rail : PinId
  family : Family
  /-- The settle delay in µs (10_state.md R22; the unit by conflict C1). -/
  delayCS : Word
  /-- `T_SELECT_SETTLE` in µs (92_eei_decisions.md D18). -/
  tSelectSettle : Word
  /-- `SETTLE_PER_BYTE` (92_eei_decisions.md D17). -/
  settlePerByte : Bool
  /-- `EXT_PINS` (92_eei_decisions.md D26). -/
  extPins : List ExtPin
  deriving DecidableEq, Repr

/-- One entry of `EXT_PINS` as a board writes it: (pin, mode, initial level or none) (00_scope.md R9). -/
structure RawExtPin where
  pin : PinId
  mode : Direction
  initial : Option Level
  deriving DecidableEq, Repr

/-- A configuration as it is written down, before the PFPS admits it: the family as its 2-bit code, and the defaults
of 00_scope.md R9 (`delayCS` 50, `T_SELECT_SETTLE` left out meaning `delayCS`, `SETTLE_PER_BYTE` false, no extension
pins, every role not connected). -/
structure RawConfiguration where
  busy : PinId := 0xFF#8
  dc : PinId := 0xFF#8
  reset : PinId := 0xFF#8
  csM : PinId := 0xFF#8
  csS : PinId := 0xFF#8
  flashCS : PinId := 0xFF#8
  flashCS2 : PinId := 0xFF#8
  sdCS : PinId := 0xFF#8
  sdDetect : PinId := 0xFF#8
  rail : PinId := 0xFF#8
  familyCode : BitVec 2
  delayCS : Word := 50#32
  tSelectSettle : Option Word := none
  settlePerByte : Bool := false
  extPins : List RawExtPin := []
  deriving DecidableEq, Repr

/-- FREE VALUE. The level the n-th unscripted `PinRead` returns: a draw with no law (10_state.md R31). -/
opaque Config.freeLevel : Nat → Level

/-- FREE VALUE. The byte the n-th unscripted `Xfer` returns: a draw with no law (10_state.md R31, 20_memory.md R58). -/
opaque Config.freeByte : Nat → Byte

/-- OPEN parameter `WIRE_BIT_ORDER`: no rule reads it (00_scope.md R9, 92_eei_decisions.md D34). -/
opaque Config.wireBitOrder : Nat

/-- OPEN parameter `WIRE_MODE`: no rule reads it (00_scope.md R9, 92_eei_decisions.md D34). -/
opaque Config.wireMode : Nat

/-- OPEN parameter `WIRE_CLOCK`: no rule reads it (00_scope.md R9, 92_eei_decisions.md D34). -/
opaque Config.wireClock : Nat

end Sys2Proof
end

