-- ==== Sys2Proof/Machine/State.lean ====
section
/-! DEFINITION. The state of the PFPS as plain data (spec/10_state.md), the reasons a step can stop, and the state
after reset (10_state.md R40, 70_reset_and_hazards.md R200). -/

namespace Sys2Proof.Machine

/-! ### Pin bank (10_state.md R28) -/

/-- `mode[p]` (10_state.md R28). -/
inductive PinMode where
  | unconfigured
  | input
  | output
  deriving DecidableEq, Repr

/-- `level[p]`, the output latch: `undef` is the spec's UNDEF, which has no value (10_state.md R28). -/
inductive Latch where
  | undef
  | low
  | high
  deriving DecidableEq, Repr

/-- One cell of the pin bank. -/
structure PinCell where
  mode : PinMode
  level : Latch
  deriving DecidableEq, Repr

/-- A cell after reset: UNCONFIGURED and UNDEF (10_state.md R28, R40). -/
def PinCell.reset : PinCell := ⟨.unconfigured, .undef⟩

/-! ### Power, faults, events -/

/-- The power state register `PS` (10_state.md R26). -/
inductive PowerState where
  | off
  | sleep
  | on
  deriving DecidableEq, Repr

/-- The fault codes of `FAULT` (60_exceptions.md R170). These are effects of the PFPS, taken as next states. -/
inductive FaultCode where
  | none
  | illegalOp
  | overlap
  | notPowered
  | configHazard
  | addrOverflow
  deriving DecidableEq, Repr

/-- A wire event (20_memory.md R52): a `PinRead` carries the level returned, an `Xfer` the byte sent and the byte
returned. -/
inductive Event where
  | pinMode (p : PinId) (m : Direction)
  | pinWrite (p : PinId) (v : Level)
  | pinRead (p : PinId) (v : Level)
  | xfer (sent received : Byte)
  | delayUs (n : Word)
  | delayMs (n : Word)
  | gpioInit
  deriving DecidableEq, Repr

/-- One entry of the fault history: the code, `opIndex`, the latched words, and for CONFIG_HAZARD the role and its
pin id (60_exceptions.md R170, R173). -/
structure FaultRecord where
  code : FaultCode
  opIndex : Nat
  words : List Word
  site : Option (Role × PinId)
  deriving DecidableEq, Repr

/-! ### The operation port (10_state.md R33) -/

/-- One step of an operation's event sequence: each emits the events of one primitive of 00_scope.md R12, or one turn
of the poll loop, except `setPower`, which writes `PS` and emits none. -/
inductive Micro where
  | gpioInit
  | pinMode (p : PinId) (m : Direction)
  | pinWrite (p : PinId) (v : Level)
  /-- `drive(role, v)` (00_scope.md R13). -/
  | drive (r : Role) (v : Level)
  /-- One turn of the loop of `waitBusy` (41_lifecycle.md R151). -/
  | poll (lvl : Level)
  | xfer (b : Byte)
  /-- `MemRead(addr, 1)` and the `Xfer` of the byte read (40_framing.md R110). -/
  | xferMem (addr : Nat)
  | delayUs (n : Word)
  | delayMs (n : Word)
  /-- `PS <- ps` (41_lifecycle.md R141, R145). -/
  | setPower (ps : PowerState)
  deriving DecidableEq, Repr

/-- The operation port: `executing` holds the latched words and the progress, as what is left of the operation's event
sequence (10_state.md R33). -/
inductive Port where
  | idle
  | executing (words : List Word) (todo : List Micro)
  deriving DecidableEq, Repr

/-! ### The host's moves (60_exceptions.md R186) -/

/-- The register space, 13 named words (20_memory.md R50, 10_state.md R35, R36). -/
inductive HostReg where
  | status
  | cfgPin (r : Role)
  | cfgFamily
  | cfgDelayCS
  deriving DecidableEq, Repr

/-- When a host move comes, counted from the host's previous move: when the PFPS has no operation in flight (the host
waits for completion), or after `n` steps of the sequencer, or at completion if that is earlier. -/
inductive Timing where
  | onCompletion
  | afterSteps (n : Nat)
  deriving DecidableEq, Repr

/-- What the host (or the platform behind its memory) does. -/
inductive HostAction where
  /-- Hand the port an operation word and its operand words (30_encoding.md R70). -/
  | issue (words : List Word)
  /-- Read STATUS or a CFG register (10_state.md R35, R36). -/
  | readReg (r : HostReg)
  /-- Write STATUS or a CFG register: ignored (10_state.md R35, R36). -/
  | writeReg (r : HostReg) (v : Word)
  /-- Write a byte of host memory; reads of it are then admitted (60_exceptions.md R186). -/
  | memWrite (addr : Word) (b : Byte)
  /-- The platform refuses reads of the address from now on (20_memory.md R55). -/
  | memRefuse (addr : Word)
  deriving DecidableEq, Repr

/-- One entry of the host's agenda. -/
structure HostMove where
  timing : Timing
  action : HostAction
  deriving DecidableEq, Repr

/-! ### The state -/

/-- The whole state. The first group is the spec's architectural state, the second its records, the third the
environment and the host (the model's own fields, log entries 3, 5, 6 and 12). -/
structure State where
  /-- The configuration: given at launch, never written (00_scope.md R10; log entry 1). -/
  cfg : Configuration
  /-- `PS` (10_state.md R26). -/
  ps : PowerState
  /-- The pin bank: cells by pin id, rising, none equal to the reset cell (10_state.md R28; log entry 15). -/
  pins : List (Nat × PinCell)
  /-- `FAULT` (10_state.md R32). -/
  fault : FaultCode
  /-- The operation port (10_state.md R33). -/
  port : Port
  /-- `opIndex`, the operations accepted since reset (10_state.md R34). -/
  opIndex : Nat
  /-- The trace, oldest event first (20_memory.md R52). -/
  trace : List Event
  /-- The memory-request history, oldest first (20_memory.md R55). -/
  memHistory : List (Nat × Byte)
  /-- The fault history, oldest first (60_exceptions.md R170). -/
  faultHistory : List FaultRecord
  /-- Host memory: the bytes whose reads the platform admits; a read of an unlisted address is refused (20_memory.md
  R55; log entry 6). -/
  hostMem : List Host.Cell
  /-- The levels the environment will present next (10_state.md R31; log entry 5). -/
  levelInputs : List Level
  /-- The bytes the environment will return next (10_state.md R31; log entry 5). -/
  byteInputs : List Byte
  /-- How many levels were drawn freely. -/
  levelDraws : Nat
  /-- How many bytes were drawn freely. -/
  byteDraws : Nat
  /-- The host's coming moves, in order (60_exceptions.md R186; log entry 3). -/
  agenda : List HostMove
  /-- The register values handed back to the host, oldest first (10_state.md R35, R36). -/
  hostReads : List (HostReg × Word)
  deriving DecidableEq, Repr

/-! ### How a step ends -/

/-- Why the machine stops. -/
inductive Fault where
  /-- The host issues an operation to a stopped PFPS, one whose `FAULT` holds this code: the issue has no step
  (30_encoding.md R72, 60_exceptions.md R171). Raised by the port (`fetch`); safe (log entry 7). -/
  | stopped (code : FaultCode)
  /-- The operation in flight waits for a host memory read the platform refused, and the host waits for its completion:
  no agent has a step (20_memory.md R55). Raised by the port (`fetch`); safe (log entry 7). -/
  | refusedRead (addr : Nat)
  deriving DecidableEq, Repr

/-- Why the model has no meaning for a step. -/
inductive Refusal where
  /-- An operation without a meaning yet, by its mnemonic. Raised by `exec`'s refused arms only; safe. -/
  | notModelled (mnemonic : String)
  /-- The host hands the port a word list that is not `1 + N(OP)` words long, which is no issue (30_encoding.md R70).
  Raised by the port (`fetch`); safe (log entry 10). -/
  | issueWordCount
  /-- The host writes the buffer of a `sendIndexedBuffer` in flight, a host action with no move in the spec's model
  (92_eei_decisions.md D38, 60_exceptions.md R186). Raised by the port (`fetch`); safe (log entry 11). -/
  | bufferWrittenInFlight (addr : Nat)
  deriving DecidableEq, Repr

/-- What one `Micro` does: emit and go on, stay for another turn (the poll loop), wait for a refused memory read, or
access a role that CONFIG_HAZARD forbids. -/
inductive Advance where
  | done (s : State)
  | again (s : State)
  | refused
  | hazard (r : Role)
  deriving DecidableEq, Repr

/-- What the port gives the step: a state to go on from, an accepted operation to run, or the reason it stops. -/
inductive Fetched where
  | hold (s : State)
  | run (i : Instr) (s : State)
  | stop (f : Fault)
  | outside (r : Refusal)
  deriving DecidableEq, Repr

/-! ### Reset -/

/-- The state after reset with a given configuration (10_state.md R40, 70_reset_and_hazards.md R200): the launch state. -/
def State.launch (c : Configuration) : State where
  cfg := c
  ps := .off
  pins := []
  fault := .none
  port := .idle
  opIndex := 0
  trace := []
  memHistory := []
  faultHistory := []
  hostMem := []
  levelInputs := []
  byteInputs := []
  levelDraws := 0
  byteDraws := 0
  agenda := []
  hostReads := []

/-- The configuration of the source's §8 scenario, S1 (40_framing.md; log entry 2). -/
def scenarioS1 : Configuration where
  busy := 13#8
  dc := 12#8
  reset := 11#8
  csM := 17#8
  csS := 14#8
  flashCS := 10#8
  flashCS2 := NC
  sdCS := NC
  sdDetect := NC
  rail := NC
  family := .large
  delayCS := 50#32
  tSelectSettle := 50#32
  settlePerByte := false
  extPins := []

/-- The machine right after reset, with the one configuration the source writes out (log entry 2). -/
def State.reset : State := State.launch scenarioS1

end Sys2Proof.Machine
end

