-- ==== Sys2Proof/Machine/Operands.lean ====
section
/-! DEFINITION. What an operation's operands select: pins by role (spec/00_scope.md R13), the effective selection
(40_framing.md R100) and the buffer's addresses (20_memory.md R56). -/

namespace Sys2Proof.Machine

/-- `Pin(role)` (00_scope.md R13). -/
def pinOf (c : Configuration) : Role → PinId
  | .busy => c.busy
  | .dc => c.dc
  | .reset => c.reset
  | .csM => c.csM
  | .csS => c.csS
  | .flashCS => c.flashCS
  | .flashCS2 => c.flashCS2
  | .sdCS => c.sdCS
  | .sdDetect => c.sdDetect
  | .rail => c.rail

/-- `connected(role)` (00_scope.md R13, 10_state.md R21). -/
def connected (c : Configuration) (r : Role) : Bool := pinOf c r != NC

/-- The effective selection of a frame (10_state.md R30). -/
inductive EffSel where
  | single
  | master
  | slave
  | both
  deriving DecidableEq, Repr

/-- `eff(opname, SEL)` (40_framing.md R100). OMITTED means both halves for `sendFixedValueRun` and
`sendIndexedBuffer`; for the two operations that require a selector it never gets here (ILLEGAL_OP). -/
def effSel (o : Opcode) (sel : Sel) (fam : Family) : EffSel :=
  match o with
  | .sendCommand | .sendCommandWithByte | .resume | .suspend | .resetSequence | .waitBusy => .single
  | .sendCommandWithByteSelect | .sendFixedValueRun | .sendIndexedBuffer | .selectPanelHalf =>
    match fam with
    | .small | .medium => .single
    | .large =>
      match sel with
      | .master => .master
      | .slave => .slave
      | .both => .both
      | .omitted => .both

/-- `bcast`: the full-panel broadcast of `sendIndexedBuffer` (40_framing.md R110, R111). -/
def isBroadcast (fam : Family) (sel : Sel) : Bool := fam == .large && sel == .omitted

/-- `BUF + LEN > 2^32`, in unbounded naturals (20_memory.md R56). -/
def addrOverflows (buf len : Word) : Bool := decide (buf.toNat + len.toNat > 2 ^ 32)

/-- The addresses `BUF + 0` to `BUF + LEN - 1`, ascending (20_memory.md R54, R56). -/
def bufferAddrs (buf len : Word) : List Nat := (List.range len.toNat).map fun i => buf.toNat + i

end Sys2Proof.Machine
end

