-- ==== Sys2Proof/Machine/Flags.lean ====
section
/-! DEFINITION. The PFPS has no flags (spec/10_state.md R37). What stands here is what the state shows: the two power
predicates (R27), the line state (R29), and the read-only registers STATUS (R35) and CFG (R36). -/

namespace Sys2Proof.Machine

/-- `gpioConfigured = (PS == ON)` (10_state.md R27). -/
def gpioConfigured (s : State) : Bool := s.ps == .on

/-- `busEnabled = (PS == ON)` (10_state.md R27). -/
def busEnabled (s : State) : Bool := s.ps == .on

/-- STATUS.PS (10_state.md R26): code 3 is never held. -/
def psCode : PowerState → BitVec 2
  | .off => 0#2
  | .sleep => 1#2
  | .on => 2#2

/-- The fault codes (60_exceptions.md R170): 6 to 15 are never written. -/
def faultCodeBits : FaultCode → BitVec 4
  | .none => 0#4
  | .illegalOp => 1#4
  | .overlap => 2#4
  | .notPowered => 3#4
  | .configHazard => 4#4
  | .addrOverflow => 5#4

/-- STATUS.EXEC (10_state.md R35). -/
def execBit : Port → BitVec 1
  | .idle => 0#1
  | .executing _ _ => 1#1

/-- STATUS (10_state.md R35, 95_test_vectors.md section 0): `FAULT << 4 | EXEC << 2 | PS`, every other bit 0. -/
def statusWord (s : State) : Word :=
  (faultCodeBits s.fault).setWidth 32 <<< 4 ||| (execBit s.port).setWidth 32 <<< 2 ||| (psCode s.ps).setWidth 32

/-- The family code (10_state.md R22). -/
def familyCode : Family → BitVec 2
  | .small => 0#2
  | .medium => 1#2
  | .large => 2#2

/-- What a host read of a register returns (10_state.md R35, R36). -/
def readReg (s : State) : HostReg → Word
  | .status => statusWord s
  | .cfgPin r => (pinOf s.cfg r).setWidth 32
  | .cfgFamily => (familyCode s.cfg.family).setWidth 32
  | .cfgDelayCS => s.cfg.delayCS

/-- The latch after a write of a level. -/
def latchOf : Level → Latch
  | .low => .low
  | .high => .high

/-- The line state the PFPS drives on a pin with this cell: its latch where the mode is OUTPUT, `none` (no line driven) for
INPUT and UNCONFIGURED (10_state.md R29). An OUTPUT whose latch is UNDEF is driven, at a level that has no value (R28). -/
def lineDriven (c : PinCell) : Option Latch :=
  match c.mode with
  | .output => some c.level
  | .input | .unconfigured => none

end Sys2Proof.Machine
end

