-- ==== Sys2Proof/Machine/Sparse.lean ====
section
/-! DEFINITION. Finite maps by address as lists of (address, value) with strictly rising addresses: the one form in which
host memory and the pin bank are held (log entries 6 and 15). -/

namespace Sys2Proof.Machine

/-- The value listed at an address. -/
def sparseLookup {α : Type} (a : Nat) : List (Nat × α) → Option α
  | [] => none
  | (k, v) :: rest => if a = k then some v else if a < k then none else sparseLookup a rest

/-- List a value at an address, in place of any listed there. -/
def sparseInsert {α : Type} (a : Nat) (x : α) : List (Nat × α) → List (Nat × α)
  | [] => [(a, x)]
  | (k, v) :: rest =>
    if a = k then (a, x) :: rest else if a < k then (a, x) :: (k, v) :: rest
    else (k, v) :: sparseInsert a x rest

/-- List nothing at an address. -/
def sparseErase {α : Type} (a : Nat) : List (Nat × α) → List (Nat × α)
  | [] => []
  | (k, v) :: rest => if a = k then rest else if a < k then (k, v) :: rest else (k, v) :: sparseErase a rest

/-- Every address of the list is above `a` by order: each is above the one before it. -/
def sparseRisesFrom {α : Type} : Nat → List (Nat × α) → Bool
  | _, [] => true
  | a, (k, _) :: rest => decide (a < k) && sparseRisesFrom k rest

/-- The addresses rise strictly: the canonical form. -/
def sparseRises {α : Type} : List (Nat × α) → Bool
  | [] => true
  | (k, _) :: rest => sparseRisesFrom k rest

/-- Host memory is in canonical form: addresses rise strictly and lie in the 2^32 bytes of 20_memory.md R50. An unlisted
address has no value (its read is refused), so no entry equals what an unlisted address reads as. -/
def Memory.wf (mem : List Host.Cell) : Bool := sparseRises mem && mem.all fun e => decide (e.1 < 2 ^ 32)

/-- The pin bank is in canonical form: pin ids rise strictly, lie in 0 to 254 (10_state.md R28), and no cell listed equals
the reset cell, which is what an unlisted pin has. -/
def pinBankWf (pins : List (Nat × PinCell)) : Bool :=
  sparseRises pins && pins.all fun e => decide (e.1 < 255) && decide (e.2 ≠ PinCell.reset)

end Sys2Proof.Machine
end

