-- ==== Sys2Proof/Machine/Ops.lean ====
section
/-! DEFINITION. The named operations over the state: pins, events, draws and host memory (spec/00_scope.md R12, R13;
20_memory.md), raising a fault (60_exceptions.md R171), and running an operation's event sequence (60_exceptions.md R193). -/

namespace Sys2Proof.Machine

/-! ### Host memory (20_memory.md R50, R55) -/

/-- `MemRead(addr, 1)`: `none` where the platform refuses the read (20_memory.md R55). -/
def memRead (s : State) (a : Nat) : Option Byte := sparseLookup a s.hostMem

/-- The host writes a byte (60_exceptions.md R186). -/
def memWrite (a : Nat) (b : Byte) (s : State) : State := { s with hostMem := sparseInsert a b s.hostMem }

/-- The platform refuses reads of an address (20_memory.md R55). -/
def memRefuse (a : Nat) (s : State) : State := { s with hostMem := sparseErase a s.hostMem }

/-! ### The pin bank (10_state.md R28) -/

/-- The cell of a pin. -/
def pinCell (s : State) (p : PinId) : PinCell := (sparseLookup p.toNat s.pins).getD PinCell.reset

/-- Give a pin its cell; pin 255 is NC and has none. -/
def setPinCell (p : PinId) (c : PinCell) (s : State) : State :=
  if p = NC then s
  else { s with pins := if c = PinCell.reset then sparseErase p.toNat s.pins else sparseInsert p.toNat c s.pins }

/-- The mode `PinMode(p, m)` sets. -/
def modeOf : Direction → PinMode
  | .input => .input
  | .output => .output

/-! ### Events and draws -/

/-- Append one event to the trace (20_memory.md R52). -/
def emit (e : Event) (s : State) : State := { s with trace := s.trace ++ [e] }

/-- The level the environment presents, and the state with the draw made (10_state.md R31). -/
def drawLevel (s : State) : Level × State :=
  match s.levelInputs with
  | v :: rest => (v, { s with levelInputs := rest })
  | [] => (Config.freeLevel s.levelDraws, { s with levelDraws := s.levelDraws + 1 })

/-- The byte the environment returns, and the state with the draw made (10_state.md R31). -/
def drawByte (s : State) : Byte × State :=
  match s.byteInputs with
  | b :: rest => (b, { s with byteInputs := rest })
  | [] => (Config.freeByte s.byteDraws, { s with byteDraws := s.byteDraws + 1 })

/-! ### Primitives (00_scope.md R12) -/

/-- `PinMode(p, m)`: `level[p]` does not change (10_state.md R28). -/
def doPinMode (p : PinId) (m : Direction) (s : State) : State :=
  emit (.pinMode p m) (setPinCell p ⟨modeOf m, (pinCell s p).level⟩ s)

/-- `PinWrite(p, v)`. -/
def doPinWrite (p : PinId) (v : Level) (s : State) : State :=
  emit (.pinWrite p v) (setPinCell p ⟨(pinCell s p).mode, latchOf v⟩ s)

/-- `PinRead(p)`: no state of the PFPS changes but the trace (20_memory.md R59). -/
def doPinRead (p : PinId) (s : State) : Level × State :=
  ((drawLevel s).1, emit (.pinRead p (drawLevel s).1) (drawLevel s).2)

/-- `Xfer(b)`: the byte returned stands in the event and nowhere else (20_memory.md R58). -/
def doXfer (b : Byte) (s : State) : State := emit (.xfer b (drawByte s).1) (drawByte s).2

/-- `drive(role, v)`: `none` is CONFIG_HAZARD (00_scope.md R13). -/
def drive (r : Role) (v : Level) (s : State) : Option State :=
  if connected s.cfg r = true ∧ (pinCell s (pinOf s.cfg r)).mode = .output
  then some (doPinWrite (pinOf s.cfg r) v s) else none

/-- `sample(role)`: `none` is CONFIG_HAZARD (00_scope.md R13). -/
def sample (r : Role) (s : State) : Option (Level × State) :=
  if connected s.cfg r = true ∧ (pinCell s (pinOf s.cfg r)).mode = .input
  then some (doPinRead (pinOf s.cfg r) s) else none

/-! ### Constants (00_scope.md R9) -/

/-- `T_BCAST_SETTLE`, 450 µs (40_framing.md R111). -/
def tBcastSettle : Word := 450#32

/-- `T_BUSY_POLL`, 32 ms (41_lifecycle.md R151). -/
def tBusyPoll : Word := 32#32

/-! ### Faults (60_exceptions.md R171) -/

/-- The words latched in the port. -/
def latchedWords : Port → List Word
  | .idle => []
  | .executing words _ => words

/-- `raise Fault(code)`: `FAULT <- code` if it was NONE, the fault history gets its record, and the port goes IDLE.
`PS`, the pin bank and the trace keep what they held (60_exceptions.md R171, 10_state.md R32). -/
def raise (code : FaultCode) (site : Option (Role × PinId)) (s : State) : State :=
  if s.fault = .none then
    { s with
      fault := code
      faultHistory := s.faultHistory ++ [⟨code, s.opIndex, latchedWords s.port, site⟩]
      port := .idle }
  else { s with port := .idle }

/-- CONFIG_HAZARD at an access through a role (60_exceptions.md R170, R175). -/
def raiseHazard (r : Role) (s : State) : State := raise .configHazard (some (r, pinOf s.cfg r)) s

/-! ### The port's moves (30_encoding.md R72) -/

/-- Accept an issue: latch its words, count it, and go EXECUTING (30_encoding.md R72). -/
def accept (words : List Word) (s : State) : State :=
  { s with opIndex := s.opIndex + 1, port := .executing words [] }

/-- The operation in flight pauses with this left to do. -/
def pauseAt (todo : List Micro) (s : State) : State := { s with port := .executing (latchedWords s.port) todo }

/-- The operation has completed: `port <- IDLE` (30_encoding.md R72). -/
def complete (s : State) : State := { s with port := .idle }

/-- The host's next move is due now. -/
def hostDue (s : State) : Bool :=
  match s.agenda with
  | ⟨.afterSteps 0, _⟩ :: _ => true
  | _ => false

/-- One step of the sequencer has passed for a host that counts them. -/
def tick (s : State) : State :=
  match s.agenda with
  | ⟨.afterSteps (n + 1), act⟩ :: rest => { s with agenda := ⟨.afterSteps n, act⟩ :: rest }
  | _ => s

/-! ### Running an event sequence (60_exceptions.md R193) -/

/-- One step of the sequencer: the event of one primitive, or one turn of the poll loop. -/
def advance (m : Micro) (s : State) : Advance :=
  match m with
  | .gpioInit => .done (tick (emit .gpioInit s))
  | .pinMode p d => .done (tick (doPinMode p d s))
  | .pinWrite p v => .done (tick (doPinWrite p v s))
  | .drive r v =>
    match drive r v s with
    | some s' => .done (tick s')
    | none => .hazard r
  | .poll lvl =>
    match sample .busy s with
    | some (v, s') => if v = lvl then .done (tick s') else .again (tick (emit (.delayMs tBusyPoll) s'))
    | none => .hazard .busy
  | .xfer b => .done (tick (doXfer b s))
  | .xferMem a =>
    match memRead s a with
    | some b => .done (tick (doXfer b { s with memHistory := s.memHistory ++ [(a, b)] }))
    | none => .refused
  | .delayUs n => .done (tick (emit (.delayUs n) s))
  | .delayMs n => .done (tick (emit (.delayMs n) s))
  | .setPower ps => .done { s with ps := ps }

/-- The step takes no time and no event: the write of `PS` that ends `resume` and `suspend` (log entry 18). -/
def isSilent : Micro → Bool
  | .setPower _ => true
  | .gpioInit | .pinMode _ _ | .pinWrite _ _ | .drive _ _ | .poll _ | .xfer _ | .xferMem _
  | .delayUs _ | .delayMs _ => false

/-- Run an event sequence until it is finished, the host's next move is due, a poll turn missed, a memory read is
refused, or a hazard raises its fault. Each case leaves the port as 30_encoding.md R72 and 60_exceptions.md R171 say.
DESIGN CHOICE (log entry 24): a host move already due comes before the next access, so also before the check that would make
that access a CONFIG_HAZARD (an issue is then OVERLAP); completion, which has no event, comes before such a move. -/
def run : List Micro → State → State
  | [], s => complete s
  | m :: rest, s =>
    if hostDue s = true ∧ isSilent m = false then pauseAt (m :: rest) s
    else match advance m s with
      | .done s' => run rest s'
      | .again s' => pauseAt (m :: rest) s'
      | .refused => pauseAt (m :: rest) s
      | .hazard r => raiseHazard r s

/-! ### Checks an operation makes first -/

/-- `gate()` (60_exceptions.md R174): NOT_POWERED unless `busEnabled`. DESIGN CHOICE (log entry 24): the check has no event and
is no step of the sequencer of its own; it is made in the issue's step, before a host move already due. -/
def gate (s : State) (go : State → State) : State :=
  if busEnabled s = true then go s else raise .notPowered none s

/-- A selector that is required was given; ILLEGAL_OP otherwise, before the gate (30_encoding.md R73, R76;
60_exceptions.md R178; log entry 9). -/
def requireSel (sel : Sel) (s : State) (go : State → State) : State :=
  if sel.given = true then go s else raise .illegalOp none s

end Sys2Proof.Machine
end

