-- ==== Sys2Proof/Machine/Framer.lean ====
section
/-! DEFINITION. The framer operations (spec/40_framing.md): their shared micro-sequences (R100 to R102), the event
sequence of each, and each operation's meaning. -/

namespace Sys2Proof.Machine

/-! ### Shared micro-sequences -/

/-- `driveIfConnected(role, v)` (00_scope.md R13): the slave chip-select only. -/
def driveIfConnected (c : Configuration) (r : Role) (v : Level) : List Micro :=
  if connected c r = true then [.drive r v] else []

/-- `assertCS(eff)` (40_framing.md R101). -/
def assertCS (c : Configuration) : EffSel → List Micro
  | .single => [.drive .csM .low, .delayUs c.delayCS]
  | .master => .drive .csM .low :: driveIfConnected c .csS .high ++ [.delayUs c.tSelectSettle]
  | .slave => .drive .csM .high :: driveIfConnected c .csS .low ++ [.delayUs c.tSelectSettle]
  | .both => .drive .csM .low :: driveIfConnected c .csS .low ++ [.delayUs c.tSelectSettle]

/-- `deassertCS(eff)` (40_framing.md R101). -/
def deassertCS (c : Configuration) : EffSel → List Micro
  | .single => [.drive .csM .high]
  | .master | .slave | .both => .drive .csM .high :: driveIfConnected c .csS .high

/-- `commandPhase(IDX)` (40_framing.md R102). -/
def commandPhase (c : Configuration) (idx : Byte) : List Micro := [.xfer idx, .delayUs c.delayCS]

/-- `dataPhase` over transfers produced in order (40_framing.md R102, R108). -/
def dataPhase (c : Configuration) (transfers : List Micro) : List Micro :=
  .drive .dc .high ::
    (if c.settlePerByte = true
     then transfers.flatMap fun x => [.delayUs c.delayCS, x, .delayUs c.delayCS]
     else .delayUs c.delayCS :: transfers ++ [.delayUs c.delayCS])

/-- A frame with a data phase: DC LOW, assertion, command, what comes between the phases, data, deassertion
(40_framing.md R106). -/
def dataFrame (c : Configuration) (e : EffSel) (idx : Byte) (between transfers : List Micro) : List Micro :=
  .drive .dc .low :: assertCS c e ++ commandPhase c idx ++ between ++ dataPhase c transfers ++ deassertCS c e

/-! ### Event sequences -/

/-- `sendCommand` (40_framing.md R103): DC stays LOW. -/
def sendCommandSeq (c : Configuration) (idx : Byte) : List Micro :=
  .drive .dc .low :: assertCS c .single ++ commandPhase c idx ++ deassertCS c .single

/-- `sendCommandWithByte` (40_framing.md R104). -/
def sendCommandWithByteSeq (c : Configuration) (idx dat : Byte) : List Micro :=
  dataFrame c .single idx [] [.xfer dat]

/-- `sendCommandWithByteSelect` (40_framing.md R105). -/
def sendCommandWithByteSelectSeq (c : Configuration) (idx dat : Byte) (sel : Sel) : List Micro :=
  dataFrame c (effSel .sendCommandWithByteSelect sel c.family) idx [] [.xfer dat]

/-- `sendFixedValueRun` (40_framing.md R107): never the broadcast settle (R109). -/
def sendFixedValueRunSeq (c : Configuration) (idx dat : Byte) (count : Word) (sel : Sel) : List Micro :=
  dataFrame c (effSel .sendFixedValueRun sel c.family) idx [] (List.replicate count.toNat (.xfer dat))

/-- `sendIndexedBuffer` (40_framing.md R110): the broadcast settle between the phases (R111). -/
def sendIndexedBufferSeq (c : Configuration) (idx : Byte) (buf len : Word) (sel : Sel) : List Micro :=
  dataFrame c (effSel .sendIndexedBuffer sel c.family) idx
    (if isBroadcast c.family sel = true then [.delayUs tBcastSettle] else [])
    ((bufferAddrs buf len).map .xferMem)

/-- `selectPanelHalf` (40_framing.md R112): off LARGE, `csM` LOW and the select settle. -/
def selectPanelHalfSeq (c : Configuration) (sel : Sel) : List Micro :=
  match c.family with
  | .large => assertCS c (effSel .selectPanelHalf sel c.family)
  | .small | .medium => [.drive .csM .low, .delayUs c.tSelectSettle]

/-! ### Meanings -/

/-- `sendCommand IDX` (40_framing.md R103). -/
def execSendCommand (idx : Byte) (s : State) : Host.Outcome State Fault Refusal :=
  .next (gate s fun s => run (sendCommandSeq s.cfg idx) s)

/-- `sendCommandWithByte IDX, DAT` (40_framing.md R104). -/
def execSendCommandWithByte (idx dat : Byte) (s : State) : Host.Outcome State Fault Refusal :=
  .next (gate s fun s => run (sendCommandWithByteSeq s.cfg idx dat) s)

/-- `sendCommandWithByteSelect IDX, DAT, SEL` (40_framing.md R105). -/
def execSendCommandWithByteSelect (idx dat : Byte) (sel : Sel) (s : State) : Host.Outcome State Fault Refusal :=
  .next (requireSel sel s fun s => gate s fun s => run (sendCommandWithByteSelectSeq s.cfg idx dat sel) s)

/-- `sendFixedValueRun IDX, DAT, COUNT [, SEL]` (40_framing.md R107). -/
def execSendFixedValueRun (idx dat : Byte) (count : Word) (sel : Sel) (s : State) :
    Host.Outcome State Fault Refusal :=
  .next (gate s fun s => run (sendFixedValueRunSeq s.cfg idx dat count sel) s)

/-- `sendIndexedBuffer IDX, BUF, LEN [, SEL]` (40_framing.md R110): the range check comes after the gate and before any
event (60_exceptions.md R178). DESIGN CHOICE (log entry 24): like the gate, it is made in the issue's step, before a host move
already due. -/
def execSendIndexedBuffer (idx : Byte) (buf len : Word) (sel : Sel) (s : State) :
    Host.Outcome State Fault Refusal :=
  .next (gate s fun s =>
    if addrOverflows buf len = true then raise .addrOverflow none s
    else run (sendIndexedBufferSeq s.cfg idx buf len sel) s)

/-- `selectPanelHalf SEL` (40_framing.md R112). -/
def execSelectPanelHalf (sel : Sel) (s : State) : Host.Outcome State Fault Refusal :=
  .next (requireSel sel s fun s => gate s fun s => run (selectPanelHalfSeq s.cfg sel) s)

end Sys2Proof.Machine
end

