-- ==== Sys2Proof/Machine/Lifecycle.lean ====
section
/-! DEFINITION. The power sequencer operations (spec/41_lifecycle.md): event sequences and meanings. -/

namespace Sys2Proof.Machine

/-! ### The configuration sequence (41_lifecycle.md R142) -/

/-- A connected role becomes an output at its idle-high level. -/
def configureHigh (c : Configuration) (r : Role) : List Micro :=
  if connected c r = true then [.pinMode (pinOf c r) .output, .pinWrite (pinOf c r) .high] else []

/-- A connected role becomes an input. -/
def configureInput (c : Configuration) (r : Role) : List Micro :=
  if connected c r = true then [.pinMode (pinOf c r) .input] else []

/-- A connected extension pin gets its mode and its initial level if it has one. -/
def configureExt (x : ExtPin) : List Micro :=
  if x.pin = NC then []
  else match x.setup with
    | .input => [.pinMode x.pin .input]
    | .output none => [.pinMode x.pin .output]
    | .output (some v) => [.pinMode x.pin .output, .pinWrite x.pin v]

/-- `configurationSequence()` (41_lifecycle.md R142). -/
def configurationSeq (c : Configuration) : List Micro :=
  [.gpioInit] ++ configureHigh c .rail ++ configureInput c .busy
    ++ [Role.dc, .reset, .csM, .csS].flatMap (configureHigh c)
    ++ [Role.flashCS, .flashCS2, .sdCS].flatMap (configureHigh c)
    ++ configureInput c .sdDetect
    ++ c.extPins.flatMap configureExt

/-! ### Event sequences -/

/-- `resume` when the GPIO is not configured (41_lifecycle.md R141). -/
def resumeSeq (c : Configuration) : List Micro := configurationSeq c ++ [.setPower .on]

/-- The rail write of `suspend` when the GPIO is configured (41_lifecycle.md R145). -/
def railLow (c : Configuration) : List Micro :=
  if connected c .rail = true then [.drive .rail .low] else []

/-- `suspend` (41_lifecycle.md R145). -/
def suspendSeq (c : Configuration) (configured : Bool) : List Micro :=
  (if configured = true then railLow c else []) ++ [.setPower .sleep]

/-- `resetSequence` (41_lifecycle.md R148). -/
def resetSequenceSeq (d1 d2 d3 d4 d5 : Word) : List Micro :=
  [.delayMs d1, .drive .reset .high, .delayMs d2, .drive .reset .low, .delayMs d3, .drive .reset .high,
   .delayMs d4, .drive .csM .high, .delayMs d5]

/-- `waitBusy` (41_lifecycle.md R151): the poll loop. -/
def waitBusySeq (lvl : Level) : List Micro := [.poll lvl]

/-! ### Meanings -/

/-- `resume` (41_lifecycle.md R141): nothing in ON, and no gate. -/
def execResume (s : State) : Host.Outcome State Fault Refusal :=
  .next (run (if gpioConfigured s = true then [] else resumeSeq s.cfg) s)

/-- `suspend` (41_lifecycle.md R145): no gate. -/
def execSuspend (s : State) : Host.Outcome State Fault Refusal :=
  .next (run (suspendSeq s.cfg (gpioConfigured s)) s)

/-- `resetSequence D1, D2, D3, D4, D5` (41_lifecycle.md R148). -/
def execResetSequence (d1 d2 d3 d4 d5 : Word) (s : State) : Host.Outcome State Fault Refusal :=
  .next (gate s fun s => run (resetSequenceSeq d1 d2 d3 d4 d5) s)

/-- `waitBusy LVL` (41_lifecycle.md R151, R152): one turn of the loop; a missed turn leaves the port EXECUTING. -/
def execWaitBusy (lvl : Level) (s : State) : Host.Outcome State Fault Refusal :=
  .next (gate s fun s => run (waitBusySeq lvl) s)

end Sys2Proof.Machine
end

