-- ==== Sys2Proof/Machine/Dispatch.lean ====
section
/-! DEFINITION. One arm per constructor of `Instr`. -/

namespace Sys2Proof.Machine

/-- The meaning of every operation, from an accepted issue to its completion or pause. -/
def exec (i : Instr) (s : State) : Host.Outcome State Fault Refusal :=
  match i with
  | .sendCommand idx => Sys2Proof.Machine.execSendCommand idx s
  | .sendCommandWithByte idx dat => Sys2Proof.Machine.execSendCommandWithByte idx dat s
  | .sendCommandWithByteSelect idx dat sel => Sys2Proof.Machine.execSendCommandWithByteSelect idx dat sel s
  | .sendFixedValueRun idx dat count sel => Sys2Proof.Machine.execSendFixedValueRun idx dat count sel s
  | .sendIndexedBuffer idx buf len sel => Sys2Proof.Machine.execSendIndexedBuffer idx buf len sel s
  | .selectPanelHalf sel => Sys2Proof.Machine.execSelectPanelHalf sel s
  | .resume => Sys2Proof.Machine.execResume s
  | .suspend => Sys2Proof.Machine.execSuspend s
  | .resetSequence d1 d2 d3 d4 d5 => Sys2Proof.Machine.execResetSequence d1 d2 d3 d4 d5 s
  | .waitBusy lvl => Sys2Proof.Machine.execWaitBusy lvl s

end Sys2Proof.Machine
end

