-- ==== Sys2Proof/Machine/HostPort.lean ====
section
/-! DEFINITION. The operation port as the host sees it: which agent moves next, the issue with its faults
(spec/30_encoding.md R72, 60_exceptions.md R177, R178), register accesses and the host's memory (60_exceptions.md R186). -/

namespace Sys2Proof.Machine

/-- The host reads a register: the value is handed back and nothing of the PFPS changes (10_state.md R35, R36). -/
def hostRead (r : HostReg) (s : State) : State := { s with hostReads := s.hostReads ++ [(r, readReg s r)] }

/-- The host writes a register: ignored (10_state.md R35, R36). -/
def hostWrite (_r : HostReg) (_v : Word) (s : State) : State := s

/-- The address lies in the buffer of a `sendIndexedBuffer` in flight (60_exceptions.md R186). -/
def inBufferInFlight (s : State) (a : Nat) : Bool :=
  match s.port with
  | .idle => false
  | .executing words _ =>
    match decode words with
    | .ok (.sendIndexedBuffer _ buf len _) => decide (buf.toNat ≤ a ∧ a < buf.toNat + len.toNat)
    | _ => false

/-- An issue (30_encoding.md R72): a stopped PFPS has no step; an operation in flight makes it OVERLAP; else the words are
latched and decoded, and an illegal operation raises ILLEGAL_OP before any event. DESIGN CHOICE (log entry 10): the port
looks at `FAULT` and at itself before it counts the words, so a list that is not `1 + N(OP)` words long, which is no issue by
R70, also stops a stopped PFPS's run and also raises OVERLAP; only on an idle PFPS without a fault is it refused. -/
def issue (words : List Word) (s : State) : Fetched :=
  if s.fault ≠ .none then .stop (.stopped s.fault)
  else if s.port ≠ .idle then .hold (raise .overlap none s)
  else match decode words with
    | .ok i => .run i (accept words s)
    | .error .wordCount => .outside .issueWordCount
    | .error .reservedOp | .error .reservedField | .error .unusedField | .error .selectorRequired =>
        .hold (raise .illegalOp none (accept words s))

/-- One move of the host. -/
def hostAct (act : HostAction) (s : State) : Fetched :=
  match act with
  | .issue words => issue words s
  | .readReg r => .hold (hostRead r s)
  | .writeReg r v => .hold (hostWrite r v s)
  | .memWrite a b =>
    if inBufferInFlight s a.toNat = true then .outside (.bufferWrittenInFlight a.toNat)
    else .hold (memWrite a.toNat b s)
  | .memRefuse a => .hold (memRefuse a.toNat s)

/-- The host makes its next move, or has none left and the PFPS stays as it is (log entry 8). -/
def hostTurn (s : State) : Fetched :=
  match s.agenda with
  | [] => .hold s
  | mv :: rest => hostAct mv.action { s with agenda := rest }

/-- The sequencer waits for a host memory read that the platform refuses (20_memory.md R55): at which address. -/
def waitsForRead (todo : List Micro) (s : State) : Option Nat :=
  match todo with
  | .xferMem a :: _ => if memRead s a = none then some a else none
  | _ => none

/-- The host's next move is timed by the sequencer's steps, not by completion. -/
def hostCounts (s : State) : Bool :=
  match s.agenda with
  | ⟨.afterSteps _, _⟩ :: _ => true
  | _ => false

/-- Who moves next and with what. With the port IDLE it is the host. With an operation in flight it is the host if its
move is due, else the sequencer, which goes on with the operation. Where the sequencer waits for a refused read it has no
step: the host moves if it does not wait for completion, and otherwise nobody does (log entries 4 and 7). -/
def fetch (s : State) : Fetched :=
  match s.port with
  | .idle => hostTurn s
  | .executing _ todo =>
    if hostDue s = true then hostTurn s
    else match waitsForRead todo s with
      | some a => if hostCounts s = true then hostTurn s else .stop (.refusedRead a)
      | none => .hold (run todo s)

/-- The state with these words as the host's very next move, on a port ready to accept them. -/
def placeIssue (words : List Word) (s : State) : State :=
  { s with agenda := ⟨.onCompletion, .issue words⟩ :: s.agenda, port := .idle, fault := .none }

end Sys2Proof.Machine
end

