-- ==== Sys2Proof/Machine/Step.lean ====
section
/-! DEFINITION. One step of the machine (spec/60_exceptions.md R193): the port says who moves, and an accepted operation
runs as `exec` says. -/

namespace Sys2Proof.Machine

/-- One step. -/
def step (s : State) : Host.Outcome State Fault Refusal :=
  match fetch s with
  | .hold s' => .next s'
  | .run i s' => exec i s'
  | .stop f => .fault f
  | .outside r => .refused r

/-- `s` with the operation whose bits are the low `nbits` bits of `w` as the host's next issue, so that the very next step
accepts and runs it (log entry 3). -/
def State.withFetchWord (s : State) (nbits w : Nat) : State := placeIssue (tableWords nbits w) s

end Sys2Proof.Machine
end

