-- ==== Sys2Proof/Machine/Assembler.lean ====
section
/-! DEFINITION. The assembler's lines (spec/30_encoding.md R82, R83): operands in the mnemonic's order, an optional selector
last, and the refusal of a value that does not fit its field (93_implementation_defined.md V12). A line comes as its
mnemonic and its operands already told apart (log entry 21). -/

namespace Sys2Proof.Machine

/-- A number as written: decimal or `0x` hex digits, the most significant first (R82). -/
inductive Numeral where
  | dec (digits : List (Fin 10))
  | hex (digits : List (Fin 16))
  deriving DecidableEq, Repr

/-- The number the digits spell. -/
def numeralValue : Numeral → Nat
  | .dec ds => ds.foldl (fun n d => 10 * n + d.val) 0
  | .hex ds => ds.foldl (fun n d => 16 * n + d.val) 0

/-- One operand as written (R82). -/
inductive AsmOperand where
  | num (n : Numeral)
  | sel (s : Sel)
  | lvl (l : Level)
  deriving DecidableEq, Repr

/-- A number that fits `w` bits (R82); `none` refuses the line. -/
def fitNumber (w : Nat) : AsmOperand → Option (BitVec w)
  | .num n => if numeralValue n < 2 ^ w then some (BitVec.ofNat w (numeralValue n)) else none
  | .sel _ | .lvl _ => none

/-- A selector's name: MASTER, SLAVE or BOTH; OMITTED has no spelling (R82). -/
def fitSel : AsmOperand → Option Sel
  | .sel s => if s.given then some s else none
  | .num _ | .lvl _ => none

/-- A level's name: LOW or HIGH (R82). -/
def fitLevel : AsmOperand → Option Level
  | .lvl l => some l
  | .num _ | .sel _ => none

/-- An optional selector at the end of the line: left out, it spells OMITTED (R82). -/
def fitOptionalSel : List AsmOperand → Option Sel
  | [] => some .omitted
  | [x] => fitSel x
  | _ :: _ :: _ => none

/-- Assemble one line; `none` refuses it (R82). -/
def assemble (o : Opcode) (operands : List AsmOperand) : Option Instr :=
  match o, operands with
  | .sendCommand, [i] => (fitNumber 8 i).map .sendCommand
  | .sendCommandWithByte, [i, d] => do return .sendCommandWithByte (← fitNumber 8 i) (← fitNumber 8 d)
  | .sendCommandWithByteSelect, [i, d, s] => do
      return .sendCommandWithByteSelect (← fitNumber 8 i) (← fitNumber 8 d) (← fitSel s)
  | .sendFixedValueRun, i :: d :: n :: tail => do
      return .sendFixedValueRun (← fitNumber 8 i) (← fitNumber 8 d) (← fitNumber 32 n) (← fitOptionalSel tail)
  | .sendIndexedBuffer, i :: b :: l :: tail => do
      return .sendIndexedBuffer (← fitNumber 8 i) (← fitNumber 32 b) (← fitNumber 32 l) (← fitOptionalSel tail)
  | .selectPanelHalf, [s] => (fitSel s).map .selectPanelHalf
  | .resume, [] => some .resume
  | .suspend, [] => some .suspend
  | .resetSequence, [a, b, c, d, e] => do
      return .resetSequence (← fitNumber 32 a) (← fitNumber 32 b) (← fitNumber 32 c) (← fitNumber 32 d)
        (← fitNumber 32 e)
  | .waitBusy, [l] => (fitLevel l).map .waitBusy
  | _, _ => none

/-- The hex digits of a number that fits `2n` digits, the most significant first. -/
def hexDigits : Nat → Nat → List (Fin 16)
  | 0, _ => []
  | n + 1, v => hexDigits n (v / 16) ++ [Fin.ofNat 16 v]

/-- A bit vector written as a hex number of `n` digits. -/
def spellHex {w : Nat} (n : Nat) (v : BitVec w) : AsmOperand := .num (.hex (hexDigits n v.toNat))

/-- An optional selector's spelling: OMITTED is left out (R82). -/
def spellOptionalSel : Sel → List AsmOperand
  | .omitted => []
  | .master => [.sel .master]
  | .slave => [.sel .slave]
  | .both => [.sel .both]

/-- The operands that spell an operation, in the order of R82. -/
def spell : Instr → List AsmOperand
  | .sendCommand i => [spellHex 2 i]
  | .sendCommandWithByte i d => [spellHex 2 i, spellHex 2 d]
  | .sendCommandWithByteSelect i d s => [spellHex 2 i, spellHex 2 d, .sel s]
  | .sendFixedValueRun i d n s => [spellHex 2 i, spellHex 2 d, spellHex 8 n] ++ spellOptionalSel s
  | .sendIndexedBuffer i b l s => [spellHex 2 i, spellHex 8 b, spellHex 8 l] ++ spellOptionalSel s
  | .selectPanelHalf s => [.sel s]
  | .resume => []
  | .suspend => []
  | .resetSequence a b c d e => [spellHex 8 a, spellHex 8 b, spellHex 8 c, spellHex 8 d, spellHex 8 e]
  | .waitBusy l => [.lvl l]

end Sys2Proof.Machine
end

