-- ==== Sys2Proof/Machine/Boot.lean ====
section
/-! DEFINITION. From a written configuration to a launch state (spec/10_state.md R23, 41_lifecycle.md R142,
92_eei_decisions.md D45), and the host's validation before boot (70_reset_and_hazards.md R203). -/

namespace Sys2Proof.Machine

/-- The family a code names; code 3 names none (10_state.md R22, R23). -/
def familyOfCode (b : BitVec 2) : Option Family :=
  if b = 0#2 then some .small else if b = 1#2 then some .medium else if b = 2#2 then some .large else none

/-- An extension pin as admitted; an INPUT with a level is refused (41_lifecycle.md R142). -/
def extPinOf (x : RawExtPin) : Option ExtPin :=
  match x.mode, x.initial with
  | .input, none => some ⟨x.pin, .input⟩
  | .input, some _ => none
  | .output, v => some ⟨x.pin, .output v⟩

/-- The configuration a written one stands for, with `T_SELECT_SETTLE` defaulting to `delayCS`; nothing else is checked
(10_state.md R23). -/
def admitConfiguration (r : RawConfiguration) : Option Configuration :=
  match familyOfCode r.familyCode, r.extPins.mapM extPinOf with
  | some fam, some ext =>
    some { busy := r.busy, dc := r.dc, reset := r.reset, csM := r.csM, csS := r.csS, flashCS := r.flashCS,
           flashCS2 := r.flashCS2, sdCS := r.sdCS, sdDetect := r.sdDetect, rail := r.rail, family := fam,
           delayCS := r.delayCS, tSelectSettle := r.tSelectSettle.getD r.delayCS,
           settlePerByte := r.settlePerByte, extPins := ext }
  | _, _ => none

/-- The launch state of a written configuration; `none` is "no launch" (10_state.md R23, 70_reset_and_hazards.md R200). -/
def launchOf (r : RawConfiguration) : Option State := (admitConfiguration r).map State.launch

/-- The roles an operation needs connected: `dc` and `csM` for every framer operation, `reset` for `resetSequence` (and `csM`,
which it drives too), `busy` for `waitBusy`; the power operations guard every role they drive (70_reset_and_hazards.md R203
step 1). -/
def requiredRoles : Instr → List Role
  | .sendCommand _ => [.dc, .csM]
  | .sendCommandWithByte _ _ => [.dc, .csM]
  | .sendCommandWithByteSelect _ _ _ => [.dc, .csM]
  | .sendFixedValueRun _ _ _ _ => [.dc, .csM]
  | .sendIndexedBuffer _ _ _ _ => [.dc, .csM]
  | .selectPanelHalf _ => [.dc, .csM]
  | .resume => []
  | .suspend => []
  | .resetSequence _ _ _ _ _ => [.reset, .csM]
  | .waitBusy _ => [.busy]

/-- The host's validation for the operations it will issue: every role one of them needs is connected
(70_reset_and_hazards.md R203 step 1). Which operations a panel needs is the program's. -/
def validForBoot (c : Configuration) (program : List Instr) : Bool :=
  program.all fun i => (requiredRoles i).all (connected c)

end Sys2Proof.Machine
end

