-- ==== Sys2Proof/Safety.lean ====
section
/-! DEFINITION. The terms claims are stated in: the trace as a reader writes it (spec/00_scope.md R14), what a stretch of
trace does to a pin, completed runs (60_exceptions.md R194), and the invariants of the machine. -/

namespace Sys2Proof.Machine

/-! ### The trace as it is shown (00_scope.md R14) -/

/-- An event in the notation of 00_scope.md R14: the byte a transfer returns is not shown. -/
inductive Shown where
  | M (p : PinId) (m : Direction)
  | W (p : PinId) (v : Level)
  | R (p : PinId) (v : Level)
  | X (b : Byte)
  | Dus (n : Word)
  | Dms (n : Word)
  | INIT
  deriving DecidableEq, Repr

/-- How an event is shown. -/
def showEvent : Event → Shown
  | .pinMode p m => .M p m
  | .pinWrite p v => .W p v
  | .pinRead p v => .R p v
  | .xfer b _ => .X b
  | .delayUs n => .Dus n
  | .delayMs n => .Dms n
  | .gpioInit => .INIT

/-- The pin an event names: its pin-touch set (20_memory.md R53). -/
def touchedPin : Shown → Option PinId
  | .M p _ => some p
  | .W p _ => some p
  | .R p _ => some p
  | .X _ | .Dus _ | .Dms _ | .INIT => none

/-- What one event does to the cell of a pin (10_state.md R28): a mode change keeps the latch, a write keeps the mode. -/
def cellStep (p : PinId) (c : PinCell) : Shown → PinCell
  | .M q m => if q = p then ⟨modeOf m, c.level⟩ else c
  | .W q v => if q = p then ⟨c.mode, latchOf v⟩ else c
  | .R _ _ | .X _ | .Dus _ | .Dms _ | .INIT => c

/-- What a stretch of the trace does to the cell of a pin. -/
def cellAfter (p : PinId) (c : PinCell) (evs : List Shown) : PinCell := evs.foldl (cellStep p) c

/-- The µs delays of a stretch of the trace, summed (70_reset_and_hazards.md R212). -/
def sumUs : List Shown → Nat
  | [] => 0
  | .Dus n :: rest => n.toNat + sumUs rest
  | .M _ _ :: rest | .W _ _ :: rest | .R _ _ :: rest | .X _ :: rest | .Dms _ :: rest | .INIT :: rest => sumUs rest

/-- The ms delays of a stretch of the trace, summed (70_reset_and_hazards.md R212). -/
def sumMs : List Shown → Nat
  | [] => 0
  | .Dms n :: rest => n.toNat + sumMs rest
  | .M _ _ :: rest | .W _ _ :: rest | .R _ _ :: rest | .X _ :: rest | .Dus _ :: rest | .INIT :: rest => sumMs rest

/-- How many bytes a stretch of the trace transfers. -/
def countXfers : List Shown → Nat
  | [] => 0
  | .X _ :: rest => countXfers rest + 1
  | .M _ _ :: rest | .W _ _ :: rest | .R _ _ :: rest | .Dus _ :: rest | .Dms _ :: rest | .INIT :: rest =>
      countXfers rest

/-! ### Kinds of operation -/

/-- The operations with a gate (60_exceptions.md R174): all but `resume` and `suspend`. -/
def isGated : Instr → Bool
  | .sendCommand _ => true
  | .sendCommandWithByte _ _ => true
  | .sendCommandWithByteSelect _ _ _ => true
  | .sendFixedValueRun _ _ _ _ => true
  | .sendIndexedBuffer _ _ _ _ => true
  | .selectPanelHalf _ => true
  | .resume => false
  | .suspend => false
  | .resetSequence _ _ _ _ _ => true
  | .waitBusy _ => true

/-- The framer operations (00_scope.md R4). -/
def isFramer : Instr → Bool
  | .sendCommand _ => true
  | .sendCommandWithByte _ _ => true
  | .sendCommandWithByteSelect _ _ _ => true
  | .sendFixedValueRun _ _ _ _ => true
  | .sendIndexedBuffer _ _ _ _ => true
  | .selectPanelHalf _ => true
  | .resume => false
  | .suspend => false
  | .resetSequence _ _ _ _ _ => false
  | .waitBusy _ => false

/-- The event sequence of an operation at its full length, under a configuration (10_state.md R33). -/
def fullSeq (c : Configuration) : Instr → List Micro
  | .sendCommand idx => sendCommandSeq c idx
  | .sendCommandWithByte idx dat => sendCommandWithByteSeq c idx dat
  | .sendCommandWithByteSelect idx dat sel => sendCommandWithByteSelectSeq c idx dat sel
  | .sendFixedValueRun idx dat count sel => sendFixedValueRunSeq c idx dat count sel
  | .sendIndexedBuffer idx buf len sel => sendIndexedBufferSeq c idx buf len sel
  | .selectPanelHalf sel => selectPanelHalfSeq c sel
  | .resume => resumeSeq c
  | .suspend => suspendSeq c true
  | .resetSequence d1 d2 d3 d4 d5 => resetSequenceSeq d1 d2 d3 d4 d5
  | .waitBusy lvl => waitBusySeq lvl

/-! ### Readiness, completion, faults -/

/-- A write through the role passes its check: connected, and its pin OUTPUT (00_scope.md R13). -/
def canDrive (s : State) (r : Role) : Bool :=
  connected s.cfg r && decide ((pinCell s (pinOf s.cfg r)).mode = .output)

/-- A read through the role passes its check: connected, and its pin INPUT (00_scope.md R13). -/
def canSample (s : State) (r : Role) : Bool :=
  connected s.cfg r && decide ((pinCell s (pinOf s.cfg r)).mode = .input)

/-- The slave chip-select is not connected, or can be driven (40_framing.md R101). -/
def slaveReady (s : State) : Bool := !connected s.cfg .csS || canDrive s .csS

/-- The move issues an operation; register and memory moves do not. -/
def isIssue : HostAction → Bool
  | .issue _ => true
  | .readReg _ | .writeReg _ _ | .memWrite _ _ | .memRefuse _ => false

/-- The run is complete (60_exceptions.md R194): no operation is left to issue, the port is IDLE and `FAULT` is NONE. Register
reads and memory moves that the host still has to make do not matter. -/
def runCompleted (s : State) : Bool :=
  s.agenda.all (fun mv => !isIssue mv.action) && s.port == .idle && s.fault == .none

/-- `t` is `s` after these events and nothing else than what they and the memory reads say: the frame of an operation that
reads no pin. `PS` and the port are left to the claim. -/
structure After (s t : State) (evs : List Shown) (reads : List (Nat × Byte)) : Prop where
  trace : ∃ new, t.trace = s.trace ++ new ∧ new.map showEvent = evs
  cells : ∀ p, p ≠ NC → pinCell t p = cellAfter p (pinCell s p) evs
  reads : t.memHistory = s.memHistory ++ reads
  cfg : t.cfg = s.cfg
  opIndex : t.opIndex = s.opIndex
  mem : ∀ a, memRead t a = memRead s a
  levels : t.levelInputs = s.levelInputs ∧ t.levelDraws = s.levelDraws
  agenda : t.agenda = s.agenda
  hostReads : t.hostReads = s.hostReads

/-- `t` is `s` after an operation that completed with these events and memory reads. -/
structure Completes (s t : State) (evs : List Shown) (reads : List (Nat × Byte)) (ps : PowerState) : Prop where
  after : After s t evs reads
  ps : t.ps = ps
  port : t.port = .idle
  fault : t.fault = s.fault
  history : t.faultHistory = s.faultHistory

/-- `t` is `s` after an operation that raised this fault after these events and memory reads (60_exceptions.md R171). -/
structure Faults (s t : State) (evs : List Shown) (reads : List (Nat × Byte)) (code : FaultCode)
    (site : Option (Role × PinId)) : Prop where
  after : After s t evs reads
  ps : t.ps = s.ps
  port : t.port = .idle
  fault : t.fault = code
  history : t.faultHistory = s.faultHistory ++ [⟨code, s.opIndex, latchedWords s.port, site⟩]

/-! ### Event sequences as the spec writes them (40_framing.md, 41_lifecycle.md) -/

/-- The slave line's write, left out when it is not connected. -/
def shownSlave (c : Configuration) (v : Level) : List Shown := if c.csS = NC then [] else [.W c.csS v]

/-- `assertCS` (40_framing.md R101). -/
def shownAssert (c : Configuration) : EffSel → List Shown
  | .single => [.W c.csM .low, .Dus c.delayCS]
  | .master => [.W c.csM .low] ++ shownSlave c .high ++ [.Dus c.tSelectSettle]
  | .slave => [.W c.csM .high] ++ shownSlave c .low ++ [.Dus c.tSelectSettle]
  | .both => [.W c.csM .low] ++ shownSlave c .low ++ [.Dus c.tSelectSettle]

/-- `deassertCS` (40_framing.md R101). -/
def shownDeassert (c : Configuration) : EffSel → List Shown
  | .single => [.W c.csM .high]
  | .master | .slave | .both => [.W c.csM .high] ++ shownSlave c .high

/-- The settles and transfers of a data phase, for either value of `SETTLE_PER_BYTE` (40_framing.md R102). -/
def shownData (c : Configuration) (bytes : List Byte) : List Shown :=
  if c.settlePerByte = true then bytes.flatMap fun b => [.Dus c.delayCS, .X b, .Dus c.delayCS]
  else [.Dus c.delayCS] ++ bytes.map .X ++ [.Dus c.delayCS]

/-- A frame with a data phase (40_framing.md R106). -/
def shownFrame (c : Configuration) (e : EffSel) (idx : Byte) (between : List Shown) (bytes : List Byte) : List Shown :=
  [.W c.dc .low] ++ shownAssert c e ++ [.X idx, .Dus c.delayCS] ++ between ++ [.W c.dc .high] ++ shownData c bytes
    ++ shownDeassert c e

/-- An output at a level, for a pin that is connected. -/
def shownOutput (p : PinId) (v : Level) : List Shown := if p = NC then [] else [.M p .output, .W p v]

/-- An input, for a pin that is connected. -/
def shownInput (p : PinId) : List Shown := if p = NC then [] else [.M p .input]

/-- An extension pin's setup (41_lifecycle.md R142). -/
def shownExt (x : ExtPin) : List Shown :=
  match x.setup with
  | .input => shownInput x.pin
  | .output (some v) => shownOutput x.pin v
  | .output none => if x.pin = NC then [] else [.M x.pin .output]

/-- The configuration sequence (41_lifecycle.md R142). -/
def shownConfiguration (c : Configuration) : List Shown :=
  [.INIT] ++ shownOutput c.rail .high ++ shownInput c.busy ++ shownOutput c.dc .high ++ shownOutput c.reset .high
    ++ shownOutput c.csM .high ++ shownOutput c.csS .high ++ shownOutput c.flashCS .high
    ++ shownOutput c.flashCS2 .high ++ shownOutput c.sdCS .high ++ shownInput c.sdDetect
    ++ c.extPins.flatMap shownExt

/-! ### Invariants -/

/-- Host memory and the pin bank are in canonical form (log entries 6 and 15). -/
def Canonical (s : State) : Prop := Memory.wf s.hostMem = true ∧ pinBankWf s.pins = true

/-- Every pin's cell is what the trace since reset made of the reset cell (10_state.md R28). -/
def BankIsReplayOfTrace (s : State) : Prop :=
  ∀ p, p ≠ NC → pinCell s p = cellAfter p PinCell.reset (s.trace.map showEvent)

/-- What an operation in flight is: no fault is recorded, its latched words decode, what is left to do is a rest of its event
sequence, and a gated operation runs with `PS` ON (10_state.md R33, 60_exceptions.md R174). -/
def PortConsistent (s : State) : Prop :=
  ∀ words todo, s.port = .executing words todo →
    s.fault = .none ∧ todo ≠ [] ∧
    ∃ i, decode words = .ok i ∧ todo <:+ fullSeq s.cfg i ∧ (isGated i = true → s.ps = .on)

/-- `FAULT` and the fault history agree: no record without a fault, and one record, of its code, with one; and a PFPS with a
fault has no operation in flight (60_exceptions.md R171, R173). -/
def FaultConsistent (s : State) : Prop :=
  (s.fault = .none → s.faultHistory = []) ∧
  (s.fault ≠ .none → s.port = .idle ∧ ∃ r, s.faultHistory = [r] ∧ r.code = s.fault)

/-- A trace with the bytes that transfers returned taken out. -/
def hideReceived (s : State) : State :=
  { s with trace := s.trace.map fun e => match e with
             | .xfer b _ => .xfer b 0#8
             | e => e
           byteInputs := [], byteDraws := 0 }

/-- An outcome, its next state looked at through `f`. -/
def outcomeMap (f : State → State) : Host.Outcome State Fault Refusal → Host.Outcome State Fault Refusal
  | .next s => .next (f s)
  | .fault r => .fault r
  | .refused r => .refused r

/-- The state with another time for the host's next move. -/
def withHostTiming (tm : Timing) (s : State) : State :=
  match s.agenda with
  | [] => s
  | mv :: rest => { s with agenda := ⟨tm, mv.action⟩ :: rest }

end Sys2Proof.Machine
end

