-- ==== Sys2Proof/Certificates/Slice0/Obligations.lean ====
section
/-! DEFINITION. The statements about the PFPS, from the numbered rules of spec/. -/

open Sys2Proof Sys2Proof.Machine

namespace Sys2Proof.Machine

/-! ### Terms of the statements -/

/-- One row of the encoding table: the operation, its mask and match, and whether it requires a selector
(30_encoding.md R75). -/
structure EncodingRow where
  opcode : Opcode
  mask : Word
  pattern : Word
  needsSel : Bool
  deriving DecidableEq, Repr

/-- The encoding table, as 30_encoding.md R75 writes it. -/
def encodingRows : List EncodingRow :=
  [⟨.sendCommand, 0xFFFF00FF#32, 0x00000001#32, false⟩,
   ⟨.sendCommandWithByte, 0xFF0000FF#32, 0x00000002#32, false⟩,
   ⟨.sendCommandWithByteSelect, 0xFF0000CF#32, 0x00000003#32, true⟩,
   ⟨.sendFixedValueRun, 0xFF0000CF#32, 0x00000004#32, false⟩,
   ⟨.sendIndexedBuffer, 0xFFFF00CF#32, 0x00000005#32, false⟩,
   ⟨.selectPanelHalf, 0xFFFFFFCF#32, 0x00000006#32, true⟩,
   ⟨.resume, 0xFFFFFFFF#32, 0x00000008#32, false⟩,
   ⟨.suspend, 0xFFFFFFFF#32, 0x00000009#32, false⟩,
   ⟨.resetSequence, 0xFFFFFFFF#32, 0x0000000A#32, false⟩,
   ⟨.waitBusy, 0xFFFFFFBF#32, 0x0000000B#32, false⟩]

/-- A word matches a row (30_encoding.md R75). -/
def rowMatches (r : EncodingRow) (w : Word) : Prop :=
  w &&& r.mask = r.pattern ∧ (r.needsSel = true → w.extractLsb' 4 2 ≠ 0#2)

/-- The reserved OP codes (30_encoding.md R80). -/
def reservedOps : List (BitVec 4) := [0x0#4, 0x7#4, 0xC#4, 0xD#4, 0xE#4, 0xF#4]

/-- The OP codes of the operations that use each field (30_encoding.md R75). -/
def opsWithSel : List (BitVec 4) := [0x3#4, 0x4#4, 0x5#4, 0x6#4]
def opsWithLvl : List (BitVec 4) := [0xB#4]
def opsWithIdx : List (BitVec 4) := [0x1#4, 0x2#4, 0x3#4, 0x4#4, 0x5#4]
def opsWithDat : List (BitVec 4) := [0x2#4, 0x3#4, 0x4#4]
def opsRequiringSel : List (BitVec 4) := [0x3#4, 0x6#4]

/-- The four conditions under which an operation word is illegal (30_encoding.md R73). -/
def illegalWord (w : Word) : Prop :=
  w.extractLsb' 0 4 ∈ reservedOps ∨
  (w.extractLsb' 7 1 ≠ 0#1 ∨ w.extractLsb' 24 8 ≠ 0#8) ∨
  ((w.extractLsb' 0 4 ∉ opsWithSel ∧ w.extractLsb' 4 2 ≠ 0#2) ∨
   (w.extractLsb' 0 4 ∉ opsWithLvl ∧ w.extractLsb' 6 1 ≠ 0#1) ∨
   (w.extractLsb' 0 4 ∉ opsWithIdx ∧ w.extractLsb' 8 8 ≠ 0#8) ∨
   (w.extractLsb' 0 4 ∉ opsWithDat ∧ w.extractLsb' 16 8 ≠ 0#8)) ∨
  (w.extractLsb' 0 4 ∈ opsRequiringSel ∧ w.extractLsb' 4 2 = 0#2)

/-- The host's next move is this issue, and the PFPS can accept it: IDLE, no fault. -/
def issuesNext (s : State) (words : List Word) : Prop :=
  s.port = .idle ∧ s.fault = .none ∧ s.agenda.head?.map HostMove.action = some (.issue words)

/-- The state once an issue is accepted (30_encoding.md R72): the move is made, the words are latched, `opIndex` counts it,
the port is EXECUTING. -/
def acceptedState (s : State) (words : List Word) : State :=
  { s with agenda := s.agenda.tail, opIndex := s.opIndex + 1, port := .executing words [] }

/-- The state once an issue was found illegal (30_encoding.md R73, R80; 60_exceptions.md R171). -/
def illegalState (s : State) (words : List Word) : State :=
  { s with
    agenda := s.agenda.tail
    opIndex := s.opIndex + 1
    fault := .illegalOp
    faultHistory := s.faultHistory ++ [⟨.illegalOp, s.opIndex + 1, words, none⟩] }

/-- It is the host's turn: the port is IDLE, or the host's move is due while an operation is in flight, or the operation is
stuck on a refused read and the host does not wait for completion. -/
def hostsTurn (s : State) : Prop :=
  s.port = .idle ∨ hostDue s = true ∨
  (hostCounts s = true ∧ ∃ words todo, s.port = .executing words todo ∧ (waitsForRead todo s).isSome = true)

/-- A framer operation without a fault, for a host that waits for its completion: the state in which `exec` is called. -/
def startable (s : State) : Prop := s.fault = .none ∧ hostCounts s = false

/-- A frame with this selection can be driven: powered, and every line it drives passes its check (00_scope.md R13). -/
def frameReady (s : State) (e : EffSel) : Prop :=
  s.ps = .on ∧ canDrive s .dc = true ∧ canDrive s .csM = true ∧ (e = .single ∨ slaveReady s = true)

/-- The faults of a frame that is not ready (40_framing.md R103 to R113, 60_exceptions.md R174, R175): NOT_POWERED without an
event, or CONFIG_HAZARD at the first access that cannot be made, the events before it standing. -/
def frameFaults (s t : State) (e : EffSel) : Prop :=
  (s.ps ≠ .on → Faults s t [] [] .notPowered none) ∧
  (s.ps = .on → canDrive s .dc = false → Faults s t [] [] .configHazard (some (.dc, s.cfg.dc))) ∧
  (s.ps = .on → canDrive s .dc = true → canDrive s .csM = false →
    Faults s t [.W s.cfg.dc .low] [] .configHazard (some (.csM, s.cfg.csM))) ∧
  (s.ps = .on → canDrive s .dc = true → canDrive s .csM = true → e ≠ .single → slaveReady s = false →
    Faults s t [.W s.cfg.dc .low, .W s.cfg.csM (if e = .slave then .high else .low)] [] .configHazard
      (some (.csS, s.cfg.csS)))

/-- What a frame does from `s` in every case: it completes with these events and memory reads, or faults. -/
def frameMeaning (s t : State) (e : EffSel) (evs : List Shown) (reads : List (Nat × Byte)) : Prop :=
  (frameReady s e → Completes s t evs reads .on) ∧ frameFaults s t e

/-- The bytes of host memory at `BUF + 0` to `BUF + n - 1`, where they are admitted. -/
def bufferBytes (s : State) (buf : Word) (n : Nat) : List Byte :=
  (List.range n).map fun i => (memRead s (buf.toNat + i)).getD 0#8

/-- The memory-request history of reading them in ascending order. -/
def bufferReads (s : State) (buf : Word) (n : Nat) : List (Nat × Byte) :=
  (List.range n).map fun i => (buf.toNat + i, (memRead s (buf.toNat + i)).getD 0#8)

/-- What a frame shows before its data bytes, from DC LOW to DC HIGH. -/
def shownUpToData (c : Configuration) (e : EffSel) (idx : Byte) (between : List Shown) : List Shown :=
  [.W c.dc .low] ++ shownAssert c e ++ [.X idx, .Dus c.delayCS] ++ between ++ [.W c.dc .high]

/-- What a data phase shows up to the transfer that comes after these bytes. -/
def shownDataUpTo (c : Configuration) (bytes : List Byte) : List Shown :=
  if c.settlePerByte = true then (bytes.flatMap fun b => [.Dus c.delayCS, .X b, .Dus c.delayCS]) ++ [.Dus c.delayCS]
  else [.Dus c.delayCS] ++ bytes.map .X

/-- The broadcast settle of `sendIndexedBuffer` (40_framing.md R111). -/
def bcastSettle (c : Configuration) (sel : Sel) : List Shown :=
  if c.family = .large ∧ sel = .omitted then [.Dus 450#32] else []

/-- The same state under a host that waits for completion. -/
def waiting (s : State) : State := withHostTiming .onCompletion s

/-- Two operands spell the same: numbers of one value, or one and the same name (30_encoding.md R82). -/
def sameOperand : AsmOperand → AsmOperand → Prop
  | .num n, .num m => numeralValue n = numeralValue m
  | .sel s, .sel s' => s = s'
  | .lvl l, .lvl l' => l = l'
  | .num _, .sel _ | .num _, .lvl _ | .sel _, .num _ | .sel _, .lvl _ | .lvl _, .num _ | .lvl _, .sel _ => False

/-- The widths of a mnemonic's numeric operands, which stand first on its line, in order (30_encoding.md R82). -/
def numericWidths : Opcode → List Nat
  | .sendCommand => [8]
  | .sendCommandWithByte => [8, 8]
  | .sendCommandWithByteSelect => [8, 8]
  | .sendFixedValueRun => [8, 8, 32]
  | .sendIndexedBuffer => [8, 32, 32]
  | .selectPanelHalf => []
  | .resume => []
  | .suspend => []
  | .resetSequence => [32, 32, 32, 32, 32]
  | .waitBusy => []

/-- The effective selection as 40_framing.md R100 tabulates it, for the operations that take a selector. -/
def selectedHalves (c : Configuration) (sel : Sel) : EffSel :=
  if c.family ≠ .large then .single
  else match sel with
    | .master => .master
    | .slave => .slave
    | .both => .both
    | .omitted => .both

/-- The events that `t` adds to the trace of `s`. -/
def addsEvents (s t : State) (evs : List Event) : Prop := t.trace = s.trace ++ evs

/-- The environment presents `v` at the next `PinRead`, and `s'` is `s` with that draw made: scripted, or a free value of
which nothing is known (10_state.md R31). -/
def drawsLevel (s : State) (v : Level) (s' : State) : Prop :=
  (∃ rest, s.levelInputs = v :: rest ∧ s' = { s with levelInputs := rest }) ∨
  (s.levelInputs = [] ∧ v = Config.freeLevel s.levelDraws ∧ s' = { s with levelDraws := s.levelDraws + 1 })

/-- The state in which the loop of `waitBusy` is in flight, for a host that waits for its completion. -/
def polling (s : State) (lvl : Level) : Prop :=
  s.ps = .on ∧ s.fault = .none ∧ hostCounts s = false ∧ canSample s .busy = true ∧
  ∃ words, s.port = .executing words [.poll lvl]

end Sys2Proof.Machine

/-! ### Encoding -/

/-- Decoding the words of a well-formed operation gives it back, whatever its operands
(30_encoding.md R71, R74 to R79). -/
def Obligations.DecodeOfEncodeIsTheOperation : Prop :=
  ∀ i : Instr, i.wellFormed = true → decode (encode i) = .ok i

/-- A legal issue is the encoding of the operation it decodes to: each operation has one spelling
(30_encoding.md R71, R75; 92_eei_decisions.md D4, "one meaning per word"). -/
def Obligations.EveryLegalIssueIsAnEncoding : Prop :=
  ∀ (words : List Word) (i : Instr), decode words = .ok i → encode i = words ∧ i.wellFormed = true

/-- 30_encoding.md R75: exactly one row matches any legal word, the row of its operation, and a word no row matches is
illegal. -/
def Obligations.LegalWordsMatchExactlyOneRow : Prop :=
  ∀ (w : Word) (operands : List Word), operands.length = operandCount (w.extractLsb' 0 4) →
    (∀ i, decode (w :: operands) = .ok i →
      ∃ r ∈ encodingRows, rowMatches r w ∧ r.opcode = i.opcode ∧
        ∀ r' ∈ encodingRows, rowMatches r' w → r' = r) ∧
    ((∀ r ∈ encodingRows, ¬ rowMatches r w) → ∃ e, decode (w :: operands) = .error e ∧ e ≠ .wordCount)

/-- The worked examples of 30_encoding.md R84 decode to the operations they stand for. -/
def Obligations.WorkedExampleWordsDecode : Prop :=
  decode [0x0000A133#32] = .ok (.sendCommandWithByteSelect 0xA1#8 0x00#8 .both) ∧
  decode [0x00001201#32] = .ok (.sendCommand 0x12#8) ∧
  decode [0x00801202#32] = .ok (.sendCommandWithByte 0x12#8 0x80#8) ∧
  decode [0x00FF1314#32, 0x00000002#32] = .ok (.sendFixedValueRun 0x13#8 0xFF#8 2#32 .master) ∧
  decode [0x00001005#32, 0x00001000#32, 0x00000003#32] =
    .ok (.sendIndexedBuffer 0x10#8 0x1000#32 3#32 .omitted) ∧
  decode [0x00000026#32] = .ok (.selectPanelHalf .slave) ∧
  decode [0x00000008#32] = .ok .resume ∧ decode [0x00000009#32] = .ok .suspend ∧
  decode [0x0000000A#32, 0x00000014#32, 0x00000005#32, 0x00000005#32, 0x00000005#32, 0x00000005#32] =
    .ok (.resetSequence 20#32 5#32 5#32 5#32 5#32) ∧
  decode [0x0000004B#32] = .ok (.waitBusy .high) ∧ decode [0x0000000B#32] = .ok (.waitBusy .low)

/-- 30_encoding.md R81: the length is learned from OP alone, 2 words for `sendFixedValueRun`, 3 for `sendIndexedBuffer`,
6 for `resetSequence` and 1 for every other code, and the port takes no other number of words. -/
def Obligations.LengthFollowsFromOpAlone : Prop :=
  ∀ (w : Word) (operands : List Word),
    operationLength (w.extractLsb' 0 4) =
      (if w.extractLsb' 0 4 = 0x4#4 then 2 else if w.extractLsb' 0 4 = 0x5#4 then 3
       else if w.extractLsb' 0 4 = 0xA#4 then 6 else 1) ∧
    (decode (w :: operands) = .error .wordCount ↔ 1 + operands.length ≠ operationLength (w.extractLsb' 0 4))

/-! ### The operation port -/

/-- A step runs the decoded operation: when the host's next move issues words that decode to `i`, the step is `exec i` from
the state with the words latched, the port EXECUTING and `opIndex` counted (30_encoding.md R72). -/
def Obligations.StepRunsTheDecodedOperation : Prop :=
  ∀ (s : State) (words : List Word) (i : Instr), issuesNext s words → decode words = .ok i →
    step s = exec i (acceptedState s words)

/-- `State.withFetchWord` places an operation where the very next step accepts and runs it (the model's own reading of
"issue"; log entry 3). -/
def Obligations.PlacedOperationRunsNext : Prop :=
  ∀ (s : State) (nbits w : Nat) (i : Instr), decodeTableWord nbits w = some i →
    step (s.withFetchWord nbits w) =
      exec i { s with opIndex := s.opIndex + 1, port := .executing (tableWords nbits w) [], fault := .none }

/-- 30_encoding.md R80: a reserved encoding raises ILLEGAL_OP at decode, emits no event and changes nothing but FAULT and
`opIndex` (beside the host's own move and the record of the fault). The all-zero word is one. -/
def Obligations.ReservedEncodingsOnlyFault : Prop :=
  (∀ (s : State) (w : Word) (operands : List Word), operands.length = operandCount (w.extractLsb' 0 4) →
    (w.extractLsb' 0 4 ∈ reservedOps ∨ w.extractLsb' 7 1 ≠ 0#1 ∨ w.extractLsb' 24 8 ≠ 0#8) →
    issuesNext s (w :: operands) → step s = .next (illegalState s (w :: operands))) ∧
  (∀ s : State, issuesNext s [0x00000000#32] → step s = .next (illegalState s [0x00000000#32]))

/-- 30_encoding.md R73: an operation that meets one of the four conditions is illegal and raises ILLEGAL_OP before any
event; otherwise the operation whose fields and operand words these are runs. -/
def Obligations.IllegalOperationsRaiseIllegalOp : Prop :=
  ∀ (s : State) (w : Word) (operands : List Word), operands.length = operandCount (w.extractLsb' 0 4) →
    issuesNext s (w :: operands) →
    (illegalWord w → step s = .next (illegalState s (w :: operands))) ∧
    (¬ illegalWord w → ∃ i, encode i = w :: operands ∧ i.wellFormed = true ∧
      step s = exec i (acceptedState s (w :: operands)))

/-- 60_exceptions.md R177: an issue while an operation is EXECUTING (due between two of its steps, or while it is stuck on a
refused read) raises OVERLAP; the operation in flight ends at the point it had reached and the new one is not latched. -/
def Obligations.IssueWhileExecutingOverlaps : Prop :=
  ∀ (s : State) (words words' : List Word) (todo : List Micro) (n : Nat) (rest : List HostMove),
    decode words' ≠ .error .wordCount → s.fault = .none → s.port = .executing words todo →
    s.agenda = ⟨.afterSteps n, .issue words'⟩ :: rest →
    (n = 0 ∨ (waitsForRead todo s).isSome = true) →
    step s = .next { s with
      agenda := rest, port := .idle, fault := .overlap
      faultHistory := s.faultHistory ++ [⟨.overlap, s.opIndex, words, none⟩] }

/-- What the model does with a word list that is no issue, for it is not `1 + N(OP)` words long (30_encoding.md R70). This is the
model's choice (log entry 10): on an idle PFPS without a fault the run is refused, while an operation is EXECUTING the list
raises OVERLAP as an issue would, and on a stopped PFPS the run ends as it does for an issue. -/
def Obligations.WrongLengthListsAreNoIssue : Prop :=
  (∀ (s : State) (words : List Word), issuesNext s words → decode words = .error .wordCount →
    step s = .refused .issueWordCount) ∧
  (∀ (s : State) (words words' : List Word) (todo : List Micro) (rest : List HostMove),
    decode words' = .error .wordCount → s.fault = .none → s.port = .executing words todo →
    s.agenda = ⟨.afterSteps 0, .issue words'⟩ :: rest →
    step s = .next { s with
      agenda := rest, port := .idle, fault := .overlap
      faultHistory := s.faultHistory ++ [⟨.overlap, s.opIndex, words, none⟩] }) ∧
  (∀ (s : State) (words : List Word) (tm : Timing) (rest : List HostMove), decode words = .error .wordCount →
    s.fault ≠ .none → hostsTurn s → s.agenda = ⟨tm, .issue words⟩ :: rest → step s = .fault (.stopped s.fault))

/-- 30_encoding.md R72, 60_exceptions.md R171: on a stopped PFPS a later issue has no step. The model ends the run with
`Fault.stopped` (log entry 7), for a list of the wrong length too (log entry 10). -/
def Obligations.StoppedPfpsTakesNoIssue : Prop :=
  ∀ (s : State) (words : List Word) (mv : HostMove) (rest : List HostMove), s.port = .idle → s.fault ≠ .none →
    s.agenda = mv :: rest → mv.action = .issue words → step s = .fault (.stopped s.fault)

/-- 10_state.md R34: `opIndex` is 0 at reset, each accepted operation adds 1, no step writes it otherwise, and no register
read depends on it. -/
def Obligations.OpIndexCountsAcceptedOperations : Prop :=
  (∀ c, (State.launch c).opIndex = 0) ∧
  (∀ (s : State) (words : List Word), issuesNext s words → decode words ≠ .error .wordCount →
    ∃ t, step s = .next t ∧ t.opIndex = s.opIndex + 1) ∧
  (∀ s t : State, step s = .next t →
    t.opIndex = s.opIndex ∨ (t.opIndex = s.opIndex + 1 ∧ ∃ words, issuesNext s words)) ∧
  (∀ (s : State) (n : Nat) (r : HostReg), readReg { s with opIndex := n } r = readReg s r)

/-! ### Registers, configuration, reset -/

/-- 10_state.md R35: the fields of STATUS, with the values of each; a write is ignored; a read hands back the value, has no
side effect, and is admitted in every state, during an operation and after a fault too. -/
def Obligations.StatusRegister : Prop :=
  (∀ s : State,
    (readReg s .status).extractLsb' 0 2 = (match s.ps with | .off => 0#2 | .sleep => 1#2 | .on => 2#2) ∧
    (readReg s .status).extractLsb' 2 1 = (if s.port = .idle then 0#1 else 1#1) ∧
    (readReg s .status).extractLsb' 3 1 = 0#1 ∧
    (readReg s .status).extractLsb' 4 4 =
      (match s.fault with
        | .none => 0#4 | .illegalOp => 1#4 | .overlap => 2#4 | .notPowered => 3#4 | .configHazard => 4#4
        | .addrOverflow => 5#4) ∧
    (readReg s .status).extractLsb' 8 24 = 0#24) ∧
  (∀ c, readReg (State.launch c) .status = 0x00000000#32) ∧
  (∀ (s : State) (tm : Timing) (rest : List HostMove), hostsTurn s → s.agenda = ⟨tm, .readReg .status⟩ :: rest →
    step s = .next { s with agenda := rest, hostReads := s.hostReads ++ [(.status, readReg s .status)] }) ∧
  (∀ (s : State) (tm : Timing) (v : Word) (rest : List HostMove), hostsTurn s →
    s.agenda = ⟨tm, .writeReg .status v⟩ :: rest → step s = .next { s with agenda := rest })

/-- 10_state.md R36: CFG_PIN, CFG_FAMILY and CFG_DELAYCS show the configuration with zeros above; writes are ignored; reads
have no side effect; the values never change. -/
def Obligations.ConfigurationRegisters : Prop :=
  (∀ (s : State) (r : Role),
    (readReg s (.cfgPin r)).extractLsb' 0 8 = pinOf s.cfg r ∧ (readReg s (.cfgPin r)).extractLsb' 8 24 = 0#24) ∧
  (∀ s : State,
    (readReg s .cfgFamily).extractLsb' 0 2 =
      (match s.cfg.family with | .small => 0#2 | .medium => 1#2 | .large => 2#2) ∧
    (readReg s .cfgFamily).extractLsb' 2 30 = 0#30 ∧ readReg s .cfgDelayCS = s.cfg.delayCS) ∧
  (∀ (s : State) (r : HostReg) (tm : Timing) (rest : List HostMove), hostsTurn s → r ≠ .status →
    s.agenda = ⟨tm, .readReg r⟩ :: rest →
    step s = .next { s with agenda := rest, hostReads := s.hostReads ++ [(r, readReg s r)] }) ∧
  (∀ (s : State) (r : HostReg) (v : Word) (tm : Timing) (rest : List HostMove), hostsTurn s → r ≠ .status →
    s.agenda = ⟨tm, .writeReg r v⟩ :: rest → step s = .next { s with agenda := rest }) ∧
  (∀ (s t : State) (r : HostReg), step s = .next t → r ≠ .status → readReg t r = readReg s r)

/-- 10_state.md R23 with 41_lifecycle.md R142: a configuration is refused exactly when its family code is 3 or it has an
INPUT extension pin with a level; shared pins are admitted and nothing else is checked. -/
def Obligations.OnlyTwoConfigurationsAreRefused : Prop :=
  ∀ r : RawConfiguration,
    launchOf r = none ↔ (r.familyCode = 3#2 ∨ ∃ x ∈ r.extPins, x.mode = .input ∧ x.initial ≠ none)

/-- 10_state.md R40: every piece of the spec's state after reset, for every configuration that has a launch. -/
def Obligations.ResetState : Prop :=
  ∀ (r : RawConfiguration) (s : State), launchOf r = some s →
    admitConfiguration r = some s.cfg ∧ s.ps = .off ∧ (∀ p, pinCell s p = ⟨.unconfigured, .undef⟩) ∧
    s.fault = .none ∧ s.port = .idle ∧ s.opIndex = 0 ∧ s.trace = [] ∧ readReg s .status = 0x00000000#32

/-- The model's `State.reset` is the launch of a configuration the PFPS admits: the source's §8 scenario, which is the model's
choice among them (log entry 2). -/
def Obligations.ResetIsALaunch : Prop :=
  launchOf { busy := 13#8, dc := 12#8, reset := 11#8, csM := 17#8, csS := 14#8, flashCS := 10#8, familyCode := 2#2 } =
    some State.reset

/-! ### The framer operations -/

/-- 40_framing.md R103, `sendCommand`: DC LOW, `csM` LOW, settle, the command byte, settle, `csM` HIGH; DC is left LOW
unless it shares its pin with `csM`. The family does not matter. -/
def Obligations.SendCommand : Prop :=
  (∀ (s : State) (idx : Byte), startable s → ∃ t, exec (.sendCommand idx) s = .next t ∧
    frameMeaning s t .single
      [.W s.cfg.dc .low, .W s.cfg.csM .low, .Dus s.cfg.delayCS, .X idx, .Dus s.cfg.delayCS, .W s.cfg.csM .high] [] ∧
    (t.fault = .none → s.cfg.dc ≠ s.cfg.csM → (pinCell t s.cfg.dc).level = .low)) ∧
  (∀ idx : Byte, decode [opWord 0#8 idx 0#1 0#2 0x1#4] = .ok (.sendCommand idx))

/-- 40_framing.md R104, `sendCommandWithByte`: as `sendCommand`, with DC HIGH, a settle, the data byte and a settle before
the deassertion; DC is left HIGH. -/
def Obligations.SendCommandWithByte : Prop :=
  (∀ (s : State) (idx dat : Byte), startable s → ∃ t, exec (.sendCommandWithByte idx dat) s = .next t ∧
    frameMeaning s t .single
      [.W s.cfg.dc .low, .W s.cfg.csM .low, .Dus s.cfg.delayCS, .X idx, .Dus s.cfg.delayCS, .W s.cfg.dc .high,
       .Dus s.cfg.delayCS, .X dat, .Dus s.cfg.delayCS, .W s.cfg.csM .high] [] ∧
    (t.fault = .none → (pinCell t s.cfg.dc).level = .high)) ∧
  (∀ idx dat : Byte, decode [opWord dat idx 0#1 0#2 0x2#4] = .ok (.sendCommandWithByte idx dat))

/-- 40_framing.md R105, `sendCommandWithByteSelect`: the frame on the halves the selector names on LARGE, on `csM` alone on
the other families; SEL = 0 is ILLEGAL_OP at decode. -/
def Obligations.SendCommandWithByteSelect : Prop :=
  (∀ (s : State) (idx dat : Byte) (sel : Sel), sel ≠ .omitted → startable s →
    ∃ t, exec (.sendCommandWithByteSelect idx dat sel) s = .next t ∧
      frameMeaning s t (selectedHalves s.cfg sel) (shownFrame s.cfg (selectedHalves s.cfg sel) idx [] [dat]) []) ∧
  (∀ (idx dat : Byte) (sel : Sel), decode [opWord dat idx 0#1 sel.code 0x3#4] =
    if sel = .omitted then .error .selectorRequired else .ok (.sendCommandWithByteSelect idx dat sel))

/-- 40_framing.md R107 and R109, `sendFixedValueRun`: a command phase and a data phase of COUNT copies of DAT, for every
COUNT, both halves where the selector is omitted on LARGE, and no broadcast settle. -/
def Obligations.SendFixedValueRun : Prop :=
  (∀ (s : State) (idx dat : Byte) (count : Word) (sel : Sel), startable s →
    ∃ t, exec (.sendFixedValueRun idx dat count sel) s = .next t ∧
      frameMeaning s t (selectedHalves s.cfg sel)
        (shownFrame s.cfg (selectedHalves s.cfg sel) idx [] (List.replicate count.toNat dat)) []) ∧
  (∀ (idx dat : Byte) (count : Word) (sel : Sel),
    decode [opWord dat idx 0#1 sel.code 0x4#4, count] = .ok (.sendFixedValueRun idx dat count sel))

/-- 40_framing.md R110 and R111, `sendIndexedBuffer`: NOT_POWERED, then ADDR_OVERFLOW before any event, then the frame: the
bytes of the buffer in ascending order, the 450 µs settle once, between the command phase's settle and DC HIGH, where the
selector is omitted on LARGE and nowhere else. A read the host memory refuses leaves the operation stuck where it is: EXECUTING,
no fault, and no step of its own (the model then ends the run, log entry 7). -/
def Obligations.SendIndexedBuffer : Prop :=
  (∀ (s : State) (idx : Byte) (buf len : Word) (sel : Sel), startable s →
    ∃ t, exec (.sendIndexedBuffer idx buf len sel) s = .next t ∧
      (s.ps ≠ .on → Faults s t [] [] .notPowered none) ∧
      (s.ps = .on → buf.toNat + len.toNat > 2 ^ 32 → Faults s t [] [] .addrOverflow none) ∧
      (buf.toNat + len.toNat ≤ 2 ^ 32 → frameFaults s t (selectedHalves s.cfg sel)) ∧
      (buf.toNat + len.toNat ≤ 2 ^ 32 → frameReady s (selectedHalves s.cfg sel) →
        (∀ i < len.toNat, (memRead s (buf.toNat + i)).isSome = true) →
        Completes s t
          (shownFrame s.cfg (selectedHalves s.cfg sel) idx (bcastSettle s.cfg sel) (bufferBytes s buf len.toNat))
          (bufferReads s buf len.toNat) .on) ∧
      (∀ k < len.toNat, buf.toNat + len.toNat ≤ 2 ^ 32 → frameReady s (selectedHalves s.cfg sel) →
        (∀ i < k, (memRead s (buf.toNat + i)).isSome = true) → memRead s (buf.toNat + k) = none →
        After s t
          (shownUpToData s.cfg (selectedHalves s.cfg sel) idx (bcastSettle s.cfg sel) ++
            shownDataUpTo s.cfg (bufferBytes s buf k)) (bufferReads s buf k) ∧
        t.ps = .on ∧ t.fault = .none ∧ t.faultHistory = s.faultHistory ∧
        (∃ todo, t.port = .executing (latchedWords s.port) (.xferMem (buf.toNat + k) :: todo)) ∧
        step t = .fault (.refusedRead (buf.toNat + k)))) ∧
  (∀ (idx : Byte) (buf len : Word) (sel : Sel),
    decode [opWord 0#8 idx 0#1 sel.code 0x5#4, buf, len] = .ok (.sendIndexedBuffer idx buf len sel))

/-- 40_framing.md R112, `selectPanelHalf`: on LARGE the selection's writes and the select settle; on the other families
`csM` LOW and the same settle; DC is not touched, no byte is sent, nothing is deasserted; SEL = 0 is ILLEGAL_OP at decode. -/
def Obligations.SelectPanelHalf : Prop :=
  (∀ (s : State) (sel : Sel), sel ≠ .omitted → startable s → ∃ t, exec (.selectPanelHalf sel) s = .next t ∧
    (s.ps ≠ .on → Faults s t [] [] .notPowered none) ∧
    (s.ps = .on → canDrive s .csM = false → Faults s t [] [] .configHazard (some (.csM, s.cfg.csM))) ∧
    (s.ps = .on → canDrive s .csM = true → s.cfg.family = .large → slaveReady s = false →
      Faults s t [.W s.cfg.csM (if sel = .slave then .high else .low)] [] .configHazard
        (some (.csS, s.cfg.csS))) ∧
    (s.ps = .on → canDrive s .csM = true → s.cfg.family ≠ .large →
      Completes s t [.W s.cfg.csM .low, .Dus s.cfg.tSelectSettle] [] .on) ∧
    (s.ps = .on → canDrive s .csM = true → s.cfg.family = .large → slaveReady s = true →
      Completes s t
        ((match sel with
          | .slave => [.W s.cfg.csM .high] ++ shownSlave s.cfg .low
          | .master => [.W s.cfg.csM .low] ++ shownSlave s.cfg .high
          | .both | .omitted => [.W s.cfg.csM .low] ++ shownSlave s.cfg .low) ++ [.Dus s.cfg.tSelectSettle])
        [] .on)) ∧
  (∀ sel : Sel, decode [opWord 0#8 0#8 0#1 sel.code 0x6#4] =
    if sel = .omitted then .error .selectorRequired else .ok (.selectPanelHalf sel))

/-! ### The power sequencer operations -/

/-- 41_lifecycle.md R141 and R142, `resume`: from OFF and SLEEP the configuration sequence in its order, each access guarded
by its role's connection, then `PS` ON; in ON nothing. It never faults. -/
def Obligations.ResumeOperation : Prop :=
  (∀ s : State, startable s → ∃ t, exec .resume s = .next t ∧
    (s.ps ≠ .on → Completes s t (shownConfiguration s.cfg) [] .on) ∧
    (s.ps = .on → Completes s t [] [] .on)) ∧
  decode [0x00000008#32] = .ok .resume

/-- 41_lifecycle.md R145, `suspend`: in ON the rail LOW if it is connected, in OFF and SLEEP no event, and `PS` SLEEP from
every state; no mode changes; CONFIG_HAZARD only where the rail is connected and no output, and then `PS` stays. -/
def Obligations.SuspendOperation : Prop :=
  (∀ s : State, startable s → ∃ t, exec .suspend s = .next t ∧
    (s.ps ≠ .on → Completes s t [] [] .sleep) ∧
    (s.ps = .on → s.cfg.rail = NC → Completes s t [] [] .sleep) ∧
    (s.ps = .on → canDrive s .rail = true → Completes s t [.W s.cfg.rail .low] [] .sleep) ∧
    (s.ps = .on → s.cfg.rail ≠ NC → canDrive s .rail = false →
      Faults s t [] [] .configHazard (some (.rail, s.cfg.rail))) ∧
    (∀ p, p ≠ NC → (pinCell t p).mode = (pinCell s p).mode)) ∧
  decode [0x00000009#32] = .ok .suspend

/-- 41_lifecycle.md R148, `resetSequence`: the nine events in order, whatever the delays; NOT_POWERED without an event, and
CONFIG_HAZARD after the first delay or after the fourth. -/
def Obligations.ResetSequenceOperation : Prop :=
  (∀ (s : State) (d1 d2 d3 d4 d5 : Word), startable s →
    ∃ t, exec (.resetSequence d1 d2 d3 d4 d5) s = .next t ∧
      (s.ps ≠ .on → Faults s t [] [] .notPowered none) ∧
      (s.ps = .on → canDrive s .reset = true → canDrive s .csM = true →
        Completes s t
          [.Dms d1, .W s.cfg.reset .high, .Dms d2, .W s.cfg.reset .low, .Dms d3, .W s.cfg.reset .high, .Dms d4,
           .W s.cfg.csM .high, .Dms d5] [] .on) ∧
      (s.ps = .on → canDrive s .reset = false →
        Faults s t [.Dms d1] [] .configHazard (some (.reset, s.cfg.reset))) ∧
      (s.ps = .on → canDrive s .reset = true → canDrive s .csM = false →
        Faults s t
          [.Dms d1, .W s.cfg.reset .high, .Dms d2, .W s.cfg.reset .low, .Dms d3, .W s.cfg.reset .high, .Dms d4] []
          .configHazard (some (.csM, s.cfg.csM)))) ∧
  (∀ d1 d2 d3 d4 d5 : Word, decode [0x0000000A#32, d1, d2, d3, d4, d5] = .ok (.resetSequence d1 d2 d3 d4 d5))

/-- 41_lifecycle.md R151, `waitBusy`, one turn of its loop, for every level `v` the environment presents: the read, and
either the end of the operation or the 32 ms delay with the loop still in flight; the next step is the next turn. -/
def Obligations.WaitBusyTurn : Prop :=
  (∀ (s s' : State) (lvl v : Level), startable s → drawsLevel s v s' →
    ∃ t, exec (.waitBusy lvl) s = .next t ∧
      (s.ps ≠ .on → Faults s t [] [] .notPowered none) ∧
      (s.ps = .on → canSample s .busy = false →
        Faults s t [] [] .configHazard (some (.busy, s.cfg.busy))) ∧
      (s.ps = .on → canSample s .busy = true → v = lvl →
        t = { s' with trace := s.trace ++ [.pinRead s.cfg.busy v], port := .idle }) ∧
      (s.ps = .on → canSample s .busy = true → v ≠ lvl →
        t = { s' with
          trace := s.trace ++ [.pinRead s.cfg.busy v, .delayMs 32#32]
          port := .executing (latchedWords s.port) [.poll lvl] } ∧
        step t = exec (.waitBusy lvl) t)) ∧
  decode [0x0000000B#32] = .ok (.waitBusy .low) ∧ decode [0x0000004B#32] = .ok (.waitBusy .high)

/-- 41_lifecycle.md R152: `waitBusy` has no timeout. While the busy line misses, however long, the operation stays in flight
without a fault and the trace grows by a read and a delay a turn; it returns at the first read that matches. -/
def Obligations.WaitBusyWaitsAsLongAsItMisses : Prop :=
  ∀ (s : State) (lvl v : Level) (n : Nat) (rest : List Level), polling s lvl → v ≠ lvl →
    (s.levelInputs = List.replicate n v ++ rest →
      ∃ t, Sys2Proof.core.run n s = .next t ∧ t.port = s.port ∧ t.fault = .none ∧
        t.trace = s.trace ++ (List.replicate n [Event.pinRead s.cfg.busy v, .delayMs 32#32]).flatten) ∧
    (s.levelInputs = List.replicate n v ++ lvl :: rest →
      ∃ t, Sys2Proof.core.run (n + 1) s = .next t ∧ t.port = .idle ∧ t.fault = .none)

/-! ### Faults -/

/-- 60_exceptions.md R174: `gate()` is the first step of the eight gated operations: with `PS` not ON each raises
NOT_POWERED and emits nothing; `resume` and `suspend` have no gate. That NOT_POWERED comes before a host move already due is the
model's choice (log entry 24). -/
def Obligations.GateStopsUnpoweredOperations : Prop :=
  (∀ (i : Instr) (s : State), isGated i = true → i.wellFormed = true → s.fault = .none → s.ps ≠ .on →
    exec i s = .next { s with
      fault := .notPowered, port := .idle
      faultHistory := s.faultHistory ++ [⟨.notPowered, s.opIndex, latchedWords s.port, none⟩] }) ∧
  (∀ (i : Instr) (s t : State), isGated i = false → s.fault ≠ .notPowered → exec i s = .next t →
    t.fault ≠ .notPowered)

/-- 60_exceptions.md R178, the priority of faults on one issue: a stopped PFPS has no step; then OVERLAP; then ILLEGAL_OP,
even unpowered; then NOT_POWERED, even for an overflowing buffer; then ADDR_OVERFLOW, even where a role cannot be driven; then
CONFIG_HAZARD at the first access that cannot be made. That a stopped PFPS ends the run with `Fault.stopped` is the model's
choice (log entry 7), and so are the first two clauses for a list of the wrong length (log entry 10), and that NOT_POWERED and
ADDR_OVERFLOW come before a host move already due (log entry 24). -/
def Obligations.FaultPriority : Prop :=
  (∀ (s : State) (words : List Word) (rest : List HostMove), s.fault ≠ .none →
    s.agenda = ⟨.afterSteps 0, .issue words⟩ :: rest → step s = .fault (.stopped s.fault)) ∧
  (∀ (s : State) (words : List Word) (rest : List HostMove), s.fault = .none → s.port ≠ .idle →
    s.agenda = ⟨.afterSteps 0, .issue words⟩ :: rest → ∃ t, step s = .next t ∧ t.fault = .overlap) ∧
  (∀ (s : State) (w : Word) (operands : List Word), operands.length = operandCount (w.extractLsb' 0 4) →
    issuesNext s (w :: operands) → illegalWord w → ∃ t, step s = .next t ∧ t.fault = .illegalOp) ∧
  (∀ (s : State) (idx : Byte) (buf len : Word) (sel : Sel),
    issuesNext s (encode (.sendIndexedBuffer idx buf len sel)) → buf.toNat + len.toNat > 2 ^ 32 →
    ∃ t, step s = .next t ∧ t.trace = s.trace ∧
      t.fault = (if s.ps = .on then .addrOverflow else .notPowered)) ∧
  (∀ (i : Instr) (s : State), isGated i = true → i.wellFormed = true → s.fault = .none → s.ps ≠ .on →
    ∃ t, exec i s = .next t ∧ t.fault = .notPowered) ∧
  (∀ (s : State) (idx : Byte) (buf len : Word) (sel : Sel), startable s → s.ps = .on →
    buf.toNat + len.toNat ≤ 2 ^ 32 → (canDrive s .dc = false ∨ canDrive s .csM = false) →
    ∃ t, exec (.sendIndexedBuffer idx buf len sel) s = .next t ∧ t.fault = .configHazard ∧
      addsEvents s t (if canDrive s .dc = true then [.pinWrite s.cfg.dc .low] else []))

/-- 60_exceptions.md R171, the effect of a fault, whichever step raises it: `FAULT` was NONE, the port goes IDLE, `PS` keeps its
value, the events before it stand with their effects on the pin bank, one record is made, and a later issue has no step (log
entries 7 and 10). -/
def Obligations.FaultEffect : Prop :=
  ∀ s t : State, PortConsistent s → step s = .next t → t.fault ≠ s.fault →
    s.fault = .none ∧ t.port = .idle ∧ t.ps = s.ps ∧
    (∃ new, addsEvents s t new ∧
      ∀ p, p ≠ NC → pinCell t p = cellAfter p (pinCell s p) (new.map showEvent)) ∧
    (∃ r, t.faultHistory = s.faultHistory ++ [r] ∧ r.code = t.fault ∧ r.opIndex = t.opIndex ∧
      (r.site.isSome = true ↔ r.code = .configHazard)) ∧
    (∀ (tm : Timing) (words : List Word) (rest : List HostMove),
      step { t with agenda := ⟨tm, .issue words⟩ :: rest } = .fault (.stopped t.fault))

/-- 10_state.md R32: `FAULT` is NONE at reset, is written only when it holds NONE, and nothing clears it. -/
def Obligations.FaultRegisterIsSticky : Prop :=
  (∀ c, (State.launch c).fault = .none) ∧
  ∀ s t : State, step s = .next t → s.fault ≠ .none → t.fault = s.fault

/-! ### What an operation leaves unchanged -/

/-- The frame of the framer operations, whatever happens to one (40_framing.md, introduction; 10_state.md R29): `PS`, every
pin's mode, every pin but DC and the chip-selects, host memory, the configuration, `opIndex`, the level inputs and what the
host was handed stay; a recorded fault stays; only `sendIndexedBuffer` adds to the memory-request history. -/
def Obligations.FramerOperationsFrame : Prop :=
  ∀ (i : Instr) (s t : State), isFramer i = true → exec i s = .next t →
    t.ps = s.ps ∧ (∀ p, p ≠ NC → (pinCell t p).mode = (pinCell s p).mode) ∧
    (∀ p, p ≠ NC → p ≠ s.cfg.dc → p ≠ s.cfg.csM → p ≠ s.cfg.csS → pinCell t p = pinCell s p) ∧
    (∀ a, memRead t a = memRead s a) ∧ t.cfg = s.cfg ∧ t.opIndex = s.opIndex ∧ t.hostReads = s.hostReads ∧
    t.levelInputs = s.levelInputs ∧ t.levelDraws = s.levelDraws ∧ (s.fault ≠ .none → t.fault = s.fault) ∧
    ((∀ idx buf len sel, i ≠ .sendIndexedBuffer idx buf len sel) → t.memHistory = s.memHistory)

/-- The frame of the power sequencer operations (41_lifecycle.md, introduction; 10_state.md R29): only `resume` writes
modes; `suspend` touches the rail only, `resetSequence` the reset line and `csM` only, `waitBusy` no pin; only `resume` and
`suspend` write `PS`; none reads or changes host memory, transfers a byte, or changes the configuration. -/
def Obligations.PowerSequencerFrame : Prop :=
  ∀ (i : Instr) (s t : State), isFramer i = false → exec i s = .next t →
    (i ≠ .resume → ∀ p, p ≠ NC → (pinCell t p).mode = (pinCell s p).mode) ∧
    (i = .suspend → ∀ p, p ≠ NC → p ≠ s.cfg.rail → pinCell t p = pinCell s p) ∧
    (∀ d1 d2 d3 d4 d5, i = .resetSequence d1 d2 d3 d4 d5 →
      ∀ p, p ≠ NC → p ≠ s.cfg.reset → p ≠ s.cfg.csM → pinCell t p = pinCell s p) ∧
    (∀ lvl, i = .waitBusy lvl → t.pins = s.pins) ∧
    (i = .resume → ∀ p, p ≠ NC → (∀ r, pinOf s.cfg r ≠ p) → (∀ x ∈ s.cfg.extPins, x.pin ≠ p) →
      pinCell t p = pinCell s p) ∧
    (isGated i = true → t.ps = s.ps) ∧
    ((∀ lvl, i ≠ .waitBusy lvl) → t.levelInputs = s.levelInputs ∧ t.levelDraws = s.levelDraws) ∧
    (∀ a, memRead t a = memRead s a) ∧ t.memHistory = s.memHistory ∧ t.byteInputs = s.byteInputs ∧
    t.byteDraws = s.byteDraws ∧ t.cfg = s.cfg ∧ t.opIndex = s.opIndex ∧ t.hostReads = s.hostReads ∧
    (s.fault ≠ .none → t.fault = s.fault)

/-- 10_state.md R29: the line the PFPS drives on a pin is its latch where the mode is OUTPUT, UNDEF or not, and none otherwise;
`suspend` changes no mode, so outside the rail every line is driven after it as before; nothing but `resume` writes a mode,
neither as an operation nor in the middle of one. -/
def Obligations.LineState : Prop :=
  (∀ (s : State) (p : PinId), p ≠ NC → lineDriven (pinCell s p) =
    (if (pinCell s p).mode = .output then some (pinCell s p).level else none)) ∧
  (∀ s t : State, exec .suspend s = .next t → ∀ p, p ≠ NC →
    (pinCell t p).mode = (pinCell s p).mode ∧
    (p ≠ s.cfg.rail → lineDriven (pinCell t p) = lineDriven (pinCell s p))) ∧
  (∀ (i : Instr) (s t : State), i ≠ .resume → exec i s = .next t →
    ∀ p, p ≠ NC → (pinCell t p).mode = (pinCell s p).mode) ∧
  (∀ (s t : State) (p : PinId), PortConsistent s → step s = .next t → p ≠ NC →
    (pinCell t p).mode ≠ (pinCell s p).mode →
    ∃ words, decode words = .ok .resume ∧ (issuesNext s words ∨ ∃ todo, s.port = .executing words todo))

/-- 20_memory.md R66: no operation writes host memory, and a step changes it only where the host writes a byte or the platform
refuses an address. The host's write, of a byte already there too, leaves the latched operation as it is; that the byte then
reads as written is the model's choice (log entry 6), that a write of the buffer in flight is refused is log entry 11, and the
platform's refusal as a move of its own is log entry 20. -/
def Obligations.OnlyTheHostWritesHostMemory : Prop :=
  (∀ (i : Instr) (s t : State), exec i s = .next t → ∀ a, memRead t a = memRead s a) ∧
  (∀ s t : State, step s = .next t →
    (∀ a, memRead t a = memRead s a) ∨
    (∃ a b rest tm, s.agenda = ⟨tm, .memWrite a b⟩ :: rest ∧ memRead t a.toNat = some b ∧
      (∀ a', a' ≠ a.toNat → memRead t a' = memRead s a') ∧ t.port = s.port) ∨
    (∃ a rest tm, s.agenda = ⟨tm, .memRefuse a⟩ :: rest ∧
      (Canonical s → ∀ a', memRead t a' = if a' = a.toNat then none else memRead s a'))) ∧
  (∀ (s : State) (tm : Timing) (a : Word) (b : Byte) (rest : List HostMove), hostsTurn s →
    s.agenda = ⟨tm, .memWrite a b⟩ :: rest →
    (inBufferInFlight s a.toNat = true → step s = .refused (.bufferWrittenInFlight a.toNat)) ∧
    (inBufferInFlight s a.toNat = false →
      ∃ t, step s = .next t ∧ t.port = s.port ∧ memRead t a.toNat = some b ∧
        ∀ a', a' ≠ a.toNat → memRead t a' = memRead s a')) ∧
  (∀ (s : State) (tm : Timing) (a : Word) (rest : List HostMove), hostsTurn s → Canonical s →
    s.agenda = ⟨tm, .memRefuse a⟩ :: rest →
    ∃ t, step s = .next t ∧ t.port = s.port ∧
      ∀ a', memRead t a' = if a' = a.toNat then none else memRead s a')

/-- 10_state.md R24: two roles on one physical pin share its one cell: a write through either is seen through both, and the
later write wins. -/
def Obligations.SharedPinsHaveOneCell : Prop :=
  ∀ (s t u : State) (r r' : Role) (v v' : Level), pinOf s.cfg r = pinOf s.cfg r' → drive r v s = some t →
    drive r' v' t = some u →
    (pinCell t (pinOf s.cfg r')).level = latchOf v ∧ (pinCell u (pinOf s.cfg r)).level = latchOf v' ∧
    pinCell u (pinOf s.cfg r) = pinCell u (pinOf s.cfg r')

/-! ### Laws of the operations -/

/-- 40_framing.md R114, for every framer operation on every operand: (a) off LARGE no event names the slave's pin unless it
is shared; (b) on LARGE a completed frame that is not SINGLE ends with both chip-selects HIGH; (c) a completed frame other than
`sendCommand` ends with DC HIGH; (d) it transfers one byte more than it has data bytes. -/
def Obligations.FramerLaws : Prop :=
  (∀ (i : Instr) (s t : State), isFramer i = true → s.cfg.family ≠ .large → exec i s = .next t →
    s.cfg.csS ≠ s.cfg.dc → s.cfg.csS ≠ s.cfg.csM →
    ∃ new, addsEvents s t new ∧ ∀ e ∈ new, touchedPin (showEvent e) ≠ some s.cfg.csS) ∧
  (∀ (s t : State) (idx dat : Byte) (count buf len : Word) (sel : Sel) (i : Instr), startable s →
    (i = .sendCommandWithByteSelect idx dat sel ∧ sel ≠ .omitted ∨ i = .sendFixedValueRun idx dat count sel ∨
      i = .sendIndexedBuffer idx buf len sel) →
    s.cfg.family = .large → exec i s = .next t → t.port = .idle → t.fault = .none →
    (pinCell t s.cfg.csM).level = .high ∧ (s.cfg.csS ≠ NC → (pinCell t s.cfg.csS).level = .high)) ∧
  (∀ (s t : State) (idx dat : Byte) (count buf len : Word) (sel : Sel) (i : Instr), startable s →
    (i = .sendCommandWithByte idx dat ∨ i = .sendCommandWithByteSelect idx dat sel ∧ sel ≠ .omitted ∨
      i = .sendFixedValueRun idx dat count sel ∨ i = .sendIndexedBuffer idx buf len sel) →
    exec i s = .next t → t.port = .idle → t.fault = .none → (pinCell t s.cfg.dc).level = .high) ∧
  (∀ (s t : State) (idx dat : Byte) (count buf len : Word) (sel : Sel) (i : Instr) (n : Nat), startable s →
    (i = .sendCommand idx ∧ n = 0 ∨ i = .sendCommandWithByte idx dat ∧ n = 1 ∨
      i = .sendCommandWithByteSelect idx dat sel ∧ sel ≠ .omitted ∧ n = 1 ∨
      i = .sendFixedValueRun idx dat count sel ∧ n = count.toNat ∨
      i = .sendIndexedBuffer idx buf len sel ∧ n = len.toNat) →
    exec i s = .next t → t.port = .idle → t.fault = .none →
    ∃ new, addsEvents s t new ∧ countXfers (new.map showEvent) = 1 + n)

/-- 41_lifecycle.md R143: no event of `resume` names a pin that is not connected; every pin it names is a role's or an
extension pin's. -/
def Obligations.ResumeNamesConnectedPinsOnly : Prop :=
  ∀ s t : State, exec .resume s = .next t →
    ∃ new, addsEvents s t new ∧ ∀ e ∈ new, ∀ p, touchedPin (showEvent e) = some p →
      p ≠ NC ∧ ((∃ r, pinOf s.cfg r = p) ∨ ∃ x ∈ s.cfg.extPins, x.pin = p)

/-- 41_lifecycle.md R144: a `resume` in ON emits no event and changes no state; so a second `resume` after a completed one
changes nothing. That it completes before a host move already due is the model's choice (log entry 24). -/
def Obligations.ResumeIsIdempotent : Prop :=
  (∀ s : State, s.ps = .on → exec .resume s = .next { s with port := .idle }) ∧
  (∀ s t : State, exec .resume s = .next t → t.port = .idle → exec .resume t = .next t)

/-- 41_lifecycle.md R146: a `suspend` in SLEEP or OFF emits no event; a second `suspend` after a completed one emits none and
changes nothing; so the two together write the rail at most once, whatever state the first one starts from. That a `suspend` without an event
completes before a host move already due is the model's choice (log entry 24). -/
def Obligations.SuspendIsIdempotent : Prop :=
  (∀ s : State, s.ps ≠ .on → exec .suspend s = .next { s with ps := .sleep, port := .idle }) ∧
  (∀ s t : State, s.fault = .none → exec .suspend s = .next t → t.port = .idle → t.fault = .none →
    exec .suspend t = .next t) ∧
  (∀ s t u : State, s.fault = .none → exec .suspend s = .next t → t.port = .idle → t.fault = .none →
    exec .suspend t = .next u →
    ∃ new, addsEvents s u new ∧
      ((new.map showEvent).filter fun e => touchedPin e = some s.cfg.rail).length ≤ 1)

/-- 41_lifecycle.md R147: in `resume; suspend; resume` from OFF or SLEEP, where `suspend` raised no fault, the two resumes emit
the same events, those of the full configuration sequence, so their pin-touch sets are the same. -/
def Obligations.SuspendResumeRoundTrip : Prop :=
  ∀ s a b c : State, startable s → s.ps ≠ .on → exec .resume s = .next a → exec .suspend a = .next b →
    b.fault = .none → exec .resume b = .next c →
    b.ps = .sleep ∧ c.ps = .on ∧
    ∃ new, addsEvents s a new ∧ addsEvents b c new ∧ new.map showEvent = shownConfiguration s.cfg

/-- 70_reset_and_hazards.md R212: the sums of the delays a completed operation emits, for either value of `SETTLE_PER_BYTE`,
with `d` = `delayCS` and `t` = `T_SELECT_SETTLE`. -/
def Obligations.DelaySums : Prop :=
  (∀ (s u : State) (idx dat : Byte) (count buf len d1 d2 d3 d4 d5 : Word) (sel : Sel) (i : Instr) (us ms : Nat),
    startable s → exec i s = .next u → u.port = .idle → u.fault = .none →
    (i = .sendCommand idx ∧ us = 2 * s.cfg.delayCS.toNat ∧ ms = 0 ∨
     i = .sendCommandWithByte idx dat ∧ us = 4 * s.cfg.delayCS.toNat ∧ ms = 0 ∨
     (i = .sendCommandWithByteSelect idx dat sel ∧ sel ≠ .omitted ∧ ms = 0 ∧
       us = (if s.cfg.family = .large then s.cfg.tSelectSettle.toNat + 3 * s.cfg.delayCS.toNat
             else 4 * s.cfg.delayCS.toNat)) ∨
     (i = .sendFixedValueRun idx dat count sel ∧ ms = 0 ∧
       us = (if s.cfg.family = .large then s.cfg.tSelectSettle.toNat else s.cfg.delayCS.toNat) + s.cfg.delayCS.toNat +
         (if s.cfg.settlePerByte = true then 2 * count.toNat else 2) * s.cfg.delayCS.toNat) ∨
     (i = .sendIndexedBuffer idx buf len sel ∧ ms = 0 ∧
       us = (if s.cfg.family = .large then s.cfg.tSelectSettle.toNat else s.cfg.delayCS.toNat) + s.cfg.delayCS.toNat +
         (if s.cfg.settlePerByte = true then 2 * len.toNat else 2) * s.cfg.delayCS.toNat +
         (if s.cfg.family = .large ∧ sel = .omitted then 450 else 0)) ∨
     i = .selectPanelHalf sel ∧ sel ≠ .omitted ∧ us = s.cfg.tSelectSettle.toNat ∧ ms = 0 ∨
     (i = .resume ∨ i = .suspend) ∧ us = 0 ∧ ms = 0 ∨
     i = .resetSequence d1 d2 d3 d4 d5 ∧ us = 0 ∧
       ms = d1.toNat + d2.toNat + d3.toNat + d4.toNat + d5.toNat) →
    ∃ new, addsEvents s u new ∧ sumUs (new.map showEvent) = us ∧ sumMs (new.map showEvent) = ms) ∧
  (∀ (s : State) (lvl v : Level) (n : Nat) (rest : List Level), polling s lvl → v ≠ lvl →
    s.levelInputs = List.replicate n v ++ lvl :: rest →
    ∃ t new, Sys2Proof.core.run (n + 1) s = .next t ∧ addsEvents s t new ∧
      sumUs (new.map showEvent) = 0 ∧ sumMs (new.map showEvent) = 32 * n)

/-! ### Invariants of every step -/

/-- The launch state meets every invariant below, for every configuration (10_state.md R40). -/
def Obligations.LaunchMeetsTheInvariants : Prop :=
  ∀ c, Canonical (State.launch c) ∧ BankIsReplayOfTrace (State.launch c) ∧ PortConsistent (State.launch c) ∧
    FaultConsistent (State.launch c)

/-- Every step keeps host memory and the pin bank in canonical form (log entries 6 and 15). -/
def Obligations.StepKeepsCanonicalForm : Prop :=
  ∀ s t : State, Canonical s → step s = .next t → Canonical t

/-- Every step keeps the pin bank equal to what the trace made of it (10_state.md R28, 20_memory.md R52): no level or mode
changes without its event, and no event is without its effect. -/
def Obligations.StepKeepsBankReplayOfTrace : Prop :=
  ∀ s t : State, BankIsReplayOfTrace s → step s = .next t → BankIsReplayOfTrace t

/-- Every step keeps the port consistent: what is in flight is a rest of the latched operation's own sequence, and a gated
operation is in flight only while `PS` is ON (10_state.md R33, 60_exceptions.md R174). -/
def Obligations.StepKeepsPortConsistent : Prop :=
  ∀ s t : State, PortConsistent s → step s = .next t → PortConsistent t

/-- Every step keeps `FAULT`, its history and the port in agreement: at most one fault is ever recorded (60_exceptions.md
R171, R173). -/
def Obligations.StepKeepsFaultConsistent : Prop :=
  ∀ s t : State, FaultConsistent s → step s = .next t → FaultConsistent t

/-- 20_memory.md R52: the trace is append-only; so are the memory-request history and the fault history. -/
def Obligations.HistoriesAreAppendOnly : Prop :=
  ∀ s t : State, step s = .next t →
    s.trace <+: t.trace ∧ s.memHistory <+: t.memHistory ∧ s.faultHistory <+: t.faultHistory

/-- The source's own invariant (60_exceptions.md R174): "bus transfers must only be attempted while GPIO is configured". A
step that transfers a byte or reads a pin starts with `PS` ON, in every state whose port is consistent. -/
def Obligations.BusIsUsedOnlyWhileOn : Prop :=
  ∀ (s t : State) (new : List Event), PortConsistent s → step s = .next t → addsEvents s t new →
    (∀ e ∈ new, (∀ p v, e ≠ .pinRead p v) ∧ ∀ b r, e ≠ .xfer b r) ∨ s.ps = .on

/-- 20_memory.md R58: the byte a transfer returns is recorded in its event and nowhere else. Whatever bytes the environment
returns, the step ends the same way and in the same state, but for those records. -/
def Obligations.ReceivedBytesNeverMatter : Prop :=
  ∀ (s : State) (bytes : List Byte) (n : Nat),
    outcomeMap hideReceived (step { s with byteInputs := bytes, byteDraws := n }) =
      outcomeMap hideReceived (step s)

/-- 60_exceptions.md R193: the sequencer executes one step per event, or per poll turn: for a host that looks after one step,
an operation in flight adds at most one event, or a missed poll's read and delay. -/
def Obligations.SequencerMovesOneEventAtATime : Prop :=
  ∀ (s t : State) (words : List Word) (todo : List Micro) (act : HostAction) (rest : List HostMove),
    s.port = .executing words todo → s.agenda = ⟨.afterSteps 1, act⟩ :: rest → step s = .next t →
    ∃ new, addsEvents s t new ∧
      (new.length ≤ 1 ∨ ∃ p v, new = [.pinRead p v, .delayMs 32#32])

/-- The length of the model's steps does not matter (60_exceptions.md R193; log entry 4): for an operation in flight other
than the poll loop, going on for `n + 1` steps of the sequencer is going on for one and then for `n`. -/
def Obligations.LongStepsAreSingleStepsComposed : Prop :=
  ∀ (s : State) (words : List Word) (todo : List Micro) (act : HostAction) (rest : List HostMove) (n : Nat),
    s.port = .executing words todo → (∀ m ∈ todo, ∀ lvl, m ≠ .poll lvl) → waitsForRead todo s = none →
    s.agenda = ⟨.afterSteps (n + 1), act⟩ :: rest →
    ∃ u, step (withHostTiming (.afterSteps 1) s) = .next u ∧
      ((u.port = .idle ∧ ∃ m, step s = .next (withHostTiming (.afterSteps m) u)) ∨
       (∃ todo' m, u.port = .executing words todo' ∧
         (n = 0 ∨ (waitsForRead todo' u).isSome = true) ∧ step s = .next (withHostTiming (.afterSteps m) u)) ∨
       (n ≠ 0 ∧ u.port ≠ .idle ∧ step s = step (withHostTiming (.afterSteps n) u)))

/-- What a counting host interrupts is the very operation a waiting host would see (60_exceptions.md R193; log entry 4). An
operation, or its going on from any point, that pauses under a counting host has either done all a waiting host would see it do
in that step, or it pauses where the host's move is due, and going on from there for a waiting host gives exactly what the
waiting host would have seen from the start: the events emitted so far and those that are left are the operation's own, none
lost and none added. -/
def Obligations.CountingHostsSeeTheWaitingHostsOperation : Prop :=
  (∀ (i : Instr) (s t : State), exec i s = .next t →
    exec i (waiting s) = .next (waiting t) ∨
    (t.port ≠ .idle ∧ hostDue t = true ∧ exec i (waiting s) = step (waiting t))) ∧
  (∀ (s t : State) (words : List Word) (todo : List Micro), s.port = .executing words todo → hostDue s = false →
    waitsForRead todo s = none → step s = .next t →
    step (waiting s) = .next (waiting t) ∨
    (t.port ≠ .idle ∧ hostDue t = true ∧ step (waiting s) = step (waiting t)))

/-! ### The assembler -/

/-- 30_encoding.md R82: the line that spells a well-formed operation assembles to it. -/
def Obligations.SpelledOperationsAssemble : Prop :=
  ∀ i : Instr, i.wellFormed = true → assemble i.opcode (spell i) = some i

/-- 30_encoding.md R82: what an assembler accepts, and what it refuses. A line assembles to an operation exactly when the
operation is well-formed, of the line's mnemonic, and the line's operands are, one by one, those that spell it: every number,
decimal or hex, has the value of its field, every selector and level its name, and an optional selector left out is OMITTED. So
the words of an accepted line decode to that operation, and a number that does not fit its field, at any place of any line, is
refused. -/
def Obligations.AssemblerRefusesWhatDoesNotFit : Prop :=
  (∀ (o : Opcode) (ops : List AsmOperand) (i : Instr),
    assemble o ops = some i ↔ i.wellFormed = true ∧ i.opcode = o ∧ List.Forall₂ sameOperand ops (spell i)) ∧
  (∀ (o : Opcode) (ops : List AsmOperand) (i : Instr), assemble o ops = some i → decode (encode i) = .ok i) ∧
  (∀ (o : Opcode) (ops : List AsmOperand) (k w : Nat) (n : Numeral), (numericWidths o)[k]? = some w →
    ops[k]? = some (.num n) → numeralValue n ≥ 2 ^ w → assemble o ops = none)

/-! ### The end of a run -/

/-- 60_exceptions.md R194: a run has completed when no issue is left, the port is IDLE and `FAULT` is NONE, whatever register and
memory moves the host still has to make; and then it is over: every further step answers a next state, the run stays completed,
and `PS`, the pin bank, `FAULT`, the trace and `opIndex` stay as they are. This second clause is the model's where no host move is
left: no rule gives a step there, and that it answers the same state is the model's choice (log entry 8). -/
def Obligations.CompletedRunsAreOver : Prop :=
  (∀ s : State, runCompleted s = true ↔
    (∀ mv ∈ s.agenda, ∀ words, mv.action ≠ .issue words) ∧ s.port = .idle ∧ s.fault = .none) ∧
  (∀ s : State, runCompleted s = true → ∃ t, step s = .next t ∧ runCompleted t = true ∧
    t.ps = s.ps ∧ t.pins = s.pins ∧ t.fault = .none ∧ t.trace = s.trace ∧ t.opIndex = s.opIndex)
end

