-- ==== Sys2Proof/Laws/Decode.lean ====
section
/-! SUPPORT. The fields of an operation word: each reads back from the word it was put into, and a word with its reserved fields
zero is made of its fields (spec/30_encoding.md R71, R79). -/

namespace Sys2Proof

variable (dat idx : Byte) (lvl : BitVec 1) (sel : BitVec 2) (op : BitVec 4)

@[simp] theorem opField_opWord : opField (opWord dat idx lvl sel op) = op := by
  apply BitVec.eq_of_getLsbD_eq
  intro i hi
  simp [opField, opWord, hi, show i < 32 by omega]
  intro h; omega

@[simp] theorem selField_opWord : selField (opWord dat idx lvl sel op) = sel := by
  apply BitVec.eq_of_getLsbD_eq
  intro i hi
  simp [selField, opWord, hi, show 4 + i < 32 by omega]
  omega

@[simp] theorem lvlField_opWord : lvlField (opWord dat idx lvl sel op) = lvl := by
  apply BitVec.eq_of_getLsbD_eq
  intro i hi
  obtain rfl : i = 0 := by omega
  simp [lvlField, opWord]

@[simp] theorem reservedBit_opWord : reservedBit (opWord dat idx lvl sel op) = 0#1 := by
  apply BitVec.eq_of_getLsbD_eq
  intro i hi
  obtain rfl : i = 0 := by omega
  simp [reservedBit, opWord]

@[simp] theorem idxField_opWord : idxField (opWord dat idx lvl sel op) = idx := by
  apply BitVec.eq_of_getLsbD_eq
  intro i hi
  simp [idxField, opWord, hi, show 8 + i < 32 by omega, show 8 + i < 16 by omega,
    op.getLsbD_of_ge (8 + i) (by omega), sel.getLsbD_of_ge (8 + i - 4) (by omega),
    lvl.getLsbD_of_ge (8 + i - 6) (by omega)]

@[simp] theorem datField_opWord : datField (opWord dat idx lvl sel op) = dat := by
  apply BitVec.eq_of_getLsbD_eq
  intro i hi
  simp [datField, opWord, hi, show 16 + i < 32 by omega,
    op.getLsbD_of_ge (16 + i) (by omega), sel.getLsbD_of_ge (16 + i - 4) (by omega),
    lvl.getLsbD_of_ge (16 + i - 6) (by omega), idx.getLsbD_of_ge (16 + i - 8) (by omega)]

@[simp] theorem reservedByte_opWord : reservedByte (opWord dat idx lvl sel op) = 0#8 := by
  apply BitVec.eq_of_getLsbD_eq
  intro i hi
  simp [reservedByte, opWord, hi, show 24 + i < 32 by omega,
    op.getLsbD_of_ge (24 + i) (by omega), sel.getLsbD_of_ge (24 + i - 4) (by omega),
    lvl.getLsbD_of_ge (24 + i - 6) (by omega), idx.getLsbD_of_ge (24 + i - 8) (by omega),
    dat.getLsbD_of_ge (24 + i - 16) (by omega)]

/-- A word whose reserved fields are zero is made of its fields. -/
theorem opWord_of_fields (w : Word) (h7 : reservedBit w = 0#1) (h8 : reservedByte w = 0#8) :
    opWord (datField w) (idxField w) (lvlField w) (selField w) (opField w) = w := by
  have e7 : w.getLsbD 7 = false := by
    have := congrArg (fun b => b.getLsbD 0) h7
    simpa [reservedBit, BitVec.getLsbD_eq_getElem] using this
  have e8 : ∀ i, 24 ≤ i → i < 32 → w.getLsbD i = false := by
    intro i h1 h2
    have := congrArg (fun b => b.getLsbD (i - 24)) h8
    simpa [reservedByte, show i - 24 < 8 by omega, show 24 + (i - 24) = i by omega] using this
  apply BitVec.eq_of_getLsbD_eq
  intro i hi
  have cases : i < 4 ∨ (4 ≤ i ∧ i < 6) ∨ i = 6 ∨ i = 7 ∨ (8 ≤ i ∧ i < 16) ∨ (16 ≤ i ∧ i < 24) ∨
      (24 ≤ i ∧ i < 32) := by omega
  simp only [opWord, datField, idxField, lvlField, selField, opField, BitVec.getLsbD_or, BitVec.getLsbD_shiftLeft,
    BitVec.getLsbD_setWidth, BitVec.getLsbD_extractLsb', hi]
  rcases cases with h | h | rfl | rfl | h | h | h
  · simp [h, show i < 16 by omega, show i < 8 by omega, show i < 6 by omega]
  · have h4 : 4 + (i - 4) = i := by omega
    have h6 : i - 4 < 2 := by omega
    simp [h4, h6, h, show i < 16 by omega, show i < 8 by omega, show ¬ i < 4 by omega, show i - 4 < 32 by omega]
  · simp
  · simpa using e7
  · have h4 : 8 + (i - 8) = i := by omega
    have h6 : i - 8 < 8 := by omega
    simp [h4, h6, show i < 16 by omega, show ¬ i < 8 by omega, show ¬ i < 4 by omega, show ¬ i - 6 < 1 by omega,
      show ¬ i - 4 < 2 by omega, show i - 8 < 32 by omega]
  · have h4 : 16 + (i - 16) = i := by omega
    have h6 : i - 16 < 8 := by omega
    simp [h4, h6, show ¬ i < 16 by omega, show ¬ i < 4 by omega, show ¬ i - 6 < 1 by omega,
      show ¬ i - 4 < 2 by omega, show ¬ i - 8 < 8 by omega, show i - 16 < 32 by omega]
  · have h4 : ¬ i - 16 < 8 := by omega
    simp [h4, e8 i h.1 h.2, show ¬ i < 4 by omega, show ¬ i - 6 < 1 by omega,
      show ¬ i - 4 < 2 by omega, show ¬ i - 8 < 8 by omega]

@[simp] theorem selOfCode_code (s : Sel) : selOfCode s.code = s := by cases s <;> rfl

@[simp] theorem code_selOfCode (b : BitVec 2) : (selOfCode b).code = b := by revert b; decide

@[simp] theorem levelOfCode_code (l : Level) : levelOfCode l.code = l := by cases l <;> rfl

@[simp] theorem code_levelOfCode (b : BitVec 1) : (levelOfCode b).code = b := by revert b; decide

/-- The opcode map and the OP codes are inverse to each other (R74). -/
@[simp] theorem opMap_code (o : Opcode) : opMap o.code = some o := by cases o <;> rfl

theorem code_of_opMap (b : BitVec 4) (o : Opcode) (h : opMap b = some o) : b = o.code := by
  revert h
  cases o <;> revert b <;> decide

end Sys2Proof
end

