-- ==== Sys2Proof/Laws/State.lean ====
section
/-! SUPPORT. One lemma per field per update of the state: what each named update leaves as it was, and what it writes. -/

namespace Sys2Proof.Machine

/-! ### `emit` -/

@[simp] theorem emit_cfg (e : Event) (s : State) : (emit e s).cfg = s.cfg := rfl
@[simp] theorem emit_ps (e : Event) (s : State) : (emit e s).ps = s.ps := rfl
@[simp] theorem emit_pins (e : Event) (s : State) : (emit e s).pins = s.pins := rfl
@[simp] theorem emit_fault (e : Event) (s : State) : (emit e s).fault = s.fault := rfl
@[simp] theorem emit_port (e : Event) (s : State) : (emit e s).port = s.port := rfl
@[simp] theorem emit_opIndex (e : Event) (s : State) : (emit e s).opIndex = s.opIndex := rfl
@[simp] theorem emit_memHistory (e : Event) (s : State) : (emit e s).memHistory = s.memHistory := rfl
@[simp] theorem emit_faultHistory (e : Event) (s : State) : (emit e s).faultHistory = s.faultHistory := rfl
@[simp] theorem emit_hostMem (e : Event) (s : State) : (emit e s).hostMem = s.hostMem := rfl
@[simp] theorem emit_levelInputs (e : Event) (s : State) : (emit e s).levelInputs = s.levelInputs := rfl
@[simp] theorem emit_byteInputs (e : Event) (s : State) : (emit e s).byteInputs = s.byteInputs := rfl
@[simp] theorem emit_levelDraws (e : Event) (s : State) : (emit e s).levelDraws = s.levelDraws := rfl
@[simp] theorem emit_byteDraws (e : Event) (s : State) : (emit e s).byteDraws = s.byteDraws := rfl
@[simp] theorem emit_agenda (e : Event) (s : State) : (emit e s).agenda = s.agenda := rfl
@[simp] theorem emit_hostReads (e : Event) (s : State) : (emit e s).hostReads = s.hostReads := rfl
@[simp] theorem emit_trace (e : Event) (s : State) : (emit e s).trace = s.trace ++ [e] := rfl

/-! ### `setPinCell` -/

@[simp] theorem setPinCell_cfg (p : PinId) (c : PinCell) (s : State) : (setPinCell p c s).cfg = s.cfg :=
  by unfold setPinCell; split <;> rfl
@[simp] theorem setPinCell_ps (p : PinId) (c : PinCell) (s : State) : (setPinCell p c s).ps = s.ps :=
  by unfold setPinCell; split <;> rfl
@[simp] theorem setPinCell_fault (p : PinId) (c : PinCell) (s : State) : (setPinCell p c s).fault = s.fault :=
  by unfold setPinCell; split <;> rfl
@[simp] theorem setPinCell_port (p : PinId) (c : PinCell) (s : State) : (setPinCell p c s).port = s.port :=
  by unfold setPinCell; split <;> rfl
@[simp] theorem setPinCell_opIndex (p : PinId) (c : PinCell) (s : State) : (setPinCell p c s).opIndex = s.opIndex :=
  by unfold setPinCell; split <;> rfl
@[simp] theorem setPinCell_trace (p : PinId) (c : PinCell) (s : State) : (setPinCell p c s).trace = s.trace :=
  by unfold setPinCell; split <;> rfl
@[simp] theorem setPinCell_memHistory (p : PinId) (c : PinCell) (s : State) :
    (setPinCell p c s).memHistory = s.memHistory :=
  by unfold setPinCell; split <;> rfl
@[simp] theorem setPinCell_faultHistory (p : PinId) (c : PinCell) (s : State) :
    (setPinCell p c s).faultHistory = s.faultHistory :=
  by unfold setPinCell; split <;> rfl
@[simp] theorem setPinCell_hostMem (p : PinId) (c : PinCell) (s : State) : (setPinCell p c s).hostMem = s.hostMem :=
  by unfold setPinCell; split <;> rfl
@[simp] theorem setPinCell_levelInputs (p : PinId) (c : PinCell) (s : State) :
    (setPinCell p c s).levelInputs = s.levelInputs :=
  by unfold setPinCell; split <;> rfl
@[simp] theorem setPinCell_byteInputs (p : PinId) (c : PinCell) (s : State) :
    (setPinCell p c s).byteInputs = s.byteInputs :=
  by unfold setPinCell; split <;> rfl
@[simp] theorem setPinCell_levelDraws (p : PinId) (c : PinCell) (s : State) :
    (setPinCell p c s).levelDraws = s.levelDraws :=
  by unfold setPinCell; split <;> rfl
@[simp] theorem setPinCell_byteDraws (p : PinId) (c : PinCell) (s : State) :
    (setPinCell p c s).byteDraws = s.byteDraws :=
  by unfold setPinCell; split <;> rfl
@[simp] theorem setPinCell_agenda (p : PinId) (c : PinCell) (s : State) : (setPinCell p c s).agenda = s.agenda :=
  by unfold setPinCell; split <;> rfl
@[simp] theorem setPinCell_hostReads (p : PinId) (c : PinCell) (s : State) :
    (setPinCell p c s).hostReads = s.hostReads :=
  by unfold setPinCell; split <;> rfl

/-! ### `doPinMode` -/

@[simp] theorem doPinMode_cfg (p : PinId) (m : Direction) (s : State) : (doPinMode p m s).cfg = s.cfg :=
  by simp [doPinMode]
@[simp] theorem doPinMode_ps (p : PinId) (m : Direction) (s : State) : (doPinMode p m s).ps = s.ps :=
  by simp [doPinMode]
@[simp] theorem doPinMode_fault (p : PinId) (m : Direction) (s : State) : (doPinMode p m s).fault = s.fault :=
  by simp [doPinMode]
@[simp] theorem doPinMode_port (p : PinId) (m : Direction) (s : State) : (doPinMode p m s).port = s.port :=
  by simp [doPinMode]
@[simp] theorem doPinMode_opIndex (p : PinId) (m : Direction) (s : State) : (doPinMode p m s).opIndex = s.opIndex :=
  by simp [doPinMode]
@[simp] theorem doPinMode_memHistory (p : PinId) (m : Direction) (s : State) :
    (doPinMode p m s).memHistory = s.memHistory :=
  by simp [doPinMode]
@[simp] theorem doPinMode_faultHistory (p : PinId) (m : Direction) (s : State) :
    (doPinMode p m s).faultHistory = s.faultHistory :=
  by simp [doPinMode]
@[simp] theorem doPinMode_hostMem (p : PinId) (m : Direction) (s : State) : (doPinMode p m s).hostMem = s.hostMem :=
  by simp [doPinMode]
@[simp] theorem doPinMode_levelInputs (p : PinId) (m : Direction) (s : State) :
    (doPinMode p m s).levelInputs = s.levelInputs :=
  by simp [doPinMode]
@[simp] theorem doPinMode_byteInputs (p : PinId) (m : Direction) (s : State) :
    (doPinMode p m s).byteInputs = s.byteInputs :=
  by simp [doPinMode]
@[simp] theorem doPinMode_levelDraws (p : PinId) (m : Direction) (s : State) :
    (doPinMode p m s).levelDraws = s.levelDraws :=
  by simp [doPinMode]
@[simp] theorem doPinMode_byteDraws (p : PinId) (m : Direction) (s : State) :
    (doPinMode p m s).byteDraws = s.byteDraws :=
  by simp [doPinMode]
@[simp] theorem doPinMode_agenda (p : PinId) (m : Direction) (s : State) : (doPinMode p m s).agenda = s.agenda :=
  by simp [doPinMode]
@[simp] theorem doPinMode_hostReads (p : PinId) (m : Direction) (s : State) :
    (doPinMode p m s).hostReads = s.hostReads :=
  by simp [doPinMode]
@[simp] theorem doPinMode_pins (p : PinId) (m : Direction) (s : State) :
    (doPinMode p m s).pins = (setPinCell p ⟨modeOf m, (pinCell s p).level⟩ s).pins :=
  rfl
@[simp] theorem doPinMode_trace (p : PinId) (m : Direction) (s : State) :
    (doPinMode p m s).trace = s.trace ++ [.pinMode p m] :=
  by simp [doPinMode]

/-! ### `doPinWrite` -/

@[simp] theorem doPinWrite_cfg (p : PinId) (v : Level) (s : State) : (doPinWrite p v s).cfg = s.cfg :=
  by simp [doPinWrite]
@[simp] theorem doPinWrite_ps (p : PinId) (v : Level) (s : State) : (doPinWrite p v s).ps = s.ps := by simp [doPinWrite]
@[simp] theorem doPinWrite_fault (p : PinId) (v : Level) (s : State) : (doPinWrite p v s).fault = s.fault :=
  by simp [doPinWrite]
@[simp] theorem doPinWrite_port (p : PinId) (v : Level) (s : State) : (doPinWrite p v s).port = s.port :=
  by simp [doPinWrite]
@[simp] theorem doPinWrite_opIndex (p : PinId) (v : Level) (s : State) : (doPinWrite p v s).opIndex = s.opIndex :=
  by simp [doPinWrite]
@[simp] theorem doPinWrite_memHistory (p : PinId) (v : Level) (s : State) :
    (doPinWrite p v s).memHistory = s.memHistory :=
  by simp [doPinWrite]
@[simp] theorem doPinWrite_faultHistory (p : PinId) (v : Level) (s : State) :
    (doPinWrite p v s).faultHistory = s.faultHistory :=
  by simp [doPinWrite]
@[simp] theorem doPinWrite_hostMem (p : PinId) (v : Level) (s : State) : (doPinWrite p v s).hostMem = s.hostMem :=
  by simp [doPinWrite]
@[simp] theorem doPinWrite_levelInputs (p : PinId) (v : Level) (s : State) :
    (doPinWrite p v s).levelInputs = s.levelInputs :=
  by simp [doPinWrite]
@[simp] theorem doPinWrite_byteInputs (p : PinId) (v : Level) (s : State) :
    (doPinWrite p v s).byteInputs = s.byteInputs :=
  by simp [doPinWrite]
@[simp] theorem doPinWrite_levelDraws (p : PinId) (v : Level) (s : State) :
    (doPinWrite p v s).levelDraws = s.levelDraws :=
  by simp [doPinWrite]
@[simp] theorem doPinWrite_byteDraws (p : PinId) (v : Level) (s : State) :
    (doPinWrite p v s).byteDraws = s.byteDraws :=
  by simp [doPinWrite]
@[simp] theorem doPinWrite_agenda (p : PinId) (v : Level) (s : State) : (doPinWrite p v s).agenda = s.agenda :=
  by simp [doPinWrite]
@[simp] theorem doPinWrite_hostReads (p : PinId) (v : Level) (s : State) :
    (doPinWrite p v s).hostReads = s.hostReads :=
  by simp [doPinWrite]
@[simp] theorem doPinWrite_pins (p : PinId) (v : Level) (s : State) :
    (doPinWrite p v s).pins = (setPinCell p ⟨(pinCell s p).mode, latchOf v⟩ s).pins :=
  rfl
@[simp] theorem doPinWrite_trace (p : PinId) (v : Level) (s : State) :
    (doPinWrite p v s).trace = s.trace ++ [.pinWrite p v] :=
  by simp [doPinWrite]

/-! ### Draws: only the drawn input or its counter changes -/

@[simp] theorem drawLevel_cfg (s : State) : (drawLevel s).2.cfg = s.cfg := by unfold drawLevel; split <;> rfl
@[simp] theorem drawLevel_ps (s : State) : (drawLevel s).2.ps = s.ps := by unfold drawLevel; split <;> rfl
@[simp] theorem drawLevel_pins (s : State) : (drawLevel s).2.pins = s.pins := by unfold drawLevel; split <;> rfl
@[simp] theorem drawLevel_fault (s : State) : (drawLevel s).2.fault = s.fault := by unfold drawLevel; split <;> rfl
@[simp] theorem drawLevel_port (s : State) : (drawLevel s).2.port = s.port := by unfold drawLevel; split <;> rfl
@[simp] theorem drawLevel_opIndex (s : State) : (drawLevel s).2.opIndex = s.opIndex :=
  by unfold drawLevel; split <;> rfl
@[simp] theorem drawLevel_trace (s : State) : (drawLevel s).2.trace = s.trace := by unfold drawLevel; split <;> rfl
@[simp] theorem drawLevel_memHistory (s : State) : (drawLevel s).2.memHistory = s.memHistory :=
  by unfold drawLevel; split <;> rfl
@[simp] theorem drawLevel_faultHistory (s : State) : (drawLevel s).2.faultHistory = s.faultHistory :=
  by unfold drawLevel; split <;> rfl
@[simp] theorem drawLevel_hostMem (s : State) : (drawLevel s).2.hostMem = s.hostMem :=
  by unfold drawLevel; split <;> rfl
@[simp] theorem drawLevel_byteInputs (s : State) : (drawLevel s).2.byteInputs = s.byteInputs :=
  by unfold drawLevel; split <;> rfl
@[simp] theorem drawLevel_byteDraws (s : State) : (drawLevel s).2.byteDraws = s.byteDraws :=
  by unfold drawLevel; split <;> rfl
@[simp] theorem drawLevel_agenda (s : State) : (drawLevel s).2.agenda = s.agenda := by unfold drawLevel; split <;> rfl
@[simp] theorem drawLevel_hostReads (s : State) : (drawLevel s).2.hostReads = s.hostReads :=
  by unfold drawLevel; split <;> rfl
@[simp] theorem drawByte_cfg (s : State) : (drawByte s).2.cfg = s.cfg := by unfold drawByte; split <;> rfl
@[simp] theorem drawByte_ps (s : State) : (drawByte s).2.ps = s.ps := by unfold drawByte; split <;> rfl
@[simp] theorem drawByte_pins (s : State) : (drawByte s).2.pins = s.pins := by unfold drawByte; split <;> rfl
@[simp] theorem drawByte_fault (s : State) : (drawByte s).2.fault = s.fault := by unfold drawByte; split <;> rfl
@[simp] theorem drawByte_port (s : State) : (drawByte s).2.port = s.port := by unfold drawByte; split <;> rfl
@[simp] theorem drawByte_opIndex (s : State) : (drawByte s).2.opIndex = s.opIndex := by unfold drawByte; split <;> rfl
@[simp] theorem drawByte_trace (s : State) : (drawByte s).2.trace = s.trace := by unfold drawByte; split <;> rfl
@[simp] theorem drawByte_memHistory (s : State) : (drawByte s).2.memHistory = s.memHistory :=
  by unfold drawByte; split <;> rfl
@[simp] theorem drawByte_faultHistory (s : State) : (drawByte s).2.faultHistory = s.faultHistory :=
  by unfold drawByte; split <;> rfl
@[simp] theorem drawByte_hostMem (s : State) : (drawByte s).2.hostMem = s.hostMem := by unfold drawByte; split <;> rfl
@[simp] theorem drawByte_levelInputs (s : State) : (drawByte s).2.levelInputs = s.levelInputs :=
  by unfold drawByte; split <;> rfl
@[simp] theorem drawByte_levelDraws (s : State) : (drawByte s).2.levelDraws = s.levelDraws :=
  by unfold drawByte; split <;> rfl
@[simp] theorem drawByte_agenda (s : State) : (drawByte s).2.agenda = s.agenda := by unfold drawByte; split <;> rfl
@[simp] theorem drawByte_hostReads (s : State) : (drawByte s).2.hostReads = s.hostReads :=
  by unfold drawByte; split <;> rfl

/-! ### `doXfer` -/

@[simp] theorem doXfer_cfg (b : Byte) (s : State) : (doXfer b s).cfg = s.cfg := by simp [doXfer]
@[simp] theorem doXfer_ps (b : Byte) (s : State) : (doXfer b s).ps = s.ps := by simp [doXfer]
@[simp] theorem doXfer_pins (b : Byte) (s : State) : (doXfer b s).pins = s.pins := by simp [doXfer]
@[simp] theorem doXfer_fault (b : Byte) (s : State) : (doXfer b s).fault = s.fault := by simp [doXfer]
@[simp] theorem doXfer_port (b : Byte) (s : State) : (doXfer b s).port = s.port := by simp [doXfer]
@[simp] theorem doXfer_opIndex (b : Byte) (s : State) : (doXfer b s).opIndex = s.opIndex := by simp [doXfer]
@[simp] theorem doXfer_memHistory (b : Byte) (s : State) : (doXfer b s).memHistory = s.memHistory := by simp [doXfer]
@[simp] theorem doXfer_faultHistory (b : Byte) (s : State) : (doXfer b s).faultHistory = s.faultHistory :=
  by simp [doXfer]
@[simp] theorem doXfer_hostMem (b : Byte) (s : State) : (doXfer b s).hostMem = s.hostMem := by simp [doXfer]
@[simp] theorem doXfer_levelInputs (b : Byte) (s : State) : (doXfer b s).levelInputs = s.levelInputs := by simp [doXfer]
@[simp] theorem doXfer_levelDraws (b : Byte) (s : State) : (doXfer b s).levelDraws = s.levelDraws := by simp [doXfer]
@[simp] theorem doXfer_agenda (b : Byte) (s : State) : (doXfer b s).agenda = s.agenda := by simp [doXfer]
@[simp] theorem doXfer_hostReads (b : Byte) (s : State) : (doXfer b s).hostReads = s.hostReads := by simp [doXfer]
@[simp] theorem doXfer_byteInputs (b : Byte) (s : State) : (doXfer b s).byteInputs = (drawByte s).2.byteInputs := rfl
@[simp] theorem doXfer_byteDraws (b : Byte) (s : State) : (doXfer b s).byteDraws = (drawByte s).2.byteDraws := rfl
@[simp] theorem doXfer_trace (b : Byte) (s : State) : (doXfer b s).trace = s.trace ++ [.xfer b (drawByte s).1] :=
  by simp [doXfer]

/-! ### `tick` -/

@[simp] theorem tick_cfg (s : State) : (tick s).cfg = s.cfg := by unfold tick; split <;> rfl
@[simp] theorem tick_ps (s : State) : (tick s).ps = s.ps := by unfold tick; split <;> rfl
@[simp] theorem tick_pins (s : State) : (tick s).pins = s.pins := by unfold tick; split <;> rfl
@[simp] theorem tick_fault (s : State) : (tick s).fault = s.fault := by unfold tick; split <;> rfl
@[simp] theorem tick_port (s : State) : (tick s).port = s.port := by unfold tick; split <;> rfl
@[simp] theorem tick_opIndex (s : State) : (tick s).opIndex = s.opIndex := by unfold tick; split <;> rfl
@[simp] theorem tick_trace (s : State) : (tick s).trace = s.trace := by unfold tick; split <;> rfl
@[simp] theorem tick_memHistory (s : State) : (tick s).memHistory = s.memHistory := by unfold tick; split <;> rfl
@[simp] theorem tick_faultHistory (s : State) : (tick s).faultHistory = s.faultHistory := by unfold tick; split <;> rfl
@[simp] theorem tick_hostMem (s : State) : (tick s).hostMem = s.hostMem := by unfold tick; split <;> rfl
@[simp] theorem tick_levelInputs (s : State) : (tick s).levelInputs = s.levelInputs := by unfold tick; split <;> rfl
@[simp] theorem tick_byteInputs (s : State) : (tick s).byteInputs = s.byteInputs := by unfold tick; split <;> rfl
@[simp] theorem tick_levelDraws (s : State) : (tick s).levelDraws = s.levelDraws := by unfold tick; split <;> rfl
@[simp] theorem tick_byteDraws (s : State) : (tick s).byteDraws = s.byteDraws := by unfold tick; split <;> rfl
@[simp] theorem tick_hostReads (s : State) : (tick s).hostReads = s.hostReads := by unfold tick; split <;> rfl

/-! ### `pauseAt` -/

@[simp] theorem pauseAt_cfg (todo : List Micro) (s : State) : (pauseAt todo s).cfg = s.cfg := rfl
@[simp] theorem pauseAt_ps (todo : List Micro) (s : State) : (pauseAt todo s).ps = s.ps := rfl
@[simp] theorem pauseAt_pins (todo : List Micro) (s : State) : (pauseAt todo s).pins = s.pins := rfl
@[simp] theorem pauseAt_fault (todo : List Micro) (s : State) : (pauseAt todo s).fault = s.fault := rfl
@[simp] theorem pauseAt_opIndex (todo : List Micro) (s : State) : (pauseAt todo s).opIndex = s.opIndex := rfl
@[simp] theorem pauseAt_trace (todo : List Micro) (s : State) : (pauseAt todo s).trace = s.trace := rfl
@[simp] theorem pauseAt_memHistory (todo : List Micro) (s : State) : (pauseAt todo s).memHistory = s.memHistory := rfl
@[simp] theorem pauseAt_faultHistory (todo : List Micro) (s : State) :
    (pauseAt todo s).faultHistory = s.faultHistory :=
  rfl
@[simp] theorem pauseAt_hostMem (todo : List Micro) (s : State) : (pauseAt todo s).hostMem = s.hostMem := rfl
@[simp] theorem pauseAt_levelInputs (todo : List Micro) (s : State) : (pauseAt todo s).levelInputs = s.levelInputs :=
  rfl
@[simp] theorem pauseAt_byteInputs (todo : List Micro) (s : State) : (pauseAt todo s).byteInputs = s.byteInputs := rfl
@[simp] theorem pauseAt_levelDraws (todo : List Micro) (s : State) : (pauseAt todo s).levelDraws = s.levelDraws := rfl
@[simp] theorem pauseAt_byteDraws (todo : List Micro) (s : State) : (pauseAt todo s).byteDraws = s.byteDraws := rfl
@[simp] theorem pauseAt_agenda (todo : List Micro) (s : State) : (pauseAt todo s).agenda = s.agenda := rfl
@[simp] theorem pauseAt_hostReads (todo : List Micro) (s : State) : (pauseAt todo s).hostReads = s.hostReads := rfl
@[simp] theorem pauseAt_port (todo : List Micro) (s : State) :
    (pauseAt todo s).port = .executing (latchedWords s.port) todo :=
  rfl

/-! ### `complete` -/

@[simp] theorem complete_cfg (s : State) : (complete s).cfg = s.cfg := rfl
@[simp] theorem complete_ps (s : State) : (complete s).ps = s.ps := rfl
@[simp] theorem complete_pins (s : State) : (complete s).pins = s.pins := rfl
@[simp] theorem complete_fault (s : State) : (complete s).fault = s.fault := rfl
@[simp] theorem complete_opIndex (s : State) : (complete s).opIndex = s.opIndex := rfl
@[simp] theorem complete_trace (s : State) : (complete s).trace = s.trace := rfl
@[simp] theorem complete_memHistory (s : State) : (complete s).memHistory = s.memHistory := rfl
@[simp] theorem complete_faultHistory (s : State) : (complete s).faultHistory = s.faultHistory := rfl
@[simp] theorem complete_hostMem (s : State) : (complete s).hostMem = s.hostMem := rfl
@[simp] theorem complete_levelInputs (s : State) : (complete s).levelInputs = s.levelInputs := rfl
@[simp] theorem complete_byteInputs (s : State) : (complete s).byteInputs = s.byteInputs := rfl
@[simp] theorem complete_levelDraws (s : State) : (complete s).levelDraws = s.levelDraws := rfl
@[simp] theorem complete_byteDraws (s : State) : (complete s).byteDraws = s.byteDraws := rfl
@[simp] theorem complete_agenda (s : State) : (complete s).agenda = s.agenda := rfl
@[simp] theorem complete_hostReads (s : State) : (complete s).hostReads = s.hostReads := rfl
@[simp] theorem complete_port (s : State) : (complete s).port = .idle := rfl

/-! ### `accept` -/

@[simp] theorem accept_cfg (words : List Word) (s : State) : (accept words s).cfg = s.cfg := rfl
@[simp] theorem accept_ps (words : List Word) (s : State) : (accept words s).ps = s.ps := rfl
@[simp] theorem accept_pins (words : List Word) (s : State) : (accept words s).pins = s.pins := rfl
@[simp] theorem accept_fault (words : List Word) (s : State) : (accept words s).fault = s.fault := rfl
@[simp] theorem accept_trace (words : List Word) (s : State) : (accept words s).trace = s.trace := rfl
@[simp] theorem accept_memHistory (words : List Word) (s : State) : (accept words s).memHistory = s.memHistory := rfl
@[simp] theorem accept_faultHistory (words : List Word) (s : State) : (accept words s).faultHistory = s.faultHistory :=
  rfl
@[simp] theorem accept_hostMem (words : List Word) (s : State) : (accept words s).hostMem = s.hostMem := rfl
@[simp] theorem accept_levelInputs (words : List Word) (s : State) : (accept words s).levelInputs = s.levelInputs := rfl
@[simp] theorem accept_byteInputs (words : List Word) (s : State) : (accept words s).byteInputs = s.byteInputs := rfl
@[simp] theorem accept_levelDraws (words : List Word) (s : State) : (accept words s).levelDraws = s.levelDraws := rfl
@[simp] theorem accept_byteDraws (words : List Word) (s : State) : (accept words s).byteDraws = s.byteDraws := rfl
@[simp] theorem accept_agenda (words : List Word) (s : State) : (accept words s).agenda = s.agenda := rfl
@[simp] theorem accept_hostReads (words : List Word) (s : State) : (accept words s).hostReads = s.hostReads := rfl
@[simp] theorem accept_port (words : List Word) (s : State) : (accept words s).port = .executing words [] := rfl
@[simp] theorem accept_opIndex (words : List Word) (s : State) : (accept words s).opIndex = s.opIndex + 1 := rfl

/-! ### `raise` -/

@[simp] theorem raise_cfg (code : FaultCode) (site : Option (Role × PinId)) (s : State) :
    (raise code site s).cfg = s.cfg :=
  by unfold raise; split <;> rfl
@[simp] theorem raise_ps (code : FaultCode) (site : Option (Role × PinId)) (s : State) :
    (raise code site s).ps = s.ps :=
  by unfold raise; split <;> rfl
@[simp] theorem raise_pins (code : FaultCode) (site : Option (Role × PinId)) (s : State) :
    (raise code site s).pins = s.pins :=
  by unfold raise; split <;> rfl
@[simp] theorem raise_opIndex (code : FaultCode) (site : Option (Role × PinId)) (s : State) :
    (raise code site s).opIndex = s.opIndex :=
  by unfold raise; split <;> rfl
@[simp] theorem raise_trace (code : FaultCode) (site : Option (Role × PinId)) (s : State) :
    (raise code site s).trace = s.trace :=
  by unfold raise; split <;> rfl
@[simp] theorem raise_memHistory (code : FaultCode) (site : Option (Role × PinId)) (s : State) :
    (raise code site s).memHistory = s.memHistory :=
  by unfold raise; split <;> rfl
@[simp] theorem raise_hostMem (code : FaultCode) (site : Option (Role × PinId)) (s : State) :
    (raise code site s).hostMem = s.hostMem :=
  by unfold raise; split <;> rfl
@[simp] theorem raise_levelInputs (code : FaultCode) (site : Option (Role × PinId)) (s : State) :
    (raise code site s).levelInputs = s.levelInputs :=
  by unfold raise; split <;> rfl
@[simp] theorem raise_byteInputs (code : FaultCode) (site : Option (Role × PinId)) (s : State) :
    (raise code site s).byteInputs = s.byteInputs :=
  by unfold raise; split <;> rfl
@[simp] theorem raise_levelDraws (code : FaultCode) (site : Option (Role × PinId)) (s : State) :
    (raise code site s).levelDraws = s.levelDraws :=
  by unfold raise; split <;> rfl
@[simp] theorem raise_byteDraws (code : FaultCode) (site : Option (Role × PinId)) (s : State) :
    (raise code site s).byteDraws = s.byteDraws :=
  by unfold raise; split <;> rfl
@[simp] theorem raise_agenda (code : FaultCode) (site : Option (Role × PinId)) (s : State) :
    (raise code site s).agenda = s.agenda :=
  by unfold raise; split <;> rfl
@[simp] theorem raise_hostReads (code : FaultCode) (site : Option (Role × PinId)) (s : State) :
    (raise code site s).hostReads = s.hostReads :=
  by unfold raise; split <;> rfl
@[simp] theorem raise_port (code : FaultCode) (site : Option (Role × PinId)) (s : State) :
    (raise code site s).port = .idle :=
  by unfold raise; split <;> rfl
@[simp] theorem raise_fault (code : FaultCode) (site : Option (Role × PinId)) (s : State) :
    (raise code site s).fault = if s.fault = .none then code else s.fault :=
  by unfold raise; split <;> rfl
@[simp] theorem raise_faultHistory (code : FaultCode) (site : Option (Role × PinId)) (s : State) :
    (raise code site s).faultHistory = if s.fault = .none then s.faultHistory ++ [⟨code, s.opIndex, latchedWords s.port, site⟩] else s.faultHistory :=
  by unfold raise; split <;> rfl

/-! ### `memWrite` -/

@[simp] theorem memWrite_cfg (a : Nat) (b : Byte) (s : State) : (memWrite a b s).cfg = s.cfg := rfl
@[simp] theorem memWrite_ps (a : Nat) (b : Byte) (s : State) : (memWrite a b s).ps = s.ps := rfl
@[simp] theorem memWrite_pins (a : Nat) (b : Byte) (s : State) : (memWrite a b s).pins = s.pins := rfl
@[simp] theorem memWrite_fault (a : Nat) (b : Byte) (s : State) : (memWrite a b s).fault = s.fault := rfl
@[simp] theorem memWrite_port (a : Nat) (b : Byte) (s : State) : (memWrite a b s).port = s.port := rfl
@[simp] theorem memWrite_opIndex (a : Nat) (b : Byte) (s : State) : (memWrite a b s).opIndex = s.opIndex := rfl
@[simp] theorem memWrite_trace (a : Nat) (b : Byte) (s : State) : (memWrite a b s).trace = s.trace := rfl
@[simp] theorem memWrite_memHistory (a : Nat) (b : Byte) (s : State) : (memWrite a b s).memHistory = s.memHistory := rfl
@[simp] theorem memWrite_faultHistory (a : Nat) (b : Byte) (s : State) :
    (memWrite a b s).faultHistory = s.faultHistory :=
  rfl
@[simp] theorem memWrite_levelInputs (a : Nat) (b : Byte) (s : State) : (memWrite a b s).levelInputs = s.levelInputs :=
  rfl
@[simp] theorem memWrite_byteInputs (a : Nat) (b : Byte) (s : State) : (memWrite a b s).byteInputs = s.byteInputs := rfl
@[simp] theorem memWrite_levelDraws (a : Nat) (b : Byte) (s : State) : (memWrite a b s).levelDraws = s.levelDraws := rfl
@[simp] theorem memWrite_byteDraws (a : Nat) (b : Byte) (s : State) : (memWrite a b s).byteDraws = s.byteDraws := rfl
@[simp] theorem memWrite_agenda (a : Nat) (b : Byte) (s : State) : (memWrite a b s).agenda = s.agenda := rfl
@[simp] theorem memWrite_hostReads (a : Nat) (b : Byte) (s : State) : (memWrite a b s).hostReads = s.hostReads := rfl
@[simp] theorem memWrite_hostMem (a : Nat) (b : Byte) (s : State) :
    (memWrite a b s).hostMem = sparseInsert a b s.hostMem :=
  rfl

/-! ### `memRefuse` -/

@[simp] theorem memRefuse_cfg (a : Nat) (s : State) : (memRefuse a s).cfg = s.cfg := rfl
@[simp] theorem memRefuse_ps (a : Nat) (s : State) : (memRefuse a s).ps = s.ps := rfl
@[simp] theorem memRefuse_pins (a : Nat) (s : State) : (memRefuse a s).pins = s.pins := rfl
@[simp] theorem memRefuse_fault (a : Nat) (s : State) : (memRefuse a s).fault = s.fault := rfl
@[simp] theorem memRefuse_port (a : Nat) (s : State) : (memRefuse a s).port = s.port := rfl
@[simp] theorem memRefuse_opIndex (a : Nat) (s : State) : (memRefuse a s).opIndex = s.opIndex := rfl
@[simp] theorem memRefuse_trace (a : Nat) (s : State) : (memRefuse a s).trace = s.trace := rfl
@[simp] theorem memRefuse_memHistory (a : Nat) (s : State) : (memRefuse a s).memHistory = s.memHistory := rfl
@[simp] theorem memRefuse_faultHistory (a : Nat) (s : State) : (memRefuse a s).faultHistory = s.faultHistory := rfl
@[simp] theorem memRefuse_levelInputs (a : Nat) (s : State) : (memRefuse a s).levelInputs = s.levelInputs := rfl
@[simp] theorem memRefuse_byteInputs (a : Nat) (s : State) : (memRefuse a s).byteInputs = s.byteInputs := rfl
@[simp] theorem memRefuse_levelDraws (a : Nat) (s : State) : (memRefuse a s).levelDraws = s.levelDraws := rfl
@[simp] theorem memRefuse_byteDraws (a : Nat) (s : State) : (memRefuse a s).byteDraws = s.byteDraws := rfl
@[simp] theorem memRefuse_agenda (a : Nat) (s : State) : (memRefuse a s).agenda = s.agenda := rfl
@[simp] theorem memRefuse_hostReads (a : Nat) (s : State) : (memRefuse a s).hostReads = s.hostReads := rfl
@[simp] theorem memRefuse_hostMem (a : Nat) (s : State) : (memRefuse a s).hostMem = sparseErase a s.hostMem := rfl

/-! ### `hostRead` -/

@[simp] theorem hostRead_cfg (r : HostReg) (s : State) : (hostRead r s).cfg = s.cfg := rfl
@[simp] theorem hostRead_ps (r : HostReg) (s : State) : (hostRead r s).ps = s.ps := rfl
@[simp] theorem hostRead_pins (r : HostReg) (s : State) : (hostRead r s).pins = s.pins := rfl
@[simp] theorem hostRead_fault (r : HostReg) (s : State) : (hostRead r s).fault = s.fault := rfl
@[simp] theorem hostRead_port (r : HostReg) (s : State) : (hostRead r s).port = s.port := rfl
@[simp] theorem hostRead_opIndex (r : HostReg) (s : State) : (hostRead r s).opIndex = s.opIndex := rfl
@[simp] theorem hostRead_trace (r : HostReg) (s : State) : (hostRead r s).trace = s.trace := rfl
@[simp] theorem hostRead_memHistory (r : HostReg) (s : State) : (hostRead r s).memHistory = s.memHistory := rfl
@[simp] theorem hostRead_faultHistory (r : HostReg) (s : State) : (hostRead r s).faultHistory = s.faultHistory := rfl
@[simp] theorem hostRead_hostMem (r : HostReg) (s : State) : (hostRead r s).hostMem = s.hostMem := rfl
@[simp] theorem hostRead_levelInputs (r : HostReg) (s : State) : (hostRead r s).levelInputs = s.levelInputs := rfl
@[simp] theorem hostRead_byteInputs (r : HostReg) (s : State) : (hostRead r s).byteInputs = s.byteInputs := rfl
@[simp] theorem hostRead_levelDraws (r : HostReg) (s : State) : (hostRead r s).levelDraws = s.levelDraws := rfl
@[simp] theorem hostRead_byteDraws (r : HostReg) (s : State) : (hostRead r s).byteDraws = s.byteDraws := rfl
@[simp] theorem hostRead_agenda (r : HostReg) (s : State) : (hostRead r s).agenda = s.agenda := rfl
@[simp] theorem hostRead_hostReads (r : HostReg) (s : State) :
    (hostRead r s).hostReads = s.hostReads ++ [(r, readReg s r)] :=
  rfl

end Sys2Proof.Machine
end

