-- ==== Sys2Proof/Laws/Sparse.lean ====
section
/-! SUPPORT. The sparse maps: what a lookup finds after an insertion or an erasure, and that both keep the canonical form. -/

namespace Sys2Proof.Machine

variable {α : Type}

/-- Rising from a bound means rising, with every address above the bound. -/
theorem sparseRisesFrom_lower (l : List (Nat × α)) (b : Nat) (h : sparseRisesFrom b l = true) :
    ∀ e ∈ l, b < e.1 := by
  induction l generalizing b with
  | nil => simp
  | cons hd tl ih =>
    obtain ⟨k, v⟩ := hd
    simp only [sparseRisesFrom, Bool.and_eq_true, decide_eq_true_eq] at h
    intro e he
    rcases List.mem_cons.mp he with rfl | he
    · exact h.1
    · exact Nat.lt_trans h.1 (ih k h.2 e he)

theorem sparseRisesFrom_weaken (l : List (Nat × α)) {b c : Nat} (hbc : c ≤ b) (h : sparseRisesFrom b l = true) :
    sparseRisesFrom c l = true := by
  cases l with
  | nil => rfl
  | cons hd tl =>
    simp only [sparseRisesFrom, Bool.and_eq_true, decide_eq_true_eq] at h ⊢
    exact ⟨Nat.lt_of_le_of_lt hbc h.1, h.2⟩

theorem sparseRisesFrom_insert (l : List (Nat × α)) (b a : Nat) (x : α) (hba : b < a)
    (h : sparseRisesFrom b l = true) : sparseRisesFrom b (sparseInsert a x l) = true := by
  induction l generalizing b with
  | nil => simp [sparseInsert, sparseRisesFrom, hba]
  | cons hd tl ih =>
    obtain ⟨k, v⟩ := hd
    simp only [sparseRisesFrom, Bool.and_eq_true, decide_eq_true_eq] at h
    unfold sparseInsert
    split
    · next hak => subst hak; simp [sparseRisesFrom, hba, h.2]
    · split
      · next hlt => simp [sparseRisesFrom, hba, hlt, h.2]
      · simp [sparseRisesFrom, h.1, ih k (by omega) h.2]

theorem sparseRises_insert (l : List (Nat × α)) (a : Nat) (x : α) (h : sparseRises l = true) :
    sparseRises (sparseInsert a x l) = true := by
  cases l with
  | nil => simp [sparseInsert, sparseRises, sparseRisesFrom]
  | cons hd tl =>
    obtain ⟨k, v⟩ := hd
    unfold sparseInsert
    split
    · next hak => subst hak; exact h
    · split
      · next hlt => simpa [sparseRises, sparseRisesFrom, hlt] using h
      · exact sparseRisesFrom_insert tl k a x (by omega) h

theorem sparseRisesFrom_erase (l : List (Nat × α)) (b a : Nat) (h : sparseRisesFrom b l = true) :
    sparseRisesFrom b (sparseErase a l) = true := by
  induction l generalizing b with
  | nil => rfl
  | cons hd tl ih =>
    obtain ⟨k, v⟩ := hd
    simp only [sparseRisesFrom, Bool.and_eq_true, decide_eq_true_eq] at h
    unfold sparseErase
    split
    · exact sparseRisesFrom_weaken tl (Nat.le_of_lt h.1) h.2
    · split
      · simp [sparseRisesFrom, h.1, h.2]
      · simp [sparseRisesFrom, h.1, ih k h.2]

theorem sparseRises_erase (l : List (Nat × α)) (a : Nat) (h : sparseRises l = true) :
    sparseRises (sparseErase a l) = true := by
  cases l with
  | nil => rfl
  | cons hd tl =>
    obtain ⟨k, v⟩ := hd
    unfold sparseErase
    split
    · cases tl with
      | nil => rfl
      | cons hd' tl' =>
        simp only [sparseRises, sparseRisesFrom, Bool.and_eq_true] at h ⊢
        exact h.2
    · split
      · exact h
      · exact sparseRisesFrom_erase tl k a h

/-- After an insertion the lookup finds the value at its address and what was there elsewhere. -/
theorem sparseLookup_insert (l : List (Nat × α)) (a b : Nat) (x : α) :
    sparseLookup b (sparseInsert a x l) = if b = a then some x else sparseLookup b l := by
  induction l with
  | nil =>
    simp only [sparseInsert, sparseLookup]
    split <;> simp
  | cons hd tl ih =>
    obtain ⟨k, v⟩ := hd
    unfold sparseInsert
    by_cases hak : a = k
    · subst hak
      rw [if_pos rfl]
      simp only [sparseLookup]
      by_cases hb : b = a
      · rw [if_pos hb, if_pos hb]
      · rw [if_neg hb, if_neg hb, if_neg hb]
    · rw [if_neg hak]
      by_cases hlt : a < k
      · rw [if_pos hlt]
        simp only [sparseLookup]
        by_cases hb : b = a
        · rw [if_pos hb, if_pos hb]
        · rw [if_neg hb, if_neg hb]
          by_cases hba : b < a
          · rw [if_pos hba, if_neg (by omega), if_pos (by omega)]
          · rw [if_neg hba]
      · rw [if_neg hlt]
        simp only [sparseLookup, ih]
        by_cases hbk : b = k
        · rw [if_pos hbk, if_pos hbk, if_neg (by omega)]
        · rw [if_neg hbk, if_neg hbk]
          by_cases hbl : b < k
          · rw [if_pos hbl, if_neg (by omega), if_pos hbl]
          · rw [if_neg hbl, if_neg hbl]

theorem sparseLookup_below (l : List (Nat × α)) (b : Nat) (h : sparseRisesFrom b l = true) :
    sparseLookup b l = none := by
  cases l with
  | nil => rfl
  | cons hd tl =>
    obtain ⟨k, v⟩ := hd
    simp only [sparseRisesFrom, Bool.and_eq_true, decide_eq_true_eq] at h
    simp only [sparseLookup]
    rw [if_neg (by omega), if_pos h.1]

theorem sparseLookup_eraseFrom (l : List (Nat × α)) (a b c : Nat) (h : sparseRisesFrom c l = true) :
    sparseLookup b (sparseErase a l) = if b = a then none else sparseLookup b l := by
  induction l generalizing c with
  | nil => simp [sparseErase, sparseLookup]
  | cons hd tl ih =>
    obtain ⟨k, v⟩ := hd
    simp only [sparseRisesFrom, Bool.and_eq_true, decide_eq_true_eq] at h
    unfold sparseErase
    by_cases hak : a = k
    · subst hak
      rw [if_pos rfl]
      by_cases hb : b = a
      · subst hb
        rw [if_pos rfl]
        exact sparseLookup_below tl b h.2
      · rw [if_neg hb]
        simp only [sparseLookup]
        rw [if_neg hb]
        by_cases hlt : b < a
        · rw [if_pos hlt]
          exact sparseLookup_below tl b (sparseRisesFrom_weaken tl (Nat.le_of_lt hlt) h.2)
        · rw [if_neg hlt]
    · rw [if_neg hak]
      by_cases hlt : a < k
      · rw [if_pos hlt]
        by_cases hb : b = a
        · subst hb
          rw [if_pos rfl]
          simp only [sparseLookup]
          rw [if_neg hak, if_pos hlt]
        · rw [if_neg hb]
      · rw [if_neg hlt]
        simp only [sparseLookup, ih k h.2]
        by_cases hbk : b = k
        · rw [if_pos hbk, if_pos hbk, if_neg (by omega)]
        · rw [if_neg hbk, if_neg hbk]
          by_cases hbl : b < k
          · rw [if_pos hbl, if_pos hbl]; simp
          · rw [if_neg hbl, if_neg hbl]

/-- After an erasure the lookup finds nothing at the address and what was there elsewhere. -/
theorem sparseLookup_erase (l : List (Nat × α)) (a b : Nat) (h : sparseRises l = true) :
    sparseLookup b (sparseErase a l) = if b = a then none else sparseLookup b l := by
  cases l with
  | nil => simp [sparseErase, sparseLookup]
  | cons hd tl =>
    obtain ⟨k, v⟩ := hd
    cases k with
    | zero =>
      unfold sparseErase
      by_cases ha : a = 0
      · subst ha
        rw [if_pos rfl]
        by_cases hb : b = 0
        · subst hb
          rw [if_pos rfl]
          exact sparseLookup_below tl 0 h
        · rw [if_neg hb]
          simp only [sparseLookup]
          rw [if_neg hb, if_neg (by omega)]
      · rw [if_neg ha, if_neg (by omega)]
        simp only [sparseLookup]
        rw [sparseLookup_eraseFrom tl a b 0 h]
        by_cases hb : b = 0
        · subst hb
          rw [if_pos rfl, if_pos rfl, if_neg (by omega)]
        · simp [hb]
    | succ k =>
      have h' : sparseRisesFrom k ((k + 1, v) :: tl) = true := by
        simp only [sparseRisesFrom, Bool.and_eq_true, decide_eq_true_eq]
        exact ⟨Nat.lt_succ_self k, h⟩
      exact sparseLookup_eraseFrom _ a b k h'

theorem mem_sparseInsert (l : List (Nat × α)) (a : Nat) (x : α) :
    ∀ e ∈ sparseInsert a x l, e = (a, x) ∨ e ∈ l := by
  induction l with
  | nil => simp [sparseInsert]
  | cons hd tl ih =>
    obtain ⟨k, v⟩ := hd
    unfold sparseInsert
    intro e he
    split at he
    · rcases List.mem_cons.mp he with h | h
      · exact .inl h
      · exact .inr (List.mem_cons_of_mem _ h)
    · split at he
      · exact List.mem_cons.mp he
      · rcases List.mem_cons.mp he with h | h
        · exact .inr (h ▸ List.mem_cons_self ..)
        · rcases ih e h with h | h
          · exact .inl h
          · exact .inr (List.mem_cons_of_mem _ h)

theorem mem_sparseErase (l : List (Nat × α)) (a : Nat) : ∀ e ∈ sparseErase a l, e ∈ l := by
  induction l with
  | nil => simp [sparseErase]
  | cons hd tl ih =>
    obtain ⟨k, v⟩ := hd
    unfold sparseErase
    intro e he
    split at he
    · exact List.mem_cons_of_mem _ he
    · split at he
      · exact he
      · rcases List.mem_cons.mp he with h | h
        · exact h ▸ List.mem_cons_self ..
        · exact List.mem_cons_of_mem _ (ih e h)

/-! ### The canonical forms -/

/-- A host write keeps host memory canonical. -/
theorem memory_wf_insert (mem : List Host.Cell) (a : Nat) (b : Byte) (ha : a < 2 ^ 32) (h : Memory.wf mem = true) :
    Memory.wf (sparseInsert a b mem) = true := by
  simp only [Memory.wf, Bool.and_eq_true, List.all_eq_true, decide_eq_true_eq] at h ⊢
  refine ⟨sparseRises_insert mem a b h.1, fun e he => ?_⟩
  rcases mem_sparseInsert mem a b e he with rfl | he
  · exact ha
  · exact h.2 e he

/-- A platform refusal keeps host memory canonical. -/
theorem memory_wf_erase (mem : List Host.Cell) (a : Nat) (h : Memory.wf mem = true) :
    Memory.wf (sparseErase a mem) = true := by
  simp only [Memory.wf, Bool.and_eq_true, List.all_eq_true, decide_eq_true_eq] at h ⊢
  exact ⟨sparseRises_erase mem a h.1, fun e he => h.2 e (mem_sparseErase mem a e he)⟩

/-- The host's write and the platform's refusal keep the memory of the state canonical. -/
theorem memWrite_wf (a : Word) (b : Byte) (s : State) (h : Memory.wf s.hostMem = true) :
    Memory.wf (memWrite a.toNat b s).hostMem = true := memory_wf_insert s.hostMem a.toNat b a.isLt h

theorem memRefuse_wf (a : Nat) (s : State) (h : Memory.wf s.hostMem = true) :
    Memory.wf (memRefuse a s).hostMem = true := memory_wf_erase s.hostMem a h

/-- Reset memory is canonical. -/
theorem reset_memory_wf : Memory.wf State.reset.hostMem = true := rfl

/-- Giving a pin its cell keeps the pin bank canonical. -/
theorem setPinCell_wf (p : PinId) (c : PinCell) (s : State) (h : pinBankWf s.pins = true) :
    pinBankWf (setPinCell p c s).pins = true := by
  unfold setPinCell
  split
  · exact h
  · next hp =>
    have hp' : p.toNat < 255 := by
      have h1 : p.toNat ≠ 255 := fun h => hp (BitVec.eq_of_toNat_eq h)
      have h2 := p.isLt
      omega
    simp only [pinBankWf, Bool.and_eq_true, List.all_eq_true, decide_eq_true_eq] at h ⊢
    split
    · exact ⟨sparseRises_erase s.pins _ h.1, fun e he => h.2 e (mem_sparseErase s.pins _ e he)⟩
    · next hc =>
      refine ⟨sparseRises_insert s.pins _ c h.1, fun e he => ?_⟩
      rcases mem_sparseInsert s.pins _ c e he with rfl | he
      · exact ⟨hp', hc⟩
      · exact h.2 e he

/-! ### One byte of memory, one pin -/

/-- A byte written reads as written; every other byte reads as before. -/
theorem memRead_memWrite (a a' : Nat) (b : Byte) (s : State) :
    memRead (memWrite a b s) a' = if a' = a then some b else memRead s a' :=
  sparseLookup_insert s.hostMem a a' b

/-- A refused byte is refused; every other byte reads as before. -/
theorem memRead_memRefuse (a a' : Nat) (s : State) (h : Memory.wf s.hostMem = true) :
    memRead (memRefuse a s) a' = if a' = a then none else memRead s a' :=
  sparseLookup_erase s.hostMem a a' (by simp only [Memory.wf, Bool.and_eq_true] at h; exact h.1)

end Sys2Proof.Machine
end

