-- ==== Sys2Proof/Laws/Ops.lean ====
section
/-! SUPPORT. What each shared operation can do, said once: the pin bank, `drive` and `sample`, one step of the sequencer
(`advance`), and what any run of the sequencer leaves as it was. -/

namespace Sys2Proof.Machine

/-! ### The pin bank -/

theorem pinId_toNat_eq {p q : PinId} : q.toNat = p.toNat ↔ q = p :=
  ⟨fun h => BitVec.eq_of_toNat_eq h, fun h => h ▸ rfl⟩

/-- A pin given a cell that is not the reset cell has it, and every other pin keeps its own. -/
theorem pinCell_setPinCell (p q : PinId) (c : PinCell) (s : State) (hp : p ≠ NC) (hc : c ≠ PinCell.reset) :
    pinCell (setPinCell p c s) q = if q = p then c else pinCell s q := by
  unfold pinCell setPinCell
  rw [if_neg hp, if_neg hc]
  simp only [sparseLookup_insert, pinId_toNat_eq]
  split <;> rfl

theorem modeOf_ne_unconfigured (m : Direction) (l : Latch) : (⟨modeOf m, l⟩ : PinCell) ≠ PinCell.reset := by
  cases m <;> simp [modeOf, PinCell.reset]

theorem latchOf_ne_undef (m : PinMode) (v : Level) : (⟨m, latchOf v⟩ : PinCell) ≠ PinCell.reset := by
  cases v <;> simp [latchOf, PinCell.reset]

/-- `PinMode` does to every pin's cell what its event says (10_state.md R28). -/
theorem pinCell_doPinMode (p q : PinId) (m : Direction) (s : State) (hq : q ≠ NC) :
    pinCell (doPinMode p m s) q = cellStep q (pinCell s q) (.M p m) := by
  by_cases hp : p = NC
  · subst hp
    have : pinCell (doPinMode NC m s) q = pinCell s q := by simp [doPinMode, pinCell, emit, setPinCell]
    rw [this]
    simp [cellStep, Ne.symm hq]
  · have : pinCell (doPinMode p m s) q = pinCell (setPinCell p ⟨modeOf m, (pinCell s p).level⟩ s) q := rfl
    rw [this, pinCell_setPinCell p q _ s hp (modeOf_ne_unconfigured m _)]
    by_cases h : q = p
    · subst h; simp [cellStep]
    · simp [cellStep, h, Ne.symm h]

/-- `PinWrite` does to every pin's cell what its event says (10_state.md R28). -/
theorem pinCell_doPinWrite (p q : PinId) (v : Level) (s : State) (hq : q ≠ NC) :
    pinCell (doPinWrite p v s) q = cellStep q (pinCell s q) (.W p v) := by
  by_cases hp : p = NC
  · subst hp
    have : pinCell (doPinWrite NC v s) q = pinCell s q := by simp [doPinWrite, pinCell, emit, setPinCell]
    rw [this]
    simp [cellStep, Ne.symm hq]
  · have : pinCell (doPinWrite p v s) q = pinCell (setPinCell p ⟨(pinCell s p).mode, latchOf v⟩ s) q := rfl
    rw [this, pinCell_setPinCell p q _ s hp (latchOf_ne_undef _ v)]
    by_cases h : q = p
    · subst h; simp [cellStep]
    · simp [cellStep, h, Ne.symm h]

/-- The cell of a pin depends on the pin bank alone. -/
theorem pinCell_congr {s t : State} (h : t.pins = s.pins) (p : PinId) : pinCell t p = pinCell s p := by
  simp [pinCell, h]

/-- A byte of host memory depends on host memory alone. -/
theorem memRead_congr {s t : State} (h : t.hostMem = s.hostMem) (a : Nat) : memRead t a = memRead s a := by
  simp [memRead, h]

/-- A write event keeps the mode of every cell. -/
theorem cellStep_W_mode (p q : PinId) (v : Level) (c : PinCell) : (cellStep q c (.W p v)).mode = c.mode := by
  simp only [cellStep]; split <;> rfl

@[simp] theorem cellAfter_nil (p : PinId) (c : PinCell) : cellAfter p c [] = c := rfl

@[simp] theorem cellAfter_cons (p : PinId) (c : PinCell) (e : Shown) (es : List Shown) :
    cellAfter p c (e :: es) = cellAfter p (cellStep p c e) es := rfl

theorem cellAfter_append (p : PinId) (c : PinCell) (a b : List Shown) :
    cellAfter p c (a ++ b) = cellAfter p (cellAfter p c a) b := by simp [cellAfter]

/-- Events that name another pin, or none, leave a pin's cell as it was. -/
theorem cellAfter_untouched (p : PinId) (c : PinCell) (evs : List Shown) (h : ∀ e ∈ evs, touchedPin e ≠ some p) :
    cellAfter p c evs = c := by
  induction evs generalizing c with
  | nil => rfl
  | cons e es ih =>
    have he := h e (List.mem_cons_self ..)
    have : cellStep p c e = c := by
      cases e <;> simp_all [cellStep, touchedPin]
    rw [cellAfter_cons, this]
    exact ih c fun e' h' => h e' (List.mem_cons_of_mem _ h')

/-! ### `drive` and `sample` (00_scope.md R13) -/

theorem drive_eq (r : Role) (v : Level) (s : State) :
    drive r v s = if canDrive s r = true then some (doPinWrite (pinOf s.cfg r) v s) else none := by
  simp [drive, canDrive]

theorem sample_eq (r : Role) (s : State) :
    sample r s = if canSample s r = true then some (doPinRead (pinOf s.cfg r) s) else none := by
  simp [sample, canSample]

/-- A role that can be driven is connected. -/
theorem canDrive_ne_NC {s : State} {r : Role} (h : canDrive s r = true) : pinOf s.cfg r ≠ NC := by
  simp only [canDrive, connected, Bool.and_eq_true, bne_iff_ne] at h
  exact h.1

/-! ### What a run of the sequencer leaves as it was -/

/-- What any activity of the sequencer may do: the trace grows and the pin bank follows it; the memory-request history
grows; the configuration, host memory, `opIndex` and what the host was handed stay (20_memory.md R52, R66). -/
structure Extends (s t : State) : Prop where
  trace : ∃ new, t.trace = s.trace ++ new ∧
    ∀ p, p ≠ NC → pinCell t p = cellAfter p (pinCell s p) (new.map showEvent)
  reads : ∃ new, t.memHistory = s.memHistory ++ new
  cfg : t.cfg = s.cfg
  opIndex : t.opIndex = s.opIndex
  mem : t.hostMem = s.hostMem
  hostReads : t.hostReads = s.hostReads

theorem Extends.refl (s : State) : Extends s s :=
  ⟨⟨[], by simp⟩, ⟨[], by simp⟩, rfl, rfl, rfl, rfl⟩

theorem Extends.trans {s t u : State} (h : Extends s t) (k : Extends t u) : Extends s u := by
  obtain ⟨n, hn, hc⟩ := h.trace
  obtain ⟨m, hm, kc⟩ := k.trace
  obtain ⟨a, ha⟩ := h.reads
  obtain ⟨b, hb⟩ := k.reads
  refine ⟨⟨n ++ m, by rw [hm, hn, List.append_assoc], fun p hp => ?_⟩, ⟨a ++ b, by rw [hb, ha, List.append_assoc]⟩,
    k.cfg.trans h.cfg, k.opIndex.trans h.opIndex, k.mem.trans h.mem, k.hostReads.trans h.hostReads⟩
  rw [kc p hp, hc p hp, List.map_append, cellAfter_append]

/-- An update that leaves the trace, the pin bank and the rest of `Extends` as they were. -/
theorem Extends.of_same {s t : State} (ht : t.trace = s.trace) (hp : t.pins = s.pins) (hr : t.memHistory = s.memHistory)
    (hc : t.cfg = s.cfg) (ho : t.opIndex = s.opIndex) (hm : t.hostMem = s.hostMem) (hh : t.hostReads = s.hostReads) :
    Extends s t :=
  ⟨⟨[], by simp [ht], fun p _ => by simp [pinCell_congr hp]⟩, ⟨[], by simp [hr]⟩, hc, ho, hm, hh⟩

theorem tick_extends (s : State) : Extends s (tick s) :=
  .of_same (by simp) (by simp) (by simp) (by simp) (by simp) (by simp) (by simp)

theorem pauseAt_extends (todo : List Micro) (s : State) : Extends s (pauseAt todo s) :=
  .of_same rfl rfl rfl rfl rfl rfl rfl

theorem complete_extends (s : State) : Extends s (complete s) := .of_same rfl rfl rfl rfl rfl rfl rfl

theorem raise_extends (code : FaultCode) (site : Option (Role × PinId)) (s : State) : Extends s (raise code site s) :=
  .of_same (by simp) (by simp) (by simp) (by simp) (by simp) (by simp) (by simp)

theorem raiseHazard_extends (r : Role) (s : State) : Extends s (raiseHazard r s) := raise_extends _ _ s

/-- An event that touches no pin extends. -/
theorem emit_extends (e : Event) (s : State) (h : touchedPin (showEvent e) = none) : Extends s (emit e s) := by
  refine ⟨⟨[e], by simp, fun p _ => ?_⟩, ⟨[], by simp⟩, rfl, rfl, rfl, rfl⟩
  rw [pinCell_congr (s := s) (by simp) p,
    cellAfter_untouched p _ _ (by simp [h])]

theorem emit_pinRead_extends (p : PinId) (v : Level) (s : State) : Extends s (emit (.pinRead p v) s) := by
  refine ⟨⟨[.pinRead p v], by simp, fun q _ => ?_⟩, ⟨[], by simp⟩, rfl, rfl, rfl, rfl⟩
  rw [pinCell_congr (s := s) (by simp) q]
  rfl

theorem doPinMode_extends (p : PinId) (m : Direction) (s : State) : Extends s (doPinMode p m s) :=
  ⟨⟨[.pinMode p m], by simp, fun q hq => pinCell_doPinMode p q m s hq⟩, ⟨[], by simp⟩, by simp, by simp, by simp,
    by simp⟩

theorem doPinWrite_extends (p : PinId) (v : Level) (s : State) : Extends s (doPinWrite p v s) :=
  ⟨⟨[.pinWrite p v], by simp, fun q hq => pinCell_doPinWrite p q v s hq⟩, ⟨[], by simp⟩, by simp, by simp, by simp,
    by simp⟩

theorem drawLevel_extends (s : State) : Extends s (drawLevel s).2 :=
  .of_same (by simp) (by simp) (by simp) (by simp) (by simp) (by simp) (by simp)

theorem drawByte_extends (s : State) : Extends s (drawByte s).2 :=
  .of_same (by simp) (by simp) (by simp) (by simp) (by simp) (by simp) (by simp)

theorem doPinRead_extends (p : PinId) (s : State) : Extends s (doPinRead p s).2 :=
  (drawLevel_extends s).trans (emit_pinRead_extends p _ _)

theorem doXfer_extends (b : Byte) (s : State) : Extends s (doXfer b s) :=
  (drawByte_extends s).trans (emit_extends _ _ rfl)

theorem drive_extends {r : Role} {v : Level} {s t : State} (h : drive r v s = some t) : Extends s t := by
  rw [drive_eq] at h
  split at h
  · cases h; exact doPinWrite_extends _ v s
  · cases h

theorem sample_extends {r : Role} {v : Level} {s t : State} (h : sample r s = some (v, t)) : Extends s t := by
  rw [sample_eq] at h
  split at h
  · have := doPinRead_extends (pinOf s.cfg r) s
    cases h; exact this
  · cases h

/-- The memory-request history grows by one entry. -/
theorem recordRead_extends (e : Nat × Byte) (s : State) :
    Extends s { s with memHistory := s.memHistory ++ [e] } :=
  ⟨⟨[], by simp, fun _ _ => rfl⟩, ⟨[e], rfl⟩, rfl, rfl, rfl, rfl⟩

/-- One step of the sequencer that goes on: what it may do. -/
theorem advance_done_extends {m : Micro} {s t : State} (h : advance m s = .done t) : Extends s t := by
  cases m with
  | gpioInit => cases h; exact (emit_extends _ s rfl).trans (tick_extends _)
  | pinMode p d => cases h; exact (doPinMode_extends p d s).trans (tick_extends _)
  | pinWrite p v => cases h; exact (doPinWrite_extends p v s).trans (tick_extends _)
  | drive r v =>
    simp only [advance] at h
    split at h
    · next hd => cases h; exact (drive_extends hd).trans (tick_extends _)
    · cases h
  | poll lvl =>
    simp only [advance] at h
    split at h
    · next v s' hs =>
      split at h
      · cases h; exact (sample_extends hs).trans (tick_extends _)
      · cases h
    · cases h
  | xfer b => cases h; exact (doXfer_extends b s).trans (tick_extends _)
  | xferMem a =>
    simp only [advance] at h
    split at h
    · next b _ =>
      cases h
      exact ((recordRead_extends (a, b) s).trans (doXfer_extends b _)).trans (tick_extends _)
    · cases h
  | delayUs n => cases h; exact (emit_extends _ s rfl).trans (tick_extends _)
  | delayMs n => cases h; exact (emit_extends _ s rfl).trans (tick_extends _)
  | setPower ps => cases h; exact .of_same rfl rfl rfl rfl rfl rfl rfl

/-- A missed poll turn: what it may do. -/
theorem advance_again_extends {m : Micro} {s t : State} (h : advance m s = .again t) : Extends s t := by
  cases m with
  | poll lvl =>
    simp only [advance] at h
    split at h
    · next v s' hs =>
      split at h
      · cases h
      · cases h; exact ((sample_extends hs).trans (emit_extends _ _ rfl)).trans (tick_extends _)
    · cases h
  | drive r v => simp only [advance] at h; split at h <;> cases h
  | xferMem a => simp only [advance] at h; split at h <;> cases h
  | gpioInit => cases h
  | pinMode p d => cases h
  | pinWrite p v => cases h
  | xfer b => cases h
  | delayUs n => cases h
  | delayMs n => cases h
  | setPower ps => cases h

/-- Every run of an event sequence extends the state it starts from. -/
theorem run_extends (todo : List Micro) (s : State) : Extends s (run todo s) := by
  induction todo generalizing s with
  | nil => exact complete_extends s
  | cons m rest ih =>
    unfold run
    split
    · exact pauseAt_extends _ s
    · split
      · next s' h => exact (advance_done_extends h).trans (ih s')
      · next s' h => exact (advance_again_extends h).trans (pauseAt_extends _ s')
      · exact pauseAt_extends _ s
      · exact raiseHazard_extends _ s

/-- Every operation extends the state it starts from, whatever happens to it. -/
theorem exec_extends (i : Instr) (s t : State) (h : exec i s = .next t) : Extends s t := by
  have hg : ∀ go : State → State, (∀ u, Extends u (go u)) → Extends s (gate s go) := fun go hgo => by
    unfold gate; split
    · exact hgo s
    · exact raise_extends _ _ s
  have hr : ∀ (sel : Sel) (go : State → State), (Extends s (go s)) → Extends s (requireSel sel s go) :=
    fun sel go hgo => by
      unfold requireSel; split
      · exact hgo
      · exact raise_extends _ _ s
  cases i with
  | sendCommand idx => cases h; exact hg _ fun u => run_extends _ u
  | sendCommandWithByte idx dat => cases h; exact hg _ fun u => run_extends _ u
  | sendCommandWithByteSelect idx dat sel => cases h; exact hr _ _ (hg _ fun u => run_extends _ u)
  | sendFixedValueRun idx dat count sel => cases h; exact hg _ fun u => run_extends _ u
  | sendIndexedBuffer idx buf len sel =>
    cases h
    refine hg _ fun u => ?_
    split
    · exact raise_extends _ _ u
    · exact run_extends _ u
  | selectPanelHalf sel => cases h; exact hr _ _ (hg _ fun u => run_extends _ u)
  | resume => cases h; exact run_extends _ s
  | suspend => cases h; exact run_extends _ s
  | resetSequence d1 d2 d3 d4 d5 => cases h; exact hg _ fun u => run_extends _ u
  | waitBusy lvl => cases h; exact hg _ fun u => run_extends _ u

/-- Every operation answers a next state: what it cannot do it records as a fault of the PFPS or waits for. -/
theorem exec_next (i : Instr) (s : State) : ∃ t, exec i s = .next t := by
  cases i <;> exact ⟨_, rfl⟩

end Sys2Proof.Machine
end

