-- ==== Sys2Proof/Laws/Run.lean ====
section
/-! SUPPORT. A run of an event sequence whose steps are all ready goes through, and leaves exactly what its events say: the
lemma the completion and fault statements rest on. -/

namespace Sys2Proof.Machine

/-! ### `After`: composition -/

theorem After.refl (s : State) : After s s [] [] :=
  ⟨⟨[], by simp⟩, fun _ _ => rfl, by simp, rfl, rfl, fun _ => rfl, ⟨rfl, rfl⟩, rfl, rfl⟩

theorem After.trans {s t u : State} {e1 e2 : List Shown} {r1 r2 : List (Nat × Byte)} (h : After s t e1 r1)
    (k : After t u e2 r2) : After s u (e1 ++ e2) (r1 ++ r2) := by
  obtain ⟨n, hn, hs⟩ := h.trace
  obtain ⟨m, hm, ks⟩ := k.trace
  refine ⟨⟨n ++ m, by rw [hm, hn, List.append_assoc], by rw [List.map_append, hs, ks]⟩, fun p hp => ?_,
    by rw [k.reads, h.reads, List.append_assoc], k.cfg.trans h.cfg, k.opIndex.trans h.opIndex,
    fun a => (k.mem a).trans (h.mem a), ⟨k.levels.1.trans h.levels.1, k.levels.2.trans h.levels.2⟩,
    k.agenda.trans h.agenda, k.hostReads.trans h.hostReads⟩
  rw [k.cells p hp, h.cells p hp, cellAfter_append]

/-- A state that differs in `PS`, the port, the fault or its history only is as far along. -/
theorem After.congr {s t u : State} {evs : List Shown} {reads : List (Nat × Byte)} (h : After s t evs reads)
    (h1 : u.trace = t.trace) (h2 : u.pins = t.pins) (h3 : u.memHistory = t.memHistory) (h4 : u.cfg = t.cfg)
    (h5 : u.opIndex = t.opIndex) (h6 : u.hostMem = t.hostMem) (h7 : u.levelInputs = t.levelInputs)
    (h8 : u.levelDraws = t.levelDraws) (h9 : u.agenda = t.agenda) (h10 : u.hostReads = t.hostReads) :
    After s u evs reads := by
  obtain ⟨n, hn, hs⟩ := h.trace
  exact ⟨⟨n, h1.trans hn, hs⟩, fun p hp => (pinCell_congr h2 p).trans (h.cells p hp), h3.trans h.reads,
    h4.trans h.cfg, h5.trans h.opIndex, fun a => (memRead_congr h6 a).trans (h.mem a),
    ⟨h7.trans h.levels.1, h8.trans h.levels.2⟩, h9.trans h.agenda, h10.trans h.hostReads⟩

/-! ### Steps that are ready -/

/-- What a step of the sequencer shows, and the state it needs for the byte a memory read returns. -/
def microShown (s : State) : Micro → List Shown
  | .gpioInit => [.INIT]
  | .pinMode p m => [.M p m]
  | .pinWrite p v => [.W p v]
  | .drive r v => [.W (pinOf s.cfg r) v]
  | .poll _ => []
  | .xfer b => [.X b]
  | .xferMem a => [.X ((memRead s a).getD 0#8)]
  | .delayUs n => [.Dus n]
  | .delayMs n => [.Dms n]
  | .setPower _ => []

/-- The memory read a step makes. -/
def microReads (s : State) : Micro → List (Nat × Byte)
  | .xferMem a => [(a, (memRead s a).getD 0#8)]
  | .gpioInit | .pinMode _ _ | .pinWrite _ _ | .drive _ _ | .poll _ | .xfer _ | .delayUs _ | .delayMs _
  | .setPower _ => []

/-- The power state after a step. -/
def microPower (ps : PowerState) : Micro → PowerState
  | .setPower ps' => ps'
  | .gpioInit | .pinMode _ _ | .pinWrite _ _ | .drive _ _ | .poll _ | .xfer _ | .xferMem _ | .delayUs _
  | .delayMs _ => ps

/-- The step goes through: its check passes, its memory read is admitted, and it is no poll turn. -/
def microReady (s : State) : Micro → Bool
  | .drive r _ => canDrive s r
  | .xferMem a => (memRead s a).isSome
  | .poll _ => false
  | .gpioInit | .pinMode _ _ | .pinWrite _ _ | .xfer _ | .delayUs _ | .delayMs _ | .setPower _ => true

/-- A change of a pin's mode. -/
def isPinMode : Micro → Bool
  | .pinMode _ _ => true
  | .gpioInit | .pinWrite _ _ | .drive _ _ | .poll _ | .xfer _ | .xferMem _ | .delayUs _ | .delayMs _
  | .setPower _ => false

/-- A write through a role's check. -/
def isDrive : Micro → Bool
  | .drive _ _ => true
  | .gpioInit | .pinMode _ _ | .pinWrite _ _ | .poll _ | .xfer _ | .xferMem _ | .delayUs _ | .delayMs _
  | .setPower _ => false

theorem hostDue_of_waits {s : State} (h : hostCounts s = false) : hostDue s = false := by
  unfold hostCounts at h
  unfold hostDue
  split at h
  · cases h
  · next hne =>
    split
    · next h' => exact absurd h' (hne _ _ _)
    · rfl

/-- A host that waits for completion does not count steps. -/
theorem tick_of_waits {s : State} (h : hostCounts s = false) : tick s = s := by
  unfold hostCounts at h
  unfold tick
  split at h
  · cases h
  · next hne =>
    split
    · next h' => exact absurd h' (hne _ _ _)
    · rfl

theorem hostCounts_congr {s t : State} (h : t.agenda = s.agenda) : hostCounts t = hostCounts s := by
  simp [hostCounts, h]

/-- What one ready step does, where the host waits for completion. -/
structure StepsTo (s t : State) (m : Micro) : Prop where
  after : After s t (microShown s m) (microReads s m)
  ps : t.ps = microPower s.ps m
  port : t.port = s.port
  fault : t.fault = s.fault
  history : t.faultHistory = s.faultHistory
  hostMem : t.hostMem = s.hostMem
  modes : isPinMode m = false → ∀ p, p ≠ NC → (pinCell t p).mode = (pinCell s p).mode

theorem StepsTo.of_pins {s t : State} {m : Micro} (e : Event) (ht : t.trace = s.trace ++ [e])
    (hs : microShown s m = [showEvent e]) (hr : microReads s m = [])
    (hp : ∀ p, p ≠ NC → pinCell t p = cellStep p (pinCell s p) (showEvent e))
    (hm : isPinMode m = false → ∀ p c, (cellStep p c (showEvent e)).mode = c.mode)
    (hpow : microPower s.ps m = s.ps)
    (h : t.memHistory = s.memHistory ∧ t.cfg = s.cfg ∧ t.opIndex = s.opIndex ∧ t.hostMem = s.hostMem ∧
      t.levelInputs = s.levelInputs ∧ t.levelDraws = s.levelDraws ∧ t.agenda = s.agenda ∧
      t.hostReads = s.hostReads ∧ t.ps = s.ps ∧ t.port = s.port ∧ t.fault = s.fault ∧
      t.faultHistory = s.faultHistory) : StepsTo s t m := by
  obtain ⟨h1, h2, h3, h4, h5, h6, h7, h8, h9, h10, h11, h12⟩ := h
  refine ⟨⟨⟨[e], ht, by simp [hs]⟩, fun p hp' => by rw [hs, hp p hp']; rfl, by simp [hr, h1], h2, h3,
    fun a => memRead_congr h4 a, ⟨h5, h6⟩, h7, h8⟩, h9.trans hpow.symm, h10, h11, h12, h4, fun hm' p hp' => ?_⟩
  rw [hp p hp', hm hm']

/-- A ready step goes through and does what it shows. -/
theorem advance_ready {m : Micro} {s : State} (hw : hostCounts s = false) (hr : microReady s m = true) :
    ∃ t, advance m s = .done t ∧ StepsTo s t m := by
  have htick : ∀ u : State, u.agenda = s.agenda → tick u = u := fun u hu =>
    tick_of_waits ((hostCounts_congr hu).trans hw)
  cases m with
  | gpioInit =>
    refine ⟨_, rfl, ?_⟩
    rw [htick _ (by simp)]
    exact .of_pins .gpioInit (by simp) rfl rfl (fun p _ => pinCell_congr (by simp) p) (fun _ _ _ => rfl) rfl
      (by simp)
  | pinMode p d =>
    refine ⟨_, rfl, ?_⟩
    rw [htick _ (by simp)]
    exact .of_pins (.pinMode p d) (by simp) rfl rfl (fun q hq => pinCell_doPinMode p q d s hq)
      (fun h => by cases h) rfl (by simp)
  | pinWrite p v =>
    refine ⟨_, rfl, ?_⟩
    rw [htick _ (by simp)]
    exact .of_pins (.pinWrite p v) (by simp) rfl rfl (fun q hq => pinCell_doPinWrite p q v s hq)
      (fun _ q c => cellStep_W_mode p q v c) rfl (by simp)
  | drive r v =>
    refine ⟨tick (doPinWrite (pinOf s.cfg r) v s), ?_, ?_⟩
    · have hr' : canDrive s r = true := hr
      simp [advance, drive_eq, hr']
    rw [htick _ (by simp)]
    exact .of_pins (.pinWrite (pinOf s.cfg r) v) (by simp) rfl rfl (fun q hq => pinCell_doPinWrite _ q v s hq)
      (fun _ q c => cellStep_W_mode _ q v c) rfl (by simp)
  | poll lvl => cases hr
  | xfer b =>
    refine ⟨_, rfl, ?_⟩
    rw [htick _ (by simp)]
    exact .of_pins (.xfer b (drawByte s).1) (by simp) rfl rfl (fun p _ => pinCell_congr (by simp) p)
      (fun _ _ _ => rfl) rfl (by simp)
  | xferMem a =>
    have hr' : (memRead s a).isSome = true := hr
    obtain ⟨b, hb⟩ := Option.isSome_iff_exists.mp hr'
    refine ⟨tick (doXfer b { s with memHistory := s.memHistory ++ [(a, b)] }), by simp [advance, hb], ?_⟩
    rw [htick _ (by simp)]
    refine ⟨⟨⟨[_], by simp; rfl, by simp [microShown, hb, showEvent]⟩, fun p _ => ?_, by simp [microReads, hb], by simp,
      by simp, fun a' => memRead_congr (by simp) a', ⟨by simp, by simp⟩, by simp, by simp⟩, by simp [microPower],
      by simp, by simp, by simp, by simp, fun _ p _ => ?_⟩
    · rw [pinCell_congr (s := s) (by simp) p]; rfl
    · rw [pinCell_congr (s := s) (by simp) p]
  | delayUs n =>
    refine ⟨_, rfl, ?_⟩
    rw [htick _ (by simp)]
    exact .of_pins (.delayUs n) (by simp) rfl rfl (fun p _ => pinCell_congr (by simp) p) (fun _ _ _ => rfl) rfl
      (by simp)
  | delayMs n =>
    refine ⟨_, rfl, ?_⟩
    rw [htick _ (by simp)]
    exact .of_pins (.delayMs n) (by simp) rfl rfl (fun p _ => pinCell_congr (by simp) p) (fun _ _ _ => rfl) rfl
      (by simp)
  | setPower ps =>
    exact ⟨_, rfl, ⟨⟨⟨[], by simp [microShown]⟩, fun _ _ => rfl, by simp [microReads], rfl, rfl, fun _ => rfl,
      ⟨rfl, rfl⟩, rfl, rfl⟩, rfl, rfl, rfl, rfl, rfl, fun _ _ _ => rfl⟩⟩

/-- What a sequence shows from a state, the bytes it reads, and the power state it leaves. -/
def seqShown (s : State) (todo : List Micro) : List Shown := todo.flatMap (microShown s)
def seqReads (s : State) (todo : List Micro) : List (Nat × Byte) := todo.flatMap (microReads s)
def seqPower (ps : PowerState) (todo : List Micro) : PowerState := todo.foldl microPower ps

/-- A sequence whose steps are all ready, and which either changes no mode or makes no checked write. -/
structure SeqReady (s : State) (todo : List Micro) : Prop where
  ready : ∀ m ∈ todo, microReady s m = true
  steady : (∀ m ∈ todo, isPinMode m = false) ∨ (∀ m ∈ todo, isDrive m = false)

theorem microShown_congr {s t : State} (hc : t.cfg = s.cfg) (hm : t.hostMem = s.hostMem) (m : Micro) :
    microShown t m = microShown s m := by
  cases m <;> simp [microShown, hc, memRead_congr hm]

theorem microReads_congr {s t : State} (hm : t.hostMem = s.hostMem) (m : Micro) :
    microReads t m = microReads s m := by
  cases m <;> simp [microReads, memRead_congr hm]

theorem canDrive_congr {s t : State} (hc : t.cfg = s.cfg)
    (hp : ∀ p, p ≠ NC → (pinCell t p).mode = (pinCell s p).mode) (r : Role) : canDrive t r = canDrive s r := by
  unfold canDrive
  rw [hc]
  by_cases h : pinOf s.cfg r = NC
  · simp [connected, h]
  · rw [hp _ h]

theorem microReady_congr {s t : State} (hc : t.cfg = s.cfg) (hm : t.hostMem = s.hostMem) (m : Micro)
    (hp : isDrive m = false ∨ ∀ p, p ≠ NC → (pinCell t p).mode = (pinCell s p).mode) :
    microReady t m = microReady s m := by
  cases m with
  | drive r v =>
    rcases hp with h | h
    · cases h
    · exact canDrive_congr hc h r
  | xferMem a => simp [microReady, memRead_congr hm]
  | _ => rfl

/-- What is left after the ready part of a sequence runs from the state that part leaves. -/
theorem run_ready_append (a b : List Micro) (s : State) (hw : hostCounts s = false) (h : SeqReady s a) :
    ∃ t, run (a ++ b) s = run b t ∧ After s t (seqShown s a) (seqReads s a) ∧ t.ps = seqPower s.ps a ∧
      t.port = s.port ∧ t.fault = s.fault ∧ t.faultHistory = s.faultHistory ∧ t.hostMem = s.hostMem ∧
      ((∀ m ∈ a, isPinMode m = false) → ∀ p, p ≠ NC → (pinCell t p).mode = (pinCell s p).mode) := by
  induction a generalizing s with
  | nil => exact ⟨s, rfl, .refl s, rfl, rfl, rfl, rfl, rfl, fun _ _ _ => rfl⟩
  | cons m rest ih =>
    obtain ⟨u, hu, hstep⟩ := advance_ready hw (h.ready m (List.mem_cons_self ..))
    have hwu : hostCounts u = false := (hostCounts_congr hstep.after.agenda).trans hw
    have hsteady : ∀ x ∈ rest, isDrive x = false ∨ ∀ p, p ≠ NC → (pinCell u p).mode = (pinCell s p).mode := by
      intro x hx
      rcases h.steady with hs | hs
      · exact .inr (hstep.modes (hs m (List.mem_cons_self ..)))
      · exact .inl (hs x (List.mem_cons_of_mem _ hx))
    have hready : SeqReady u rest := by
      refine ⟨fun x hx => ?_, ?_⟩
      · rw [microReady_congr hstep.after.cfg hstep.hostMem x (hsteady x hx)]
        exact h.ready x (List.mem_cons_of_mem _ hx)
      · rcases h.steady with hs | hs
        · exact .inl fun x hx => hs x (List.mem_cons_of_mem _ hx)
        · exact .inr fun x hx => hs x (List.mem_cons_of_mem _ hx)
    obtain ⟨t, hrun, hafter, hps, hport, hfault, hhist, hmem, hmodes⟩ := ih u hwu hready
    have hshown : seqShown u rest = seqShown s rest := by
      simp only [seqShown, funext (microShown_congr hstep.after.cfg hstep.hostMem)]
    have hreads : seqReads u rest = seqReads s rest := by
      simp only [seqReads, funext (microReads_congr hstep.hostMem)]
    refine ⟨t, ?_, ?_, ?_, hport.trans hstep.port, hfault.trans hstep.fault, hhist.trans hstep.history,
      hmem.trans hstep.hostMem, fun hm p hp => ?_⟩
    · rw [List.cons_append, run]
      rw [if_neg (by rw [hostDue_of_waits hw]; simp), hu]
      exact hrun
    · have := hstep.after.trans hafter
      rw [hshown, hreads] at this
      simpa [seqShown, seqReads] using this
    · rw [hps, hstep.ps]; rfl
    · rw [hmodes (fun x hx => hm x (List.mem_cons_of_mem _ hx)) p hp,
        hstep.modes (hm m (List.mem_cons_self ..)) p hp]

/-- A ready sequence completes, and leaves exactly what it shows. -/
theorem run_completes (todo : List Micro) (s : State) (hw : hostCounts s = false) (h : SeqReady s todo) :
    Completes s (run todo s) (seqShown s todo) (seqReads s todo) (seqPower s.ps todo) := by
  obtain ⟨t, hrun, hafter, hps, -, hfault, hhist, -, -⟩ := run_ready_append todo [] s hw h
  rw [List.append_nil] at hrun
  rw [hrun]
  exact ⟨hafter.congr rfl rfl rfl rfl rfl rfl rfl rfl rfl rfl, hps, rfl, hfault, hhist⟩

/-- A write through a role that cannot be driven, after a ready part that changes no mode and no power state, raises
CONFIG_HAZARD with the part's events standing. -/
theorem run_hazard (a : List Micro) (r : Role) (v : Level) (rest : List Micro) (s : State) (hw : hostCounts s = false)
    (hf : s.fault = .none) (ha : ∀ m ∈ a, microReady s m = true) (hm : ∀ m ∈ a, isPinMode m = false)
    (hpow : seqPower s.ps a = s.ps) (hr : canDrive s r = false) :
    Faults s (run (a ++ .drive r v :: rest) s) (seqShown s a) (seqReads s a) .configHazard
      (some (r, pinOf s.cfg r)) := by
  obtain ⟨t, hrun, hafter, hps, hport, hfault, hhist, -, hmodes⟩ :=
    run_ready_append a (.drive r v :: rest) s hw ⟨ha, .inl hm⟩
  have hwt : hostCounts t = false := (hostCounts_congr hafter.agenda).trans hw
  have hrt : canDrive t r = false := (canDrive_congr hafter.cfg (hmodes hm) r).trans hr
  have : run (.drive r v :: rest) t = raiseHazard r t := by
    rw [run, if_neg (by rw [hostDue_of_waits hwt]; simp)]
    simp [advance, drive_eq, hrt]
  rw [hrun, this]
  refine ⟨hafter.congr ?_ ?_ ?_ ?_ ?_ ?_ ?_ ?_ ?_ ?_, ?_, ?_, ?_, ?_⟩ <;>
    simp [raiseHazard, hps, hpow, hfault, hf, hhist, hafter.opIndex, hport, hafter.cfg]

end Sys2Proof.Machine
end

