-- ==== Sys2Proof/Laws/Exec.lean ====
section
/-! SUPPORT. Everything an operation can do, said once (`exec_cases`), and how a property goes through a run of the sequencer
(`run_preserves`). -/

namespace Sys2Proof.Machine

/-- A property that every step of a sequence keeps, and that a pause, the completion and a hazard keep, goes through the
run. -/
theorem run_preserves (P : State → Prop) (todo : List Micro)
    (hdone : ∀ m ∈ todo, ∀ s t, P s → advance m s = .done t → P t)
    (hagain : ∀ m ∈ todo, ∀ s t, P s → advance m s = .again t → P t)
    (hpause : ∀ l s, P s → P (pauseAt l s)) (hcomplete : ∀ s, P s → P (complete s))
    (hhazard : ∀ r s, P s → P (raiseHazard r s)) (s : State) (h : P s) : P (run todo s) := by
  induction todo generalizing s with
  | nil => exact hcomplete s h
  | cons m rest ih =>
    unfold run
    split
    · exact hpause _ s h
    · split
      · next s' ha =>
        exact ih (fun x hx => hdone x (List.mem_cons_of_mem _ hx)) (fun x hx => hagain x (List.mem_cons_of_mem _ hx)) s'
          (hdone m (List.mem_cons_self ..) s s' h ha)
      · next s' ha => exact hpause _ s' (hagain m (List.mem_cons_self ..) s s' h ha)
      · exact hpause _ s h
      · exact hhazard _ s h

/-- What a step of the sequencer that goes on keeps of the port and the fault, and what it makes of `PS`. -/
structure Keeps (s t : State) (ps : PowerState) : Prop where
  port : t.port = s.port
  fault : t.fault = s.fault
  history : t.faultHistory = s.faultHistory
  ps : t.ps = ps

theorem drive_some {r : Role} {v : Level} {s t : State} (h : drive r v s = some t) :
    canDrive s r = true ∧ t = doPinWrite (pinOf s.cfg r) v s := by
  rw [drive_eq] at h
  split at h
  · next hc => exact ⟨hc, (Option.some.inj h).symm⟩
  · cases h

theorem sample_some {r : Role} {v : Level} {s t : State} (h : sample r s = some (v, t)) :
    canSample s r = true ∧ v = (drawLevel s).1 ∧ t = (doPinRead (pinOf s.cfg r) s).2 := by
  rw [sample_eq] at h
  split at h
  · next hc =>
    have := Option.some.inj h
    exact ⟨hc, (congrArg Prod.fst this).symm, (congrArg Prod.snd this).symm⟩
  · cases h

theorem advance_done_keeps {m : Micro} {s t : State} (h : advance m s = .done t) : Keeps s t (microPower s.ps m) := by
  cases m with
  | drive r v =>
    simp only [advance] at h
    split at h
    · next hd =>
      obtain ⟨-, rfl⟩ := drive_some hd
      cases h
      constructor <;> simp [microPower]
    · cases h
  | poll lvl =>
    simp only [advance] at h
    split at h
    · next hs =>
      obtain ⟨-, -, rfl⟩ := sample_some hs
      split at h
      · cases h
        constructor <;> simp [microPower, doPinRead]
      · cases h
    · cases h
  | xferMem a =>
    simp only [advance] at h
    split at h
    · cases h
      constructor <;> simp [microPower]
    · cases h
  | gpioInit => cases h; constructor <;> simp [microPower]
  | pinMode p d => cases h; constructor <;> simp [microPower]
  | pinWrite p v => cases h; constructor <;> simp [microPower]
  | xfer b => cases h; constructor <;> simp [microPower]
  | delayUs n => cases h; constructor <;> simp [microPower]
  | delayMs n => cases h; constructor <;> simp [microPower]
  | setPower ps => cases h; constructor <;> rfl

/-- Only a poll turn can miss; what it keeps. -/
theorem advance_again_keeps {m : Micro} {s t : State} (h : advance m s = .again t) :
    (∃ lvl, m = .poll lvl) ∧ Keeps s t s.ps := by
  cases m with
  | poll lvl =>
    simp only [advance] at h
    split at h
    · next hs =>
      obtain ⟨-, -, rfl⟩ := sample_some hs
      split at h
      · cases h
      · cases h
        exact ⟨⟨lvl, rfl⟩, by constructor <;> simp [doPinRead]⟩
    · cases h
  | drive r v => simp only [advance] at h; split at h <;> cases h
  | xferMem a => simp only [advance] at h; split at h <;> cases h
  | gpioInit => cases h
  | pinMode p d => cases h
  | pinWrite p v => cases h
  | xfer b => cases h
  | delayUs n => cases h
  | delayMs n => cases h
  | setPower ps => cases h

/-- How a run ends: it is finished, or a hazard ended it, or it is paused with a rest of its sequence; and what `PS`, the
fault and the port are then. -/
inductive RunEnds (todo : List Micro) (s t : State) : Prop where
  | finished (hp : t.port = .idle) (hf : t.fault = s.fault) (hh : t.faultHistory = s.faultHistory)
      (hps : t.ps = todo.foldl microPower s.ps)
  | hazard (r : Role) (before rest : List Micro) (m : Micro) (ht : todo = before ++ m :: rest)
      (hm : (∃ v, m = .drive r v) ∨ r = .busy ∧ ∃ lvl, m = .poll lvl) (hp : t.port = .idle)
      (hf : t.fault = if s.fault = .none then .configHazard else s.fault)
      (hh : t.faultHistory = s.faultHistory ++ if s.fault = .none
        then [⟨.configHazard, s.opIndex, latchedWords s.port, some (r, pinOf s.cfg r)⟩] else [])
      (hps : t.ps = before.foldl microPower s.ps)
  | paused (before rest : List Micro) (m : Micro) (ht : todo = before ++ m :: rest)
      (hp : t.port = .executing (latchedWords s.port) (m :: rest)) (hf : t.fault = s.fault)
      (hh : t.faultHistory = s.faultHistory) (hps : t.ps = before.foldl microPower s.ps)

theorem advance_hazard {m : Micro} {s : State} {r : Role} (h : advance m s = .hazard r) :
    (∃ v, m = .drive r v) ∨ r = .busy ∧ ∃ lvl, m = .poll lvl := by
  cases m with
  | drive r' v => simp only [advance] at h; split at h <;> cases h; exact .inl ⟨v, rfl⟩
  | poll lvl =>
    simp only [advance] at h
    split at h
    · split at h <;> cases h
    · cases h; exact .inr ⟨rfl, lvl, rfl⟩
  | xferMem a => simp only [advance] at h; split at h <;> cases h
  | gpioInit => cases h
  | pinMode p d => cases h
  | pinWrite p v => cases h
  | xfer b => cases h
  | delayUs n => cases h
  | delayMs n => cases h
  | setPower ps => cases h

/-- Inversion of a run. -/
theorem run_ends (todo : List Micro) (s : State) : RunEnds todo s (run todo s) := by
  induction todo generalizing s with
  | nil => exact .finished rfl rfl rfl rfl
  | cons m rest ih =>
    unfold run
    split
    · exact .paused [] rest m rfl rfl rfl rfl rfl
    · split
      · next s' ha =>
        have hk := advance_done_keeps ha
        have hx := advance_done_extends ha
        have hw : latchedWords s'.port = latchedWords s.port := by rw [hk.port]
        cases ih s' with
        | finished hp hf hh hps =>
          exact .finished hp (hf.trans hk.fault) (hh.trans hk.history) (by rw [hps, hk.ps]; rfl)
        | hazard r before rest' m' ht hm hp hf hh hps =>
          refine .hazard r (m :: before) rest' m' (by rw [ht]; rfl) hm hp (by rw [hf, hk.fault]) ?_
            (by rw [hps, hk.ps]; rfl)
          rw [hh, hk.history, hk.fault, hw, hx.opIndex, hx.cfg]
        | paused before rest' m' ht hp hf hh hps =>
          exact .paused (m :: before) rest' m' (by rw [ht]; rfl) (by rw [hp, hw]) (hf.trans hk.fault)
            (hh.trans hk.history) (by rw [hps, hk.ps]; rfl)
      · next s' ha =>
        have hk := (advance_again_keeps ha).2
        exact .paused [] rest m rfl (by simp [pauseAt, hk.port]) hk.fault hk.history hk.ps
      · exact .paused [] rest m rfl rfl rfl rfl rfl
      · next r ha =>
        refine .hazard r [] rest m rfl (advance_hazard ha) (by simp [raiseHazard]) ?_ ?_ (by simp [raiseHazard]) <;>
          (by_cases hf : s.fault = .none <;> simp [raiseHazard, raise, hf])

/-- What an operation does: it raises the fault of a check it makes first, or runs its event sequence (what is left of it
for `resume` in ON and `suspend` outside ON). -/
inductive ExecCase (i : Instr) (s t : State) : Prop where
  | selector (hi : i.wellFormed = false) (ht : t = raise .illegalOp none s)
  | unpowered (hg : isGated i = true) (hps : s.ps ≠ .on) (ht : t = raise .notPowered none s)
  | range (idx : Byte) (buf len : Word) (sel : Sel) (hi : i = .sendIndexedBuffer idx buf len sel) (hps : s.ps = .on)
      (ho : buf.toNat + len.toNat > 2 ^ 32) (ht : t = raise .addrOverflow none s)
  | runs (hw : i.wellFormed = true) (hps : isGated i = true → s.ps = .on)
      (hi : i = .resume ∨ i = .suspend → i = .suspend ∧ s.ps = .on ∨ i = .resume ∧ s.ps ≠ .on)
      (hr : ∀ idx buf len sel, i = .sendIndexedBuffer idx buf len sel → buf.toNat + len.toNat ≤ 2 ^ 32)
      (ht : t = run (fullSeq s.cfg i) s)
  | resumeOn (hi : i = .resume) (hps : s.ps = .on) (ht : t = complete s)
  | suspendOff (hi : i = .suspend) (hps : s.ps ≠ .on) (ht : t = { s with ps := .sleep, port := .idle })

theorem gate_cases (s : State) (go : State → State) :
    s.ps = .on ∧ gate s go = go s ∨ s.ps ≠ .on ∧ gate s go = raise .notPowered none s := by
  by_cases h : s.ps = .on
  · exact .inl ⟨h, by simp [gate, busEnabled, h]⟩
  · exact .inr ⟨h, by simp [gate, busEnabled, h]⟩

/-- Inversion of `exec`. -/
theorem exec_cases {i : Instr} {s t : State} (h : exec i s = .next t) : ExecCase i s t := by
  cases i with
  | sendCommand idx =>
    cases h
    rcases gate_cases s fun s => run (sendCommandSeq s.cfg idx) s with ⟨hp, he⟩ | ⟨hp, he⟩
    · exact .runs rfl (fun _ => hp) (by simp) (by simp) he
    · exact .unpowered rfl hp he
  | sendCommandWithByte idx dat =>
    cases h
    rcases gate_cases s fun s => run (sendCommandWithByteSeq s.cfg idx dat) s with ⟨hp, he⟩ | ⟨hp, he⟩
    · exact .runs rfl (fun _ => hp) (by simp) (by simp) he
    · exact .unpowered rfl hp he
  | sendCommandWithByteSelect idx dat sel =>
    cases h
    unfold requireSel
    by_cases hs : sel.given = true
    · rw [if_pos hs]
      rcases gate_cases s fun s => run (sendCommandWithByteSelectSeq s.cfg idx dat sel) s with ⟨hp, he⟩ | ⟨hp, he⟩
      · exact .runs hs (fun _ => hp) (by simp) (by simp) he
      · exact .unpowered rfl hp he
    · rw [if_neg hs]
      exact .selector (by simpa [Instr.wellFormed] using hs) rfl
  | sendFixedValueRun idx dat count sel =>
    cases h
    rcases gate_cases s fun s => run (sendFixedValueRunSeq s.cfg idx dat count sel) s with ⟨hp, he⟩ | ⟨hp, he⟩
    · exact .runs rfl (fun _ => hp) (by simp) (by simp) he
    · exact .unpowered rfl hp he
  | sendIndexedBuffer idx buf len sel =>
    cases h
    rcases gate_cases s fun s => if addrOverflows buf len = true then raise .addrOverflow none s
        else run (sendIndexedBufferSeq s.cfg idx buf len sel) s with ⟨hp, he⟩ | ⟨hp, he⟩
    · rw [he]
      by_cases ho : buf.toNat + len.toNat > 2 ^ 32
      · exact .range idx buf len sel rfl hp ho (if_pos (decide_eq_true ho))
      · refine .runs rfl (fun _ => hp) (by simp) (fun _ _ _ _ hi => ?_)
          (if_neg fun h => ho (of_decide_eq_true h))
        cases hi
        omega
    · exact .unpowered rfl hp he
  | selectPanelHalf sel =>
    cases h
    unfold requireSel
    by_cases hs : sel.given = true
    · rw [if_pos hs]
      rcases gate_cases s fun s => run (selectPanelHalfSeq s.cfg sel) s with ⟨hp, he⟩ | ⟨hp, he⟩
      · exact .runs hs (fun _ => hp) (by simp) (by simp) he
      · exact .unpowered rfl hp he
    · rw [if_neg hs]
      exact .selector (by simpa [Instr.wellFormed] using hs) rfl
  | resume =>
    cases h
    by_cases hp : s.ps = .on
    · exact .resumeOn rfl hp (by simp [gpioConfigured, hp, run])
    · exact .runs rfl (by simp [isGated]) (fun _ => .inr ⟨rfl, hp⟩) (by simp) (by simp [gpioConfigured, hp, fullSeq])
  | suspend =>
    cases h
    by_cases hp : s.ps = .on
    · exact .runs rfl (by simp [isGated]) (fun _ => .inl ⟨rfl, hp⟩) (by simp) (by simp [gpioConfigured, hp, fullSeq])
    · exact .suspendOff rfl hp (by simp [gpioConfigured, hp, suspendSeq, run, isSilent, advance, complete])
  | resetSequence d1 d2 d3 d4 d5 =>
    cases h
    rcases gate_cases s fun s => run (resetSequenceSeq d1 d2 d3 d4 d5) s with ⟨hp, he⟩ | ⟨hp, he⟩
    · exact .runs rfl (fun _ => hp) (by simp) (by simp) he
    · exact .unpowered rfl hp he
  | waitBusy lvl =>
    cases h
    rcases gate_cases s fun s => run (waitBusySeq lvl) s with ⟨hp, he⟩ | ⟨hp, he⟩
    · exact .runs rfl (fun _ => hp) (by simp) (by simp) he
    · exact .unpowered rfl hp he

end Sys2Proof.Machine
end

