-- ==== Sys2Proof/Laws/PerInstr.lean ====
section
/-! SUPPORT. One lemma per operation about its encoding: the words handed to the port are as many as the OP field alone
says (spec/30_encoding.md R74, R81), and the operation word has the operation's OP code and both reserved fields 0 (R71). -/

namespace Sys2Proof.Laws.EncodeLength

/-- The encoding of the operation is as long as its OP field says, and its word is in form. -/
def Statement (i : Instr) : Prop :=
  (encode i).length = operationLength (opField i.word) ∧ opField i.word = i.opcode.code ∧
  reservedBit i.word = 0#1 ∧ reservedByte i.word = 0#8

/-- The word of an operation is built by `opWord` from its OP code. -/
theorem of_opWord (i : Instr) (dat idx : Byte) (lvl : BitVec 1) (sel : BitVec 2)
    (hw : i.word = opWord dat idx lvl sel i.opcode.code) (hn : i.operands.length = i.opcode.operandWords) :
    Statement i := by
  simp only [Statement, encode, List.length_cons, hn, hw, opField_opWord, reservedBit_opWord, reservedByte_opWord,
    operationLength, operandCount, opMap_code, and_self, and_true]
  exact Nat.add_comm ..

theorem sendCommand (idx : Byte) : Statement (.sendCommand idx) := of_opWord _ _ _ _ _ rfl rfl
theorem sendCommandWithByte (idx dat : Byte) : Statement (.sendCommandWithByte idx dat) := of_opWord _ _ _ _ _ rfl rfl
theorem sendCommandWithByteSelect (idx dat : Byte) (sel : Sel) : Statement (.sendCommandWithByteSelect idx dat sel) :=
  of_opWord _ _ _ _ _ rfl rfl
theorem sendFixedValueRun (idx dat : Byte) (count : Word) (sel : Sel) :
    Statement (.sendFixedValueRun idx dat count sel) := of_opWord _ _ _ _ _ rfl rfl
theorem sendIndexedBuffer (idx : Byte) (buf len : Word) (sel : Sel) :
    Statement (.sendIndexedBuffer idx buf len sel) := of_opWord _ _ _ _ _ rfl rfl
theorem selectPanelHalf (sel : Sel) : Statement (.selectPanelHalf sel) := of_opWord _ _ _ _ _ rfl rfl
theorem resume : Statement .resume := of_opWord _ _ _ _ _ rfl rfl
theorem suspend : Statement .suspend := of_opWord _ _ _ _ _ rfl rfl
theorem resetSequence (d1 d2 d3 d4 d5 : Word) : Statement (.resetSequence d1 d2 d3 d4 d5) :=
  of_opWord _ _ _ _ _ rfl rfl
theorem waitBusy (lvl : Level) : Statement (.waitBusy lvl) := of_opWord _ _ _ _ _ rfl rfl

end Sys2Proof.Laws.EncodeLength
end

