-- ==== Sys2Proof/Laws/Step.lean ====
section
/-! SUPPORT. Everything a step can do, said once. -/

namespace Sys2Proof.Machine

/-- The state with the host's next move made. -/
def moved (s : State) : State := { s with agenda := s.agenda.tail }

/-- What a step that answers a next state did: nothing (no host move is left), a host access, a faulting issue, an accepted
operation run by `exec`, or the operation in flight going on. -/
inductive StepCase (s t : State) : Prop where
  | rest (hp : s.port = .idle) (ha : s.agenda = []) (ht : t = s)
  | read (r : HostReg) (ha : s.agenda.head?.map HostMove.action = some (.readReg r)) (ht : t = hostRead r (moved s))
  | write (r : HostReg) (v : Word) (ha : s.agenda.head?.map HostMove.action = some (.writeReg r v))
      (ht : t = moved s)
  | memWrite (a : Word) (b : Byte) (ha : s.agenda.head?.map HostMove.action = some (.memWrite a b))
      (ht : t = Machine.memWrite a.toNat b (moved s))
  | memRefuse (a : Word) (ha : s.agenda.head?.map HostMove.action = some (.memRefuse a))
      (ht : t = Machine.memRefuse a.toNat (moved s))
  | overlap (hf : s.fault = .none) (hp : s.port ≠ .idle) (ht : t = raise .overlap none (moved s))
  | illegal (words : List Word) (e : DecodeError) (hf : s.fault = .none) (hp : s.port = .idle)
      (ha : s.agenda.head?.map HostMove.action = some (.issue words)) (hd : decode words = .error e)
      (he : e ≠ .wordCount) (ht : t = raise .illegalOp none (accept words (moved s)))
  | accepted (words : List Word) (i : Instr) (hf : s.fault = .none) (hp : s.port = .idle)
      (ha : s.agenda.head?.map HostMove.action = some (.issue words)) (hd : decode words = .ok i)
      (ht : exec i (accept words (moved s)) = .next t)
  | going (words : List Word) (todo : List Micro) (hp : s.port = .executing words todo) (ht : t = run todo s)

theorem hostTurn_step {s t : State}
    (h : (match hostTurn s with
      | .hold s' => Host.Outcome.next s'
      | .run i s' => exec i s'
      | .stop f => .fault f
      | .outside r => .refused r) = Host.Outcome.next t)
    (hidle : s.agenda = [] → s.port = .idle) : StepCase s t := by
  unfold hostTurn at h
  cases hag : s.agenda with
  | nil => simp only [hag] at h; cases h; exact .rest (hidle hag) hag rfl
  | cons mv rest =>
    simp only [hag] at h
    have hm : ({ s with agenda := rest } : State) = moved s := by simp [moved, hag]
    rw [hm] at h
    cases hact : mv.action with
    | readReg r => simp only [hact, hostAct] at h; cases h; exact .read r (by simp [hag, hact]) rfl
    | writeReg r v => simp only [hact, hostAct] at h; cases h; exact .write r v (by simp [hag, hact]) rfl
    | memWrite a b =>
      simp only [hact, hostAct] at h
      split at h
      · next heq => split at heq <;> cases heq; cases h; exact .memWrite a b (by simp [hag, hact]) rfl
      · next heq => split at heq <;> cases heq
      · cases h
      · cases h
    | memRefuse a => simp only [hact, hostAct] at h; cases h; exact .memRefuse a (by simp [hag, hact]) rfl
    | issue words =>
      simp only [hact, hostAct, issue] at h
      have hmf : (moved s).fault = s.fault := rfl
      have hmp : (moved s).port = s.port := rfl
      by_cases hf : s.fault = .none
      · by_cases hp : s.port = .idle
        · cases hd : decode words with
          | ok i =>
            simp [hmf, hmp, hf, hp, hd] at h
            exact .accepted words i hf hp (by simp [hag, hact]) hd h
          | error e =>
            cases e with
            | wordCount => simp [hmf, hmp, hf, hp, hd] at h
            | _ =>
              simp [hmf, hmp, hf, hp, hd] at h
              exact .illegal words _ hf hp (by simp [hag, hact]) hd (by simp) h.symm
        · simp [hmf, hmp, hf, hp] at h
          exact .overlap hf hp h.symm
      · simp [hmf, hf] at h

/-- Inversion of the step: every next state comes about in one of these ways. -/
theorem step_cases {s t : State} (h : step s = .next t) : StepCase s t := by
  unfold step fetch at h
  cases hp : s.port with
  | idle => simp only [hp] at h; exact hostTurn_step h fun _ => hp
  | executing words todo =>
    simp only [hp] at h
    by_cases hd : hostDue s = true
    · simp only [hd, if_true] at h
      exact hostTurn_step h fun ha => by simp [hostDue, ha] at hd
    · simp only [hd] at h
      cases hw : waitsForRead todo s with
      | none => simp [hw] at h; exact .going words todo hp h.symm
      | some a =>
        by_cases hc : hostCounts s = true
        · simp only [hw, hc, if_true] at h
          exact hostTurn_step h fun ha => by simp [hostCounts, ha] at hc
        · simp [hw, hc] at h

end Sys2Proof.Machine
end

