-- ==== Sys2Proof/Tests/Slice0.lean ====
section
/-! SUPPORT. Tests of single steps against spec/95_test_vectors.md, and for every statement with hypotheses a concrete state
and operands that meet them. Expected results come from the spec's worked words, traces and STATUS values. -/

open Sys2Proof Sys2Proof.Machine

namespace Sys2Proof.Tests

/-! ### Configurations and states of 95_test_vectors.md section 0 -/

def s2 : Configuration := { scenarioS1 with family := .small }
def s4 : Configuration := { scenarioS1 with csS := NC }
def s5 : Configuration := { scenarioS1 with dc := NC }
def s6 : Configuration := { scenarioS1 with csM := NC }
def s7 : Configuration := { scenarioS1 with rail := 15#8 }
def s8 : Configuration :=
  { s7 with flashCS2 := 22#8, sdCS := 21#8, sdDetect := 20#8
            extPins := [⟨30#8, .output (some .low)⟩, ⟨31#8, .input⟩] }
def s9 : Configuration := { scenarioS1 with reset := NC }
def s10 : Configuration := { scenarioS1 with busy := NC }

/-- S1 with `T_SELECT_SETTLE` 100 (V-F28). -/
def s1t : Configuration := { scenarioS1 with tSelectSettle := 100#32 }

/-- S2 with `SETTLE_PER_BYTE` (V-F14). -/
def s2p : Configuration := { s2 with settlePerByte := true }

/-- MEM1. -/
def mem1 : List Host.Cell := [(0x1000, 0xAA#8), (0x1001, 0xBB#8), (0x1002, 0xCC#8), (0xFFFFFFFF, 0x5A#8)]

/-- ON0 on a configuration: one `resume` after reset; with MEM1. -/
def on0 (c : Configuration) : State := { run (resumeSeq c) (State.launch c) with hostMem := mem1 }

/-- RS0 with MEM1. -/
def rs0 (c : Configuration) : State := { State.launch c with hostMem := mem1 }

/-- The state a step leaves, `s` itself if it stops. -/
def next (s : State) : State :=
  match step s with
  | .next t => t
  | .fault _ | .refused _ => s

/-- The fault a step ends the run with. -/
def stops (s : State) : Option Fault :=
  match step s with
  | .fault f => some f
  | .next _ | .refused _ => none

/-- The state after one step that issues these words. -/
def issued (s : State) (words : List Word) : State := next (placeIssue words s)

/-- What that step shows. -/
def shows (s : State) (words : List Word) : List Shown :=
  ((issued s words).trace.drop s.trace.length).map showEvent

/-- STATUS after it. -/
def statusAfter (s : State) (words : List Word) : Word := statusWord (issued s words)

/-! ### WellFormed: an ill-formed term for each check is refused, a well-formed one admitted -/

theorem test_wellFormed_refuses_select_without_selector :
    (Instr.sendCommandWithByteSelect 0xA1#8 0x00#8 .omitted).wellFormed = false := by decide
theorem test_wellFormed_refuses_half_without_selector : (Instr.selectPanelHalf .omitted).wellFormed = false := by decide
theorem test_wellFormed_admits_selectors :
    (Instr.sendCommandWithByteSelect 0xA1#8 0x00#8 .both).wellFormed = true ∧
    (Instr.selectPanelHalf .slave).wellFormed = true ∧
    (Instr.sendFixedValueRun 0x13#8 0xFF#8 1#32 .omitted).wellFormed = true ∧
    (Instr.sendIndexedBuffer 0x10#8 0x1000#32 3#32 .omitted).wellFormed = true := by decide

/-! ### Decode: a word for every constructor, and the illegal words (95_test_vectors.md section 2.1) -/

theorem test_decode_sendCommand : decode [0x00001201#32] = .ok (.sendCommand 0x12#8) := by rfl
theorem test_decode_sendCommandWithByte : decode [0x00801202#32] = .ok (.sendCommandWithByte 0x12#8 0x80#8) := by rfl
theorem test_decode_sendCommandWithByteSelect :
    decode [0x0000A113#32] = .ok (.sendCommandWithByteSelect 0xA1#8 0x00#8 .master) ∧
    decode [0x0000A123#32] = .ok (.sendCommandWithByteSelect 0xA1#8 0x00#8 .slave) ∧
    decode [0x0000A133#32] = .ok (.sendCommandWithByteSelect 0xA1#8 0x00#8 .both) := ⟨rfl, rfl, rfl⟩
theorem test_decode_sendFixedValueRun :
    decode [0x00FF1304#32, 0x00000001#32] = .ok (.sendFixedValueRun 0x13#8 0xFF#8 1#32 .omitted) ∧
    decode [0x00FF1314#32, 0x00000002#32] = .ok (.sendFixedValueRun 0x13#8 0xFF#8 2#32 .master) := ⟨rfl, rfl⟩
theorem test_decode_sendIndexedBuffer :
    decode [0x00001005#32, 0x00001000#32, 0x00000003#32] =
      .ok (.sendIndexedBuffer 0x10#8 0x1000#32 3#32 .omitted) ∧
    decode [0x00001035#32, 0x00001000#32, 0x00000003#32] =
      .ok (.sendIndexedBuffer 0x10#8 0x1000#32 3#32 .both) := ⟨rfl, rfl⟩
theorem test_decode_selectPanelHalf : decode [0x00000016#32] = .ok (.selectPanelHalf .master) := by rfl
theorem test_decode_resume : decode [0x00000008#32] = .ok .resume := by rfl
theorem test_decode_suspend : decode [0x00000009#32] = .ok .suspend := by rfl
theorem test_decode_resetSequence :
    decode [0x0000000A#32, 20#32, 5#32, 6#32, 7#32, 8#32] = .ok (.resetSequence 20#32 5#32 6#32 7#32 8#32) := by rfl
theorem test_decode_waitBusy :
    decode [0x0000000B#32] = .ok (.waitBusy .low) ∧ decode [0x0000004B#32] = .ok (.waitBusy .high) := ⟨rfl, rfl⟩

theorem test_decode_reserved_op :
    decode [0x00000000#32] = .error .reservedOp ∧ decode [0x00000007#32] = .error .reservedOp ∧
    decode [0x0000000C#32] = .error .reservedOp ∧ decode [0x0000000D#32] = .error .reservedOp ∧
    decode [0x0000000E#32] = .error .reservedOp ∧ decode [0x0000000F#32] = .error .reservedOp :=
  ⟨rfl, rfl, rfl, rfl, rfl, rfl⟩
theorem test_decode_reserved_field :
    decode [0x80000001#32] = .error .reservedField ∧ decode [0x00000081#32] = .error .reservedField ∧
    decode [0x0000008B#32] = .error .reservedField := ⟨rfl, rfl, rfl⟩
theorem test_decode_unused_field :
    decode [0x00FF1201#32] = .error .unusedField ∧ decode [0x00000018#32] = .error .unusedField ∧
    decode [0x00FF1005#32, 0#32, 0#32] = .error .unusedField ∧
    decode [0x0000004A#32, 1#32, 2#32, 3#32, 4#32, 5#32] = .error .unusedField := ⟨rfl, rfl, rfl, rfl⟩
theorem test_decode_selector_required :
    decode [0x0000A103#32] = .error .selectorRequired ∧ decode [0x00000006#32] = .error .selectorRequired := ⟨rfl, rfl⟩
theorem test_decode_word_count :
    decode [] = .error .wordCount ∧ decode [0x00001201#32, 0#32] = .error .wordCount ∧
    decode [0x00FF1304#32] = .error .wordCount ∧ decode [0x0000000C#32, 0#32] = .error .wordCount :=
  ⟨rfl, rfl, rfl, rfl⟩

/-- The words the encoder writes are those of 95_test_vectors.md section 2.1. -/
theorem test_encode :
    encode (.sendCommandWithByteSelect 0xA1#8 0x00#8 .both) = [0x0000A133#32] ∧
    encode (.sendFixedValueRun 0x13#8 0xFF#8 2#32 .master) = [0x00FF1314#32, 2#32] ∧
    encode (.waitBusy .high) = [0x0000004B#32] := by decide

/-- The table's numbering: bit 0 is the least significant bit of the operation word, operand words follow. -/
theorem test_decodeTableWord :
    decodeTableWord 64 0x0000000200FF1314 = some (.sendFixedValueRun 0x13#8 0xFF#8 2#32 .master) ∧
    decodeTableWord 32 0x00FF1304 = some (.sendFixedValueRun 0x13#8 0xFF#8 0#32 .omitted) ∧
    decodeTableWord 32 0x00000000 = none := ⟨rfl, rfl, rfl⟩

/-! ### One step of each operation (95_test_vectors.md sections 1 and 2) -/

/-- V-F1. -/
theorem test_sendCommand :
    shows (on0 scenarioS1) [0x00001201#32] =
      [.W 12#8 .low, .W 17#8 .low, .Dus 50#32, .X 0x12#8, .Dus 50#32, .W 17#8 .high] ∧
    statusAfter (on0 scenarioS1) [0x00001201#32] = 0x00000002#32 := by decide
/-- V-F25: the fault at `csM` comes after `W(12,L)`. -/
theorem test_sendCommand_hazard :
    shows (on0 s6) [0x00001201#32] = [.W 12#8 .low] ∧ statusAfter (on0 s6) [0x00001201#32] = 0x00000042#32 := by decide
/-- V-F3. -/
theorem test_sendCommandWithByte :
    shows (on0 scenarioS1) [0x00801202#32] =
      [.W 12#8 .low, .W 17#8 .low, .Dus 50#32, .X 0x12#8, .Dus 50#32, .W 12#8 .high, .Dus 50#32, .X 0x80#8,
       .Dus 50#32, .W 17#8 .high] := by decide
/-- E2, with the settle of V-F28. -/
theorem test_sendCommandWithByteSelect :
    shows (on0 s1t) [0x0000A133#32] =
      [.W 12#8 .low, .W 17#8 .low, .W 14#8 .low, .Dus 100#32, .X 0xA1#8, .Dus 50#32, .W 12#8 .high, .Dus 50#32,
       .X 0x00#8, .Dus 50#32, .W 17#8 .high, .W 14#8 .high] := by decide
/-- V-F7: SLAVE with the slave line not connected. -/
theorem test_sendCommandWithByteSelect_no_slave :
    shows (on0 s4) [0x0000A123#32] =
      [.W 12#8 .low, .W 17#8 .high, .Dus 50#32, .X 0xA1#8, .Dus 50#32, .W 12#8 .high, .Dus 50#32, .X 0x00#8,
       .Dus 50#32, .W 17#8 .high] := by decide
/-- V-F10: OMITTED is both halves, without the broadcast settle. -/
theorem test_sendFixedValueRun :
    shows (on0 scenarioS1) [0x00FF1304#32, 1#32] =
      [.W 12#8 .low, .W 17#8 .low, .W 14#8 .low, .Dus 50#32, .X 0x13#8, .Dus 50#32, .W 12#8 .high, .Dus 50#32,
       .X 0xFF#8, .Dus 50#32, .W 17#8 .high, .W 14#8 .high] := by decide
/-- V-F14: the settles of each byte. -/
theorem test_sendFixedValueRun_per_byte :
    shows (on0 s2p) [0x00FF1304#32, 2#32] =
      [.W 12#8 .low, .W 17#8 .low, .Dus 50#32, .X 0x13#8, .Dus 50#32, .W 12#8 .high, .Dus 50#32, .X 0xFF#8,
       .Dus 50#32, .Dus 50#32, .X 0xFF#8, .Dus 50#32, .W 17#8 .high] := by decide
/-- E7: the broadcast. -/
theorem test_sendIndexedBuffer :
    shows (on0 scenarioS1) [0x00001005#32, 0x00001000#32, 3#32] =
      [.W 12#8 .low, .W 17#8 .low, .W 14#8 .low, .Dus 50#32, .X 0x10#8, .Dus 50#32, .Dus 450#32, .W 12#8 .high,
       .Dus 50#32, .X 0xAA#8, .X 0xBB#8, .X 0xCC#8, .Dus 50#32, .W 17#8 .high, .W 14#8 .high] ∧
    (issued (on0 scenarioS1) [0x00001005#32, 0x00001000#32, 3#32]).memHistory =
      [(0x1000, 0xAA#8), (0x1001, 0xBB#8), (0x1002, 0xCC#8)] := by decide
/-- V-F18, V-F19, V-F20: the last address, one past it, and unpowered. -/
theorem test_sendIndexedBuffer_range :
    statusAfter (on0 scenarioS1) [0x00001005#32, 0xFFFFFFFF#32, 1#32] = 0x00000002#32 ∧
    statusAfter (on0 scenarioS1) [0x00001005#32, 0xFFFFFFFF#32, 2#32] = 0x00000052#32 ∧
    statusAfter (rs0 scenarioS1) [0x00001005#32, 0xFFFFFFFF#32, 2#32] = 0x00000030#32 := by decide
/-- E9 and V-F22. -/
theorem test_selectPanelHalf :
    shows (on0 scenarioS1) [0x00000026#32] = [.W 17#8 .high, .W 14#8 .low, .Dus 50#32] ∧
    shows (on0 s2) [0x00000026#32] = [.W 17#8 .low, .Dus 50#32] := by decide
/-- V-L2. -/
theorem test_resume :
    shows (rs0 s8) [0x00000008#32] =
      [.INIT, .M 15#8 .output, .W 15#8 .high, .M 13#8 .input, .M 12#8 .output, .W 12#8 .high, .M 11#8 .output,
       .W 11#8 .high, .M 17#8 .output, .W 17#8 .high, .M 14#8 .output, .W 14#8 .high, .M 10#8 .output, .W 10#8 .high,
       .M 22#8 .output, .W 22#8 .high, .M 21#8 .output, .W 21#8 .high, .M 20#8 .input, .M 30#8 .output, .W 30#8 .low,
       .M 31#8 .input] ∧
    statusAfter (rs0 s8) [0x00000008#32] = 0x00000002#32 := by decide
/-- V-L3: a second `resume` does nothing. -/
theorem test_resume_again : shows (on0 scenarioS1) [0x00000008#32] = [] := by decide
/-- V-L4 and V-L5. -/
theorem test_suspend :
    shows (on0 s7) [0x00000009#32] = [.W 15#8 .low] ∧ statusAfter (on0 s7) [0x00000009#32] = 0x00000001#32 ∧
    shows (rs0 s7) [0x00000009#32] = [] ∧ statusAfter (rs0 s7) [0x00000009#32] = 0x00000001#32 := by decide
/-- E3. -/
theorem test_resetSequence :
    shows (on0 scenarioS1) [0x0000000A#32, 20#32, 5#32, 6#32, 7#32, 8#32] =
      [.Dms 20#32, .W 11#8 .high, .Dms 5#32, .W 11#8 .low, .Dms 6#32, .W 11#8 .high, .Dms 7#32, .W 17#8 .high,
       .Dms 8#32] := by decide
/-- V-L8 and V-L9. -/
theorem test_resetSequence_faults :
    shows (on0 s9) [0x0000000A#32, 20#32, 5#32, 5#32, 5#32, 5#32] = [.Dms 20#32] ∧
    statusAfter (on0 s9) [0x0000000A#32, 20#32, 5#32, 5#32, 5#32, 5#32] = 0x00000042#32 ∧
    statusAfter (rs0 scenarioS1) [0x0000000A#32, 20#32, 5#32, 5#32, 5#32, 5#32] = 0x00000030#32 := by decide
/-- V-L11, and the first turn of V-L10. -/
theorem test_waitBusy :
    shows { on0 scenarioS1 with levelInputs := [.low] } [0x0000000B#32] = [.R 13#8 .low] ∧
    shows { on0 scenarioS1 with levelInputs := [.low] } [0x0000004B#32] = [.R 13#8 .low, .Dms 32#32] ∧
    statusAfter { on0 scenarioS1 with levelInputs := [.low] } [0x0000004B#32] = 0x00000006#32 := by decide
/-- V-L13. -/
theorem test_waitBusy_hazard : statusAfter (on0 s10) [0x0000004B#32] = 0x00000042#32 := by decide

/-! ### The port and the registers (95_test_vectors.md section 2.4) -/

/-- V-L10 after its first, missed turn. -/
def pollingState : State := issued { on0 scenarioS1 with levelInputs := [.low, .low, .low, .high] } [0x0000004B#32]

/-- A `sendFixedValueRun` (V-F9) at its third event. -/
def midFrame : State :=
  next { placeIssue [0x00FF1314#32, 2#32] (on0 scenarioS1) with
    agenda := [⟨.onCompletion, .issue [0x00FF1314#32, 2#32]⟩, ⟨.afterSteps 3, .readReg .status⟩] }

/-- E7 paused after its first event. -/
def midBuffer : State :=
  next { placeIssue [0x00001005#32, 0x00001000#32, 3#32] (on0 scenarioS1) with
    agenda := [⟨.onCompletion, .issue [0x00001005#32, 0x00001000#32, 3#32]⟩, ⟨.afterSteps 1, .readReg .status⟩] }

/-- V-P1: an issue during `waitBusy`. -/
theorem test_overlap :
    statusWord (next { pollingState with agenda := [⟨.afterSteps 0, .issue [0x00001201#32]⟩] }) = 0x00000022#32 ∧
    (next { pollingState with agenda := [⟨.afterSteps 0, .issue [0x00001201#32]⟩] }).opIndex = pollingState.opIndex := by
  decide
/-- V-P2: a stopped PFPS has no step. -/
theorem test_stopped :
    stops { issued (on0 scenarioS1) [0x0000A103#32] with agenda := [⟨.onCompletion, .issue [0x00001201#32]⟩] } =
      some (.stopped .illegalOp) := by decide
/-- V-P3 and section 2.1: ILLEGAL_OP without an event, unpowered and powered. -/
theorem test_illegal :
    statusAfter (rs0 scenarioS1) [0x00000000#32] = 0x00000010#32 ∧
    statusAfter (on0 scenarioS1) [0x00000000#32] = 0x00000012#32 ∧ shows (on0 scenarioS1) [0x00000000#32] = [] := by
  decide
/-- V-P4: STATUS read during an operation. -/
theorem test_status_read : (next midFrame).hostReads = [(.status, 0x00000006#32)] := by decide
/-- V-P5. -/
theorem test_cfg_reads :
    readReg State.reset (.cfgPin .busy) = 13#32 ∧ readReg State.reset (.cfgPin .csM) = 17#32 ∧
    readReg State.reset (.cfgPin .csS) = 14#32 ∧ readReg State.reset (.cfgPin .flashCS2) = 0xFF#32 ∧
    readReg State.reset .cfgFamily = 2#32 ∧ readReg State.reset .cfgDelayCS = 50#32 := by decide
/-- V-P6: family code 3 has no launch. -/
theorem test_family_code_3 : launchOf { familyCode := 3#2 } = none ∧ launchOf { familyCode := 2#2 } ≠ none := by decide
/-- R203 step 1: a program needs the roles its own operations drive. -/
theorem test_validForBoot :
    validForBoot s9 [.resume, .sendCommand 0x12#8] = true ∧ validForBoot s9 [.resetSequence 1#32 1#32 1#32 1#32 1#32] = false ∧
    validForBoot s10 [.waitBusy .high] = false ∧ validForBoot s4 [.selectPanelHalf .slave] = true := by decide
/-- V-F21: a refused read stops the run. -/
theorem test_refused_read :
    stops (issued { on0 scenarioS1 with hostMem := [(0x1000, 0xAA#8)] } [0x00001005#32, 0x00001000#32, 3#32]) =
      some (.refusedRead 0x1001) := by decide
/-- `State.withFetchWord` makes an operation the very first step after reset. -/
theorem test_withFetchWord : (next (State.reset.withFetchWord 32 0x00000008)).ps = .on := by decide

/-! ### Witnesses: for every statement with hypotheses, a state and operands that meet them -/

/-! Encoding. -/

theorem witness_DecodeOfEncodeIsTheOperation :
    (Instr.sendIndexedBuffer 0xFF#8 0xFFFFFFFF#32 0#32 .both).wellFormed = true ∧
    (Instr.selectPanelHalf .both).wellFormed = true := by decide
theorem witness_EveryLegalIssueIsAnEncoding :
    decode [0x00FFFF34#32, 0xFFFFFFFF#32] = .ok (.sendFixedValueRun 0xFF#8 0xFF#8 0xFFFFFFFF#32 .both) := by rfl
theorem witness_LegalWordsMatchExactlyOneRow_legal :
    [0xFFFFFFFF#32].length = operandCount ((0x00FFFF34#32 : Word).extractLsb' 0 4) ∧
    decode [0x00FFFF34#32, 0xFFFFFFFF#32] = .ok (.sendFixedValueRun 0xFF#8 0xFF#8 0xFFFFFFFF#32 .both) := ⟨rfl, rfl⟩
theorem witness_LegalWordsMatchExactlyOneRow_none :
    ([] : List Word).length = operandCount ((0x0000A103#32 : Word).extractLsb' 0 4) ∧
    ∀ r ∈ encodingRows, ¬ rowMatches r 0x0000A103#32 := by unfold rowMatches; decide
theorem witness_SpelledOperationsAssemble :
    (Instr.sendCommandWithByteSelect 0xFF#8 0x00#8 .master).wellFormed = true := by decide
/-- A decimal line is accepted with the values it spells; COUNT, the third number of its line, is refused at 2^32. -/
theorem test_assemble :
    assemble .sendFixedValueRun [.num (.dec [1, 9]), .num (.dec [0, 2, 5, 5]), .num (.dec [4, 2]), .sel .both] =
      some (.sendFixedValueRun 19#8 255#8 42#32 .both) ∧
    assemble .sendFixedValueRun [.num (.dec [1, 9]), .num (.dec [2, 5, 5]), .num (.hex [1, 0, 0, 0, 0, 0, 0, 0, 0])] =
      none := by decide
theorem witness_AssemblerRefusesWhatDoesNotFit :
    assemble .sendCommand [.num (.hex [15, 15])] = some (.sendCommand 0xFF#8) ∧
    ((numericWidths .sendCommandWithByte)[1]? = some 8 ∧ numeralValue (.hex [1, 0, 0]) ≥ 2 ^ 8) ∧
    ((numericWidths .resetSequence)[4]? = some 32 ∧ numeralValue (.dec [4, 2, 9, 4, 9, 6, 7, 2, 9, 6]) ≥ 2 ^ 32) := by
  decide

/-! The port. -/

theorem witness_StepRunsTheDecodedOperation :
    issuesNext (placeIssue [0x00001201#32] (on0 scenarioS1)) [0x00001201#32] ∧
    decode [0x00001201#32] = .ok (.sendCommand 0x12#8) := ⟨⟨rfl, rfl, rfl⟩, rfl⟩
theorem witness_PlacedOperationRunsNext : decodeTableWord 32 0x0000004B = some (.waitBusy .high) := by rfl
theorem witness_ReservedEncodingsOnlyFault :
    (issuesNext (placeIssue [0x0000000F#32] (rs0 scenarioS1)) [0x0000000F#32] ∧
      ([] : List Word).length = operandCount ((0x0000000F#32 : Word).extractLsb' 0 4) ∧
      (0x0000000F#32 : Word).extractLsb' 0 4 ∈ reservedOps) ∧
    (issuesNext (placeIssue [0x00000081#32] (on0 scenarioS1)) [0x00000081#32] ∧
      (0x00000081#32 : Word).extractLsb' 7 1 ≠ 0#1) ∧
    (issuesNext (placeIssue [0xFF000001#32] (on0 scenarioS1)) [0xFF000001#32] ∧
      (0xFF000001#32 : Word).extractLsb' 24 8 ≠ 0#8) ∧
    issuesNext (placeIssue [0x00000000#32] (rs0 scenarioS1)) [0x00000000#32] := by unfold issuesNext; decide
theorem witness_IllegalOperationsRaiseIllegalOp_illegal :
    [1#32, 2#32, 3#32, 4#32, 5#32].length = operandCount ((0x0000004A#32 : Word).extractLsb' 0 4) ∧
    issuesNext (placeIssue [0x0000004A#32, 1#32, 2#32, 3#32, 4#32, 5#32] (on0 scenarioS1))
      [0x0000004A#32, 1#32, 2#32, 3#32, 4#32, 5#32] ∧
    illegalWord 0x0000004A#32 :=
  ⟨rfl, ⟨rfl, rfl, rfl⟩, by unfold illegalWord; decide⟩
theorem witness_illegalWord_each_condition :
    (0x00000000#32 : Word).extractLsb' 0 4 ∈ reservedOps ∧ (0x00000081#32 : Word).extractLsb' 7 1 ≠ 0#1 ∧
    (0x80000001#32 : Word).extractLsb' 24 8 ≠ 0#8 ∧
    ((0x00000018#32 : Word).extractLsb' 0 4 ∉ opsWithSel ∧ (0x00000018#32 : Word).extractLsb' 4 2 ≠ 0#2) ∧
    ((0x00000041#32 : Word).extractLsb' 0 4 ∉ opsWithLvl ∧ (0x00000041#32 : Word).extractLsb' 6 1 ≠ 0#1) ∧
    ((0x0000FF08#32 : Word).extractLsb' 0 4 ∉ opsWithIdx ∧ (0x0000FF08#32 : Word).extractLsb' 8 8 ≠ 0#8) ∧
    ((0x00FF1201#32 : Word).extractLsb' 0 4 ∉ opsWithDat ∧ (0x00FF1201#32 : Word).extractLsb' 16 8 ≠ 0#8) ∧
    ((0x00000006#32 : Word).extractLsb' 0 4 ∈ opsRequiringSel ∧ (0x00000006#32 : Word).extractLsb' 4 2 = 0#2) := by
  decide
theorem witness_IllegalOperationsRaiseIllegalOp_legal :
    issuesNext (placeIssue [0x00000016#32] (on0 scenarioS1)) [0x00000016#32] ∧ ¬ illegalWord 0x00000016#32 := by
  unfold issuesNext illegalWord; decide
theorem witness_IssueWhileExecutingOverlaps :
    decode [0x00001201#32] = .ok (.sendCommand 0x12#8) ∧ pollingState.fault = .none ∧ pollingState.port = .executing [0x0000004B#32] [.poll .high] ∧
    ({ pollingState with agenda := [⟨.afterSteps 0, .issue [0x00001201#32]⟩] } : State).agenda =
      ⟨.afterSteps 0, .issue [0x00001201#32]⟩ :: [] :=
  ⟨rfl, by decide, by decide, rfl⟩

/-- V-F21: stuck on a refused read, with an issue that does not wait for completion. -/
def stuckState : State :=
  { issued { on0 scenarioS1 with hostMem := [(0x1000, 0xAA#8)] } [0x00001005#32, 0x00001000#32, 3#32] with
    agenda := [⟨.afterSteps 7, .issue [0x00001201#32]⟩] }

theorem witness_IssueWhileExecutingOverlaps_stuck :
    stuckState.fault = .none ∧ (∃ words todo, stuckState.port = .executing words todo ∧
      (waitsForRead todo stuckState).isSome = true) ∧
    stuckState.agenda = ⟨.afterSteps 7, .issue [0x00001201#32]⟩ :: [] :=
  ⟨by decide, ⟨_, _, rfl, by decide⟩, rfl⟩

/-- V-P2: an issue to a stopped PFPS. -/
def stoppedState : State :=
  { issued (rs0 scenarioS1) [0x00001201#32] with agenda := [⟨.afterSteps 0, .issue [0x00000008#32]⟩] }

/-- Two words for `sendCommand`: no issue, on an idle, on a busy and on a stopped PFPS. -/
theorem witness_WrongLengthListsAreNoIssue :
    decode [0x00001201#32, 0#32] = .error .wordCount ∧
    issuesNext (placeIssue [0x00001201#32, 0#32] (on0 scenarioS1)) [0x00001201#32, 0#32] ∧
    pollingState.fault = .none ∧ pollingState.port = .executing [0x0000004B#32] [.poll .high] ∧
    stoppedState.fault ≠ .none ∧ hostsTurn { stoppedState with agenda := [⟨.onCompletion, .issue []⟩] } :=
  ⟨rfl, ⟨rfl, rfl, rfl⟩, by decide, by decide, by decide, .inl rfl⟩
theorem witness_StoppedPfpsTakesNoIssue :
    stoppedState.port = .idle ∧ stoppedState.fault ≠ .none ∧
    stoppedState.agenda = ⟨.afterSteps 0, .issue [0x00000008#32]⟩ :: [] := by decide
theorem witness_OpIndexCountsAcceptedOperations :
    issuesNext (placeIssue [0x00000000#32] (rs0 scenarioS1)) [0x00000000#32] ∧
    decode [0x00000000#32] ≠ .error .wordCount ∧
    ∃ t, step (placeIssue [0x00000000#32] (rs0 scenarioS1)) = .next t :=
  ⟨⟨rfl, rfl, rfl⟩, fun h => (by cases h), ⟨_, rfl⟩⟩
theorem witness_FaultPriority_stopped :
    stoppedState.fault ≠ .none ∧ stoppedState.agenda = [⟨.afterSteps 0, .issue [0x00000008#32]⟩] := by decide
theorem witness_FaultPriority_overlap :
    pollingState.fault = .none ∧ pollingState.port ≠ .idle ∧
    ({ pollingState with agenda := [⟨.afterSteps 0, .issue [0#32]⟩] } : State).agenda =
      ⟨.afterSteps 0, .issue [0#32]⟩ :: [] := by decide
theorem witness_FaultPriority_illegal :
    ([] : List Word).length = operandCount ((0x00000000#32 : Word).extractLsb' 0 4) ∧
    issuesNext (placeIssue [0x00000000#32] (rs0 scenarioS1)) [0x00000000#32] ∧ illegalWord 0x00000000#32 := by
  unfold issuesNext illegalWord; decide
theorem witness_FaultPriority_overflow :
    issuesNext (placeIssue [0x00001005#32, 0xFFFFFFFF#32, 2#32] (rs0 scenarioS1))
      (encode (.sendIndexedBuffer 0x10#8 0xFFFFFFFF#32 2#32 .omitted)) ∧
    (0xFFFFFFFF#32 : Word).toNat + (2#32 : Word).toNat > 2 ^ 32 := by unfold issuesNext; decide
theorem witness_FaultPriority_gate :
    isGated (.sendCommand 0x12#8) = true ∧ (Instr.sendCommand 0x12#8).wellFormed = true ∧
    (rs0 s5).fault = .none ∧ (rs0 s5).ps ≠ .on := by decide
theorem witness_FaultPriority_hazard :
    startable (on0 s6) ∧ (on0 s6).ps = .on ∧ (0xFFFFFFFF#32 : Word).toNat + (1#32 : Word).toNat ≤ 2 ^ 32 ∧
    canDrive (on0 s6) .csM = false ∧ canDrive (on0 s5) .dc = false := by unfold startable; decide
theorem witness_FaultRegisterIsSticky :
    (∃ t, step { stoppedState with agenda := [⟨.onCompletion, .readReg .status⟩] } = .next t) ∧
    stoppedState.fault ≠ .none := ⟨⟨_, rfl⟩, by decide⟩

/-! Registers, configuration, reset. -/

/-- A state whose host reads or writes a register during an operation. -/
def midAccess (act : HostAction) : State := { pollingState with agenda := [⟨.afterSteps 0, act⟩] }

theorem witness_StatusRegister :
    hostsTurn (midAccess (.readReg .status)) ∧ (midAccess (.readReg .status)).port ≠ .idle ∧
    hostsTurn { stoppedState with agenda := [⟨.onCompletion, .readReg .status⟩] } ∧
    hostsTurn (midAccess (.writeReg .status 0xFFFFFFFF#32)) :=
  ⟨.inr (.inl rfl), by decide, .inl rfl, .inr (.inl rfl)⟩
/-- The third case of `hostsTurn`: a host that counts steps, before an operation stuck on a refused read. -/
theorem witness_StatusRegister_stuck :
    hostsTurn { stuckState with agenda := [⟨.afterSteps 7, .readReg .status⟩] } ∧
    hostDue { stuckState with agenda := [⟨.afterSteps 7, .readReg .status⟩] } = false :=
  ⟨.inr (.inr ⟨rfl, _, _, rfl, by decide⟩), by decide⟩
theorem witness_ConfigurationRegisters :
    hostsTurn (midAccess (.readReg (.cfgPin .rail))) ∧ hostsTurn (midAccess (.writeReg .cfgFamily 3#32)) ∧
    (∃ t, step (midAccess (.writeReg .cfgDelayCS 0#32)) = .next t) ∧ HostReg.cfgPin .rail ≠ .status :=
  ⟨.inr (.inl rfl), .inr (.inl rfl), ⟨_, rfl⟩, by decide⟩
theorem witness_ResetState : launchOf { familyCode := 1#2 } ≠ none := by decide

/-! The framer operations. Each fault clause on a configuration that meets it. -/

theorem witness_frame_completes :
    startable (on0 scenarioS1) ∧ frameReady (on0 scenarioS1) .single ∧ frameReady (on0 scenarioS1) .both ∧
    frameReady (on0 s4) .slave := by unfold startable frameReady; decide
theorem witness_frame_not_powered : startable (rs0 scenarioS1) ∧ (rs0 scenarioS1).ps ≠ .on := by
  unfold startable; decide
theorem witness_frame_dc_hazard :
    startable (on0 s5) ∧ (on0 s5).ps = .on ∧ canDrive (on0 s5) .dc = false := by unfold startable; decide
theorem witness_frame_csM_hazard :
    startable (on0 s6) ∧ (on0 s6).ps = .on ∧ canDrive (on0 s6) .dc = true ∧ canDrive (on0 s6) .csM = false := by
  unfold startable; decide

/-- The slave chip-select's pin is an input. -/
def slaveAsInput : State := doPinMode 14#8 .input (on0 scenarioS1)

theorem witness_frame_csS_hazard :
    startable slaveAsInput ∧ slaveAsInput.ps = .on ∧ canDrive slaveAsInput .dc = true ∧
    canDrive slaveAsInput .csM = true ∧ EffSel.slave ≠ .single ∧ slaveReady slaveAsInput = false := by
  unfold startable; decide

theorem witness_SendCommand :
    startable (on0 scenarioS1) ∧ frameReady (on0 scenarioS1) .single ∧
    (issued (on0 scenarioS1) [0x00001201#32]).fault = .none ∧ scenarioS1.dc ≠ scenarioS1.csM := by
  unfold startable frameReady; decide
theorem witness_SendCommandWithByte :
    startable (on0 scenarioS1) ∧ frameReady (on0 scenarioS1) .single ∧
    (issued (on0 scenarioS1) [0x00801202#32]).fault = .none := by unfold startable frameReady; decide
theorem witness_SendCommandWithByteSelect :
    Sel.slave ≠ .omitted ∧ startable (on0 scenarioS1) ∧
    frameReady (on0 scenarioS1) (selectedHalves scenarioS1 .slave) := by unfold startable frameReady; decide
theorem witness_SendFixedValueRun :
    startable (on0 scenarioS1) ∧ frameReady (on0 scenarioS1) (selectedHalves scenarioS1 .omitted) := by
  unfold startable frameReady; decide
theorem witness_SendIndexedBuffer_completes :
    startable (on0 scenarioS1) ∧ (0x1000#32 : Word).toNat + (3#32 : Word).toNat ≤ 2 ^ 32 ∧
    frameReady (on0 scenarioS1) (selectedHalves scenarioS1 .omitted) ∧
    ∀ i < (3#32 : Word).toNat, (memRead (on0 scenarioS1) ((0x1000#32 : Word).toNat + i)).isSome = true := by
  unfold startable frameReady; decide
theorem witness_SendIndexedBuffer_last_byte :
    (0xFFFFFFFF#32 : Word).toNat + (1#32 : Word).toNat = 2 ^ 32 ∧
    ∀ i < (1#32 : Word).toNat, (memRead (on0 scenarioS1) ((0xFFFFFFFF#32 : Word).toNat + i)).isSome = true := by decide
theorem witness_SendIndexedBuffer_overflow :
    startable (on0 scenarioS1) ∧ (on0 scenarioS1).ps = .on ∧
    (0xFFFFFFFF#32 : Word).toNat + (2#32 : Word).toNat > 2 ^ 32 := by unfold startable; decide
theorem witness_SendIndexedBuffer_refused :
    startable (on0 scenarioS1) ∧ 3 < (4#32 : Word).toNat ∧ (0x1000#32 : Word).toNat + (4#32 : Word).toNat ≤ 2 ^ 32 ∧
    frameReady (on0 scenarioS1) (selectedHalves scenarioS1 .master) ∧
    (∀ i < 3, (memRead (on0 scenarioS1) ((0x1000#32 : Word).toNat + i)).isSome = true) ∧
    memRead (on0 scenarioS1) ((0x1000#32 : Word).toNat + 3) = none := by unfold startable frameReady; decide
theorem witness_SelectPanelHalf :
    Sel.slave ≠ .omitted ∧ startable (on0 scenarioS1) ∧ (on0 scenarioS1).ps = .on ∧
    canDrive (on0 scenarioS1) .csM = true ∧ scenarioS1.family = .large ∧ slaveReady (on0 scenarioS1) = true ∧
    startable (on0 s2) ∧ canDrive (on0 s2) .csM = true ∧ s2.family ≠ .large := by unfold startable; decide
theorem witness_SelectPanelHalf_faults :
    (startable (rs0 scenarioS1) ∧ (rs0 scenarioS1).ps ≠ .on) ∧
    (startable (on0 s6) ∧ (on0 s6).ps = .on ∧ canDrive (on0 s6) .csM = false) ∧
    (startable slaveAsInput ∧ slaveAsInput.ps = .on ∧ canDrive slaveAsInput .csM = true ∧
      slaveAsInput.cfg.family = .large ∧ slaveReady slaveAsInput = false) := by unfold startable; decide

/-! The power sequencer operations. -/

theorem witness_ResumeOperation :
    startable (rs0 s8) ∧ (rs0 s8).ps ≠ .on ∧ startable (on0 s8) ∧ (on0 s8).ps = .on := by unfold startable; decide

/-- The rail's pin is an input. -/
def railAsInput : State := doPinMode 15#8 .input (on0 s7)

theorem witness_SuspendOperation :
    (startable (rs0 s7) ∧ (rs0 s7).ps ≠ .on) ∧
    (startable (on0 scenarioS1) ∧ (on0 scenarioS1).ps = .on ∧ scenarioS1.rail = NC) ∧
    (startable (on0 s7) ∧ (on0 s7).ps = .on ∧ canDrive (on0 s7) .rail = true) ∧
    (startable railAsInput ∧ railAsInput.ps = .on ∧ railAsInput.cfg.rail ≠ NC ∧
      canDrive railAsInput .rail = false) := by unfold startable; decide
theorem witness_ResetSequenceOperation :
    (startable (rs0 scenarioS1) ∧ (rs0 scenarioS1).ps ≠ .on) ∧
    (startable (on0 scenarioS1) ∧ (on0 scenarioS1).ps = .on ∧ canDrive (on0 scenarioS1) .reset = true ∧
      canDrive (on0 scenarioS1) .csM = true) ∧
    (startable (on0 s9) ∧ (on0 s9).ps = .on ∧ canDrive (on0 s9) .reset = false) ∧
    (startable (on0 s6) ∧ (on0 s6).ps = .on ∧ canDrive (on0 s6) .reset = true ∧ canDrive (on0 s6) .csM = false) := by
  unfold startable; decide

theorem witness_WaitBusyTurn_scripted :
    startable { on0 scenarioS1 with levelInputs := [.low] } ∧
    drawsLevel { on0 scenarioS1 with levelInputs := [.low] } .low (on0 scenarioS1) ∧ (on0 scenarioS1).ps = .on ∧
    canSample (on0 scenarioS1) .busy = true :=
  ⟨⟨rfl, rfl⟩, .inl ⟨[], rfl, rfl⟩, by decide, by decide⟩
theorem witness_WaitBusyTurn_free :
    startable (on0 scenarioS1) ∧
    drawsLevel (on0 scenarioS1) (Config.freeLevel 0) { on0 scenarioS1 with levelDraws := 1 } :=
  ⟨⟨rfl, rfl⟩, .inr ⟨rfl, rfl, rfl⟩⟩
theorem witness_WaitBusyTurn_faults :
    (startable { rs0 scenarioS1 with levelInputs := [.low] } ∧ (rs0 scenarioS1).ps ≠ .on) ∧
    (startable { on0 s10 with levelInputs := [.low] } ∧ (on0 s10).ps = .on ∧ canSample (on0 s10) .busy = false) := by
  unfold startable; decide
theorem witness_WaitBusyWaitsAsLongAsItMisses :
    polling pollingState .high ∧ Level.low ≠ .high ∧ pollingState.levelInputs = List.replicate 2 .low ++ [.high] :=
  ⟨⟨by decide, by decide, by decide, by decide, [0x0000004B#32], by decide⟩, by decide, by decide⟩

/-! Faults, frames, laws. -/

theorem witness_GateStopsUnpoweredOperations :
    isGated (.waitBusy .low) = true ∧ (Instr.waitBusy .low).wellFormed = true ∧ (rs0 scenarioS1).fault = .none ∧
    (rs0 scenarioS1).ps ≠ .on ∧ isGated .resume = false := by decide
theorem witness_FramerOperationsFrame :
    isFramer (.sendCommand 0x12#8) = true ∧ ∃ t, exec (.sendCommand 0x12#8) (on0 scenarioS1) = .next t :=
  ⟨rfl, _, rfl⟩
theorem witness_PowerSequencerFrame :
    isFramer .suspend = false ∧ ∃ t, exec .suspend (on0 s7) = .next t := ⟨rfl, _, rfl⟩
/-- An OUTPUT extension pin without a level is driven, at a level that has no value (10_state.md R28, R29); INPUT is not. -/
theorem test_line_state :
    lineDriven (pinCell (on0 { scenarioS1 with extPins := [⟨30#8, .output none⟩] }) 30#8) = some .undef ∧
    lineDriven (pinCell (on0 scenarioS1) 12#8) = some .high ∧ lineDriven (pinCell (on0 scenarioS1) 13#8) = none ∧
    lineDriven (pinCell (rs0 scenarioS1) 12#8) = none := by decide
theorem witness_LineState :
    (∃ t, exec .suspend (on0 s7) = .next t) ∧ (12#8 : PinId) ≠ NC ∧ (12#8 : PinId) ≠ s7.rail ∧
    (Instr.sendCommand 0x12#8 ≠ .resume ∧ ∃ t, exec (.sendCommand 0x12#8) (on0 scenarioS1) = .next t) ∧
    (PortConsistent (placeIssue [0x00000008#32] (rs0 scenarioS1)) ∧
      ∃ t, step (placeIssue [0x00000008#32] (rs0 scenarioS1)) = .next t ∧
        (pinCell t 12#8).mode ≠ (pinCell (placeIssue [0x00000008#32] (rs0 scenarioS1)) 12#8).mode) :=
  ⟨⟨_, rfl⟩, by decide, by decide, ⟨by decide, _, rfl⟩, fun _ _ h => (by cases h), _, rfl, by decide⟩
/-- The host writes the byte already there; it writes into the buffer of a `sendIndexedBuffer` paused after one event. -/
theorem witness_OnlyTheHostWritesHostMemory_hostWrite :
    hostsTurn { rs0 scenarioS1 with agenda := [⟨.onCompletion, .memWrite 0x1000#32 0xAA#8⟩] } ∧
    inBufferInFlight (rs0 scenarioS1) 0x1000 = false ∧ memRead (rs0 scenarioS1) 0x1000 = some 0xAA#8 ∧
    hostsTurn { midBuffer with agenda := [⟨.afterSteps 0, .memWrite 0x1002#32 1#8⟩] } ∧
    inBufferInFlight midBuffer 0x1002 = true ∧ inBufferInFlight midBuffer 0x1003 = false :=
  ⟨.inl rfl, by decide, by decide, .inr (.inl rfl), by decide, by decide⟩
theorem witness_OnlyTheHostWritesHostMemory_refuse :
    hostsTurn { midBuffer with agenda := [⟨.afterSteps 0, .memRefuse 0x1002#32⟩] } ∧ Canonical midBuffer :=
  ⟨.inr (.inl rfl), by unfold Canonical; decide⟩
theorem witness_OnlyTheHostWritesHostMemory :
    (∃ t, exec (.sendIndexedBuffer 0x10#8 0x1000#32 3#32 .omitted) (on0 scenarioS1) = .next t) ∧
    (∃ t, step { rs0 scenarioS1 with agenda := [⟨.onCompletion, .memWrite 0x1000#32 1#8⟩] } = .next t) ∧
    (∃ t, step { rs0 scenarioS1 with agenda := [⟨.onCompletion, .memRefuse 0x1000#32⟩] } = .next t) ∧
    Canonical (rs0 scenarioS1) := ⟨⟨_, rfl⟩, ⟨_, rfl⟩, ⟨_, rfl⟩, by unfold Canonical; decide⟩

/-- A board with DC and the reset line on one pin. -/
def shared : Configuration := { scenarioS1 with reset := 12#8 }

theorem witness_SharedPinsHaveOneCell :
    pinOf (on0 shared).cfg .dc = pinOf (on0 shared).cfg .reset ∧
    ∃ t u, drive .dc .low (on0 shared) = some t ∧ drive .reset .high t = some u :=
  ⟨rfl, doPinWrite 12#8 .low (on0 shared), doPinWrite 12#8 .high (doPinWrite 12#8 .low (on0 shared)), by decide,
    by decide⟩
theorem witness_FramerLaws :
    (isFramer (.selectPanelHalf .slave) = true ∧ (on0 s2).cfg.family ≠ .large ∧ s2.csS ≠ s2.dc ∧ s2.csS ≠ s2.csM) ∧
    (startable (on0 scenarioS1) ∧ scenarioS1.family = .large ∧
      (issued (on0 scenarioS1) [0x00FF1304#32, 1#32]).port = .idle ∧
      (issued (on0 scenarioS1) [0x00FF1304#32, 1#32]).fault = .none) := by unfold startable; decide
theorem witness_ResumeNamesConnectedPinsOnly : ∃ t, exec .resume (rs0 s8) = .next t := ⟨_, rfl⟩
theorem witness_ResumeIsIdempotent :
    (on0 scenarioS1).ps = .on ∧ ∃ t, exec .resume (rs0 scenarioS1) = .next t ∧ t.port = .idle :=
  ⟨by decide, _, rfl, by decide⟩
theorem witness_SuspendIsIdempotent :
    (rs0 s7).ps ≠ .on ∧ (on0 s7).fault = .none ∧
    ∃ t, exec .suspend (on0 s7) = .next t ∧ t.port = .idle ∧ t.fault = .none ∧ ∃ u, exec .suspend t = .next u :=
  ⟨by decide, by decide, _, rfl, by decide, by decide, _, rfl⟩
theorem witness_SuspendResumeRoundTrip :
    startable (rs0 s8) ∧ (rs0 s8).ps ≠ .on ∧
    ∃ a b c, exec .resume (rs0 s8) = .next a ∧ exec .suspend a = .next b ∧ b.fault = .none ∧
      exec .resume b = .next c :=
  ⟨⟨rfl, rfl⟩, by decide, _, _, _, rfl, rfl, by decide, rfl⟩
theorem witness_DelaySums :
    startable (on0 scenarioS1) ∧ (issued (on0 scenarioS1) [0x00001201#32]).port = .idle ∧
    (issued (on0 scenarioS1) [0x00001201#32]).fault = .none ∧ polling pollingState .high ∧
    pollingState.levelInputs = List.replicate 2 .low ++ .high :: [] :=
  ⟨⟨rfl, rfl⟩, by decide, by decide, witness_WaitBusyWaitsAsLongAsItMisses.1, by decide⟩

/-! Invariants: each holds in a state with an operation in flight, and a step from there answers a next state. -/

theorem witness_StepKeepsCanonicalForm : Canonical pollingState ∧ ∃ t, step pollingState = .next t :=
  ⟨by unfold Canonical; decide, _, rfl⟩
theorem witness_StepKeepsPortConsistent :
    PortConsistent pollingState ∧ pollingState.port ≠ .idle ∧ ∃ t, step pollingState = .next t :=
  ⟨fun words todo h => by
      have hp : pollingState.port = .executing [0x0000004B#32] [.poll .high] := by decide
      rw [hp] at h
      cases h
      exact ⟨by decide, by decide, .waitBusy .high, rfl, List.suffix_refl _, fun _ => by decide⟩,
    by decide, _, rfl⟩
theorem witness_FaultEffect :
    PortConsistent (placeIssue [0x00001201#32] (on0 s6)) ∧
    ∃ t, step (placeIssue [0x00001201#32] (on0 s6)) = .next t ∧
      t.fault ≠ (placeIssue [0x00001201#32] (on0 s6)).fault :=
  ⟨fun _ _ h => (by cases h), _, rfl, by decide⟩
theorem witness_StepKeepsBankReplayOfTrace :
    BankIsReplayOfTrace (rs0 scenarioS1) ∧ BankIsReplayOfTrace (run (resumeSeq scenarioS1) (rs0 scenarioS1)) ∧
    ∃ t, step (placeIssue [0x00000008#32] (rs0 scenarioS1)) = .next t :=
  ⟨fun _ _ => rfl, fun p hp => by
      obtain ⟨new, ht, hc⟩ := (run_extends (resumeSeq scenarioS1) (rs0 scenarioS1)).trace
      rw [hc p hp, ht]
      rfl,
    _, rfl⟩
theorem witness_StepKeepsFaultConsistent :
    FaultConsistent pollingState ∧ FaultConsistent stoppedState ∧ ∃ t, step pollingState = .next t :=
  ⟨⟨fun _ => by decide, fun h => absurd (by decide) h⟩,
    ⟨fun h => absurd h (by decide), fun _ => ⟨by decide, _, rfl, by decide⟩⟩, _, rfl⟩
theorem witness_HistoriesAreAppendOnly : ∃ t, step midFrame = .next t := ⟨_, rfl⟩
theorem witness_BusIsUsedOnlyWhileOn :
    PortConsistent pollingState ∧ ∃ t, step pollingState = .next t ∧ ∃ new, addsEvents pollingState t new :=
  ⟨witness_StepKeepsPortConsistent.1, next pollingState, rfl,
    (next pollingState).trace.drop pollingState.trace.length, by unfold addsEvents; decide⟩

/-- A frame paused after its third event, its host's next move one step ahead. -/
def midFrameOne : State := { midFrame with agenda := [⟨.afterSteps 1, .readReg .status⟩] }

theorem witness_SequencerMovesOneEventAtATime :
    (∃ words todo, midFrameOne.port = .executing words todo) ∧
    midFrameOne.agenda = ⟨.afterSteps 1, .readReg .status⟩ :: [] ∧ ∃ t, step midFrameOne = .next t :=
  ⟨⟨_, _, rfl⟩, rfl, _, rfl⟩
theorem witness_LongStepsAreSingleStepsComposed :
    (∃ words todo, ({ midFrame with agenda := [⟨.afterSteps 4, .readReg .status⟩] } : State).port =
        .executing words todo ∧ todo = [.delayUs 50#32, .xfer 0x13#8] ++ todo.drop 2 ∧
      (todo.all fun m => match m with | .poll _ => false | _ => true) = true ∧
      waitsForRead todo midFrame = none) :=
  ⟨_, _, rfl, by decide, by decide, by decide⟩
/-- A host that looks in after three events: the frame pauses where its move is due, and going on without it is the rest of the
frame a waiting host sees. -/
theorem witness_CountingHostsSeeTheWaitingHostsOperation :
    (∃ t, exec (.sendFixedValueRun 0x13#8 0xFF#8 2#32 .master)
        { on0 scenarioS1 with agenda := [⟨.afterSteps 3, .readReg .status⟩] } = .next t ∧ t.port ≠ .idle ∧
      hostDue t = true) ∧
    (∃ words todo, midFrameOne.port = .executing words todo ∧ hostDue midFrameOne = false ∧
      waitsForRead todo midFrameOne = none ∧ ∃ t, step midFrameOne = .next t) :=
  ⟨⟨_, rfl, by decide, by decide⟩, _, _, rfl, by decide, by decide, _, rfl⟩
/-- A pending register read or memory write leaves a run completed; a pending issue, a fault and an operation in flight do not. -/
theorem witness_CompletedRunsAreOver :
    runCompleted { on0 scenarioS1 with
      agenda := [⟨.onCompletion, .readReg .status⟩, ⟨.onCompletion, .memWrite 0x1000#32 1#8⟩] } = true ∧
    runCompleted (placeIssue [0x00001201#32] (on0 scenarioS1)) = false ∧
    runCompleted { stoppedState with agenda := [] } = false ∧ runCompleted { pollingState with agenda := [] } = false := by
  decide
/-- A host move due at once: the gate's fault comes first, the move comes before an access that would be CONFIG_HAZARD, and a
`resume` in ON completes first (log entry 24). -/
theorem test_checks_and_due_moves :
    (next { placeIssue [0x00001201#32] (rs0 scenarioS1) with
      agenda := [⟨.onCompletion, .issue [0x00001201#32]⟩, ⟨.afterSteps 0, .readReg .status⟩] }).fault = .notPowered ∧
    (next (next { placeIssue [0x00001201#32] (on0 s5) with
      agenda := [⟨.onCompletion, .issue [0x00001201#32]⟩, ⟨.afterSteps 0, .issue [0x00001201#32]⟩] })).fault = .overlap ∧
    (next { placeIssue [0x00000008#32] (on0 scenarioS1) with
      agenda := [⟨.onCompletion, .issue [0x00000008#32]⟩, ⟨.afterSteps 0, .readReg .status⟩] }).port = .idle := by decide

end Sys2Proof.Tests
end

section
/-! SUPPORT. What a host's move does, and a coarser inversion of the step: the host accesses something and nothing
of the PFPS changes, or a fault is raised, or an accepted operation runs, or the operation in flight goes on. -/

namespace Sys2Proof.Machine

/-! ### `moved`: the host's move leaves the agenda and nothing else -/

@[simp] theorem moved_cfg (s : State) : (moved s).cfg = s.cfg := rfl
@[simp] theorem moved_ps (s : State) : (moved s).ps = s.ps := rfl
@[simp] theorem moved_pins (s : State) : (moved s).pins = s.pins := rfl
@[simp] theorem moved_fault (s : State) : (moved s).fault = s.fault := rfl
@[simp] theorem moved_port (s : State) : (moved s).port = s.port := rfl
@[simp] theorem moved_opIndex (s : State) : (moved s).opIndex = s.opIndex := rfl
@[simp] theorem moved_trace (s : State) : (moved s).trace = s.trace := rfl
@[simp] theorem moved_memHistory (s : State) : (moved s).memHistory = s.memHistory := rfl
@[simp] theorem moved_faultHistory (s : State) : (moved s).faultHistory = s.faultHistory := rfl

/-! ### Inversion of the step by what it does to the PFPS -/

/-- The PFPS is as it was: a register access, a change of host memory, or no move at all. -/
structure SamePfps (s t : State) : Prop where
  cfg : t.cfg = s.cfg
  ps : t.ps = s.ps
  pins : t.pins = s.pins
  fault : t.fault = s.fault
  port : t.port = s.port
  opIndex : t.opIndex = s.opIndex
  trace : t.trace = s.trace
  memHistory : t.memHistory = s.memHistory
  faultHistory : t.faultHistory = s.faultHistory

/-- What a step that answers a next state does to the PFPS. -/
inductive StepEffect (s t : State) : Prop where
  | access (h : SamePfps s t)
  | overlap (hf : s.fault = .none) (ht : t = raise .overlap none (moved s))
  | illegal (words : List Word) (hi : issuesNext s words)
      (ht : t = raise .illegalOp none (accept words (moved s)))
  | accepted (words : List Word) (i : Instr) (hi : issuesNext s words) (hd : decode words = .ok i)
      (ht : exec i (accept words (moved s)) = .next t)
  | going (words : List Word) (todo : List Micro) (hp : s.port = .executing words todo) (ht : t = run todo s)

theorem step_effect {s t : State} (h : step s = .next t) : StepEffect s t := by
  cases step_cases h with
  | rest _ _ ht => subst ht; exact .access ⟨rfl, rfl, rfl, rfl, rfl, rfl, rfl, rfl, rfl⟩
  | read r _ ht => subst ht; exact .access ⟨rfl, rfl, rfl, rfl, rfl, rfl, rfl, rfl, rfl⟩
  | write r v _ ht => subst ht; exact .access ⟨rfl, rfl, rfl, rfl, rfl, rfl, rfl, rfl, rfl⟩
  | memWrite a b _ ht => subst ht; exact .access ⟨rfl, rfl, rfl, rfl, rfl, rfl, rfl, rfl, rfl⟩
  | memRefuse a _ ht => subst ht; exact .access ⟨rfl, rfl, rfl, rfl, rfl, rfl, rfl, rfl, rfl⟩
  | overlap hf _ ht => exact .overlap hf ht
  | illegal words e hf hp ha _ _ ht => exact .illegal words ⟨hp, hf, ha⟩ ht
  | accepted words i hf hp ha hd ht => exact .accepted words i ⟨hp, hf, ha⟩ hd ht
  | going words todo hp ht => exact .going words todo hp ht

theorem fault_of_issuesNext {s : State} {words : List Word} (hi : issuesNext s words) : s.fault = .none := by
  obtain ⟨-, hf, -⟩ := hi
  exact hf

/-- No step writes the configuration (00_scope.md R10). -/
theorem step_cfg {s t : State} (h : step s = .next t) : t.cfg = s.cfg := by
  cases step_effect h with
  | access hs => exact hs.cfg
  | overlap _ ht => simp [ht]
  | illegal words _ ht => simp [ht]
  | accepted words i _ _ ht => exact (exec_extends i _ t ht).cfg
  | going words todo _ ht => exact ht ▸ (run_extends todo s).cfg

/-! ### The trace and the pin bank under a step -/

/-- The trace grows, and every cell becomes what the new events make of it (10_state.md R28). -/
def BankFollowsTrace (s t : State) : Prop :=
  ∃ new, addsEvents s t new ∧ ∀ p, p ≠ NC → pinCell t p = cellAfter p (pinCell s p) (new.map showEvent)

theorem BankFollowsTrace.of_same {s t : State} (hp : t.pins = s.pins) (ht : t.trace = s.trace) :
    BankFollowsTrace s t :=
  ⟨[], by simp [addsEvents, ht], fun p _ => pinCell_congr hp p⟩

theorem step_bankFollowsTrace {s t : State} (h : step s = .next t) : BankFollowsTrace s t := by
  cases step_effect h with
  | access hs => exact .of_same hs.pins hs.trace
  | overlap _ ht => exact .of_same (by simp [ht]) (by simp [ht])
  | illegal words _ ht => exact .of_same (by simp [ht]) (by simp [ht])
  | accepted words i _ _ ht => exact (exec_extends i _ t ht).trace
  | going words todo _ ht => exact ht ▸ (run_extends todo s).trace

/-- A bank that is the replay of the trace stays so while it follows the trace. -/
theorem BankIsReplayOfTrace.of_follows {s t : State} (h : BankIsReplayOfTrace s) (hf : BankFollowsTrace s t) :
    BankIsReplayOfTrace t := by
  obtain ⟨new, ht, hc⟩ := hf
  intro p hp
  rw [hc p hp, h p hp, ht, List.map_append, cellAfter_append]

/-- Settles O47: whatever the step does, the bank follows the events it adds. -/
theorem stepKeepsBankReplayOfTrace : Obligations.StepKeepsBankReplayOfTrace :=
  fun _ _ hs h => hs.of_follows (step_bankFollowsTrace h)

end Sys2Proof.Machine
end

section
/-! SUPPORT. The steps each operation's event sequence is made of, and the consistency of the port. -/

namespace Sys2Proof.Machine

/-! ### The steps of an operation's sequence -/

/-- The pin belongs to a connected role or is a connected extension pin: those `resume` sets up (41_lifecycle.md R142). -/
def IsResumePin (c : Configuration) (p : PinId) : Prop :=
  p ≠ NC ∧ ((∃ r, pinOf c r = p) ∨ ∃ x ∈ c.extPins, x.pin = p)

/-- Which steps of the sequencer the event sequence of an operation can hold. -/
inductive StepOf (c : Configuration) : Instr → Micro → Prop where
  | frameDrive {i : Instr} (hi : isFramer i = true) (r : Role) (hr : r = .dc ∨ r = .csM ∨ r = .csS) (v : Level) :
      StepOf c i (.drive r v)
  | frameXfer {i : Instr} (hi : isFramer i = true) (b : Byte) : StepOf c i (.xfer b)
  | frameXferMem (idx : Byte) (buf len : Word) (sel : Sel) (a : Nat) :
      StepOf c (.sendIndexedBuffer idx buf len sel) (.xferMem a)
  | frameDelay {i : Instr} (hi : isFramer i = true) (n : Word) : StepOf c i (.delayUs n)
  | resumeInit : StepOf c .resume .gpioInit
  | resumeMode (p : PinId) (d : Direction) (hp : IsResumePin c p) : StepOf c .resume (.pinMode p d)
  | resumeWrite (p : PinId) (v : Level) (hp : IsResumePin c p) : StepOf c .resume (.pinWrite p v)
  | resumePower : StepOf c .resume (.setPower .on)
  | suspendDrive (v : Level) : StepOf c .suspend (.drive .rail v)
  | suspendPower : StepOf c .suspend (.setPower .sleep)
  | resetDrive (d1 d2 d3 d4 d5 : Word) (r : Role) (hr : r = .reset ∨ r = .csM) (v : Level) :
      StepOf c (.resetSequence d1 d2 d3 d4 d5) (.drive r v)
  | resetDelay (d1 d2 d3 d4 d5 n : Word) : StepOf c (.resetSequence d1 d2 d3 d4 d5) (.delayMs n)
  | poll (lvl : Level) : StepOf c (.waitBusy lvl) (.poll lvl)

section Framer
variable {c : Configuration} {i : Instr} (hi : isFramer i = true)
include hi

theorem driveIfConnected_csS_steps (v : Level) : ∀ m ∈ driveIfConnected c .csS v, StepOf c i m := by
  unfold driveIfConnected
  split
  · simpa using StepOf.frameDrive hi .csS (by simp) v
  · simp

theorem assertCS_steps (e : EffSel) : ∀ m ∈ assertCS c e, StepOf c i m := by
  have hm : ∀ v, StepOf c i (.drive .csM v) := StepOf.frameDrive hi .csM (by simp)
  have hd := StepOf.frameDelay (c := c) hi
  have hs := driveIfConnected_csS_steps (c := c) hi
  cases e <;> simp only [assertCS, List.forall_mem_cons, List.forall_mem_append] <;> simp [hm, hd]
  · exact hs .high
  · exact hs .low
  · exact hs .low

theorem deassertCS_steps (e : EffSel) : ∀ m ∈ deassertCS c e, StepOf c i m := by
  have hm : ∀ v, StepOf c i (.drive .csM v) := StepOf.frameDrive hi .csM (by simp)
  have hs := driveIfConnected_csS_steps (c := c) hi
  cases e <;> simp only [deassertCS, List.forall_mem_cons] <;> simp [hm]
  all_goals exact hs .high

theorem commandPhase_steps (idx : Byte) : ∀ m ∈ commandPhase c idx, StepOf c i m := by
  simpa [commandPhase] using ⟨StepOf.frameXfer hi idx, StepOf.frameDelay hi c.delayCS⟩

theorem dataPhase_steps {transfers : List Micro} (ht : ∀ m ∈ transfers, StepOf c i m) :
    ∀ m ∈ dataPhase c transfers, StepOf c i m := by
  have hdc : StepOf c i (.drive .dc .high) := .frameDrive hi .dc (by simp) .high
  have hd : StepOf c i (.delayUs c.delayCS) := .frameDelay hi c.delayCS
  unfold dataPhase
  split
  · rintro m (_ | ⟨_, hm⟩)
    · exact hdc
    · obtain ⟨x, hx, hm⟩ := List.mem_flatMap.mp hm
      rcases (by simpa using hm : m = .delayUs c.delayCS ∨ m = x ∨ m = .delayUs c.delayCS) with rfl | rfl | rfl
      · exact hd
      · exact ht m hx
      · exact hd
  · simpa [or_imp, forall_and, hdc, hd] using ht

theorem dataFrame_steps (e : EffSel) (idx : Byte) {between transfers : List Micro}
    (hb : ∀ m ∈ between, StepOf c i m) (ht : ∀ m ∈ transfers, StepOf c i m) :
    ∀ m ∈ dataFrame c e idx between transfers, StepOf c i m := by
  unfold dataFrame
  simp only [List.forall_mem_cons, List.forall_mem_append, List.cons_append]
  exact ⟨.frameDrive hi .dc (by simp) .low, ⟨⟨⟨assertCS_steps hi e, commandPhase_steps hi idx⟩, hb⟩,
    dataPhase_steps hi ht⟩, deassertCS_steps hi e⟩

end Framer

theorem configureHigh_steps (c : Configuration) (r : Role) : ∀ m ∈ configureHigh c r, StepOf c .resume m := by
  unfold configureHigh
  split
  · next h =>
    have hp : IsResumePin c (pinOf c r) := ⟨by simpa [connected] using h, .inl ⟨r, rfl⟩⟩
    simpa using ⟨StepOf.resumeMode _ .output hp, StepOf.resumeWrite _ .high hp⟩
  · simp

theorem configureInput_steps (c : Configuration) (r : Role) : ∀ m ∈ configureInput c r, StepOf c .resume m := by
  unfold configureInput
  split
  · next h => simpa using StepOf.resumeMode _ .input ⟨by simpa [connected] using h, .inl ⟨r, rfl⟩⟩
  · simp

theorem configureExt_steps (c : Configuration) (x : ExtPin) (hx : x ∈ c.extPins) :
    ∀ m ∈ configureExt x, StepOf c .resume m := by
  unfold configureExt
  split
  · simp
  · next h =>
    have hp : IsResumePin c x.pin := ⟨h, .inr ⟨x, hx, rfl⟩⟩
    split
    · simpa using StepOf.resumeMode _ .input hp
    · simpa using StepOf.resumeMode _ .output hp
    · next v _ => simpa using ⟨StepOf.resumeMode _ .output hp, StepOf.resumeWrite _ v hp⟩

theorem configurationSeq_steps (c : Configuration) : ∀ m ∈ configurationSeq c, StepOf c .resume m := by
  unfold configurationSeq
  simp only [List.forall_mem_append, List.forall_mem_singleton]
  refine ⟨⟨⟨⟨⟨⟨.resumeInit, configureHigh_steps c .rail⟩, configureInput_steps c .busy⟩, ?_⟩, ?_⟩,
    configureInput_steps c .sdDetect⟩, ?_⟩ <;> intro m hm <;> obtain ⟨x, hx, hm⟩ := List.mem_flatMap.mp hm
  · exact configureHigh_steps c x m hm
  · exact configureHigh_steps c x m hm
  · exact configureExt_steps c x hx m hm

theorem suspendSeq_steps (c : Configuration) (configured : Bool) :
    ∀ m ∈ suspendSeq c configured, StepOf c .suspend m := by
  have hr : ∀ m ∈ railLow c, StepOf c .suspend m := by
    unfold railLow
    split
    · simpa using StepOf.suspendDrive .low
    · simp
  unfold suspendSeq
  cases configured
  · simpa using StepOf.suspendPower
  · simpa [or_imp, forall_and, StepOf.suspendPower] using hr

/-- Every step of an operation's sequence is one of its kind. -/
theorem fullSeq_steps (c : Configuration) (i : Instr) : ∀ m ∈ fullSeq c i, StepOf c i m := by
  cases i with
  | sendCommand idx =>
    simp only [fullSeq, sendCommandSeq, List.forall_mem_cons, List.forall_mem_append, List.cons_append]
    exact ⟨.frameDrive rfl .dc (by simp) .low, ⟨assertCS_steps rfl _, commandPhase_steps rfl idx⟩,
      deassertCS_steps rfl _⟩
  | sendCommandWithByte idx dat => exact dataFrame_steps rfl _ idx (by simp) (by simpa using .frameXfer rfl dat)
  | sendCommandWithByteSelect idx dat sel =>
    exact dataFrame_steps rfl _ idx (by simp) (by simpa using .frameXfer rfl dat)
  | sendFixedValueRun idx dat count sel =>
    refine dataFrame_steps rfl _ idx (by simp) fun m hm => ?_
    exact List.eq_of_mem_replicate hm ▸ .frameXfer rfl dat
  | sendIndexedBuffer idx buf len sel =>
    refine dataFrame_steps rfl _ idx ?_ fun m hm => ?_
    · split
      · simpa using .frameDelay rfl tBcastSettle
      · simp
    · obtain ⟨a, -, rfl⟩ := List.mem_map.mp hm
      exact .frameXferMem idx buf len sel a
  | selectPanelHalf sel =>
    simp only [fullSeq, selectPanelHalfSeq]
    split
    · exact assertCS_steps rfl _
    · simpa using ⟨StepOf.frameDrive rfl .csM (by simp) .low, StepOf.frameDelay rfl c.tSelectSettle⟩
    · simpa using ⟨StepOf.frameDrive rfl .csM (by simp) .low, StepOf.frameDelay rfl c.tSelectSettle⟩
  | resume =>
    simp only [fullSeq, resumeSeq, List.forall_mem_append, List.forall_mem_singleton]
    exact ⟨configurationSeq_steps c, .resumePower⟩
  | suspend => exact suspendSeq_steps c true
  | resetSequence d1 d2 d3 d4 d5 =>
    have hd := StepOf.resetDelay (c := c) d1 d2 d3 d4 d5
    have hr := StepOf.resetDrive (c := c) d1 d2 d3 d4 d5
    simp [fullSeq, resetSequenceSeq, hd, hr]
  | waitBusy lvl => simpa [fullSeq, waitBusySeq] using StepOf.poll lvl

theorem StepOf.not_gated_of_setPower {c : Configuration} {i : Instr} {ps : PowerState}
    (h : StepOf c i (.setPower ps)) : isGated i = false := by cases h <;> rfl

theorem StepOf.eq_resume_of_pinMode {c : Configuration} {i : Instr} {p : PinId} {d : Direction}
    (h : StepOf c i (.pinMode p d)) : i = .resume := by cases h; rfl

theorem StepOf.eq_waitBusy_of_poll {c : Configuration} {i : Instr} {lvl : Level}
    (h : StepOf c i (.poll lvl)) : i = .waitBusy lvl := by cases h; rfl

theorem StepOf.framer_of_xfer {c : Configuration} {i : Instr} {b : Byte} (h : StepOf c i (.xfer b)) :
    isFramer i = true := by cases h; assumption

theorem StepOf.eq_sendIndexedBuffer_of_xferMem {c : Configuration} {i : Instr} {a : Nat}
    (h : StepOf c i (.xferMem a)) : ∃ idx buf len sel, i = .sendIndexedBuffer idx buf len sel := by
  cases h with
  | frameXferMem idx buf len sel _ => exact ⟨idx, buf, len, sel, rfl⟩

/-! ### `PS` under a sequence -/

/-- A sequence without a write of `PS` keeps it. -/
theorem foldl_microPower_eq (todo : List Micro) (ps : PowerState) (h : ∀ q, .setPower q ∉ todo) :
    todo.foldl microPower ps = ps := by
  induction todo with
  | nil => rfl
  | cons m rest ih =>
    have hm : microPower ps m = ps := by
      cases m with
      | setPower q => exact absurd (List.mem_cons_self ..) (h q)
      | _ => rfl
    rw [List.foldl_cons, hm]
    exact ih fun q hq => h q (List.mem_cons_of_mem _ hq)

/-- No gated operation writes `PS` (60_exceptions.md R174). -/
theorem setPower_notMem_of_gated {c : Configuration} {i : Instr} (hg : isGated i = true) (q : PowerState) :
    .setPower q ∉ fullSeq c i := fun h => by
  rw [(fullSeq_steps c i _ h).not_gated_of_setPower] at hg
  cases hg

/-! ### The port -/

theorem portConsistent_of_idle {s : State} (h : s.port = .idle) : PortConsistent s := fun _ _ hp => by
  rw [h] at hp
  cases hp

theorem PortConsistent.congr {s t : State} (h : PortConsistent s) (hs : SamePfps s t) : PortConsistent t := by
  intro words todo hp
  rw [hs.port] at hp
  rw [hs.fault, hs.cfg, hs.ps]
  exact h words todo hp

/-- A rest of the latched operation's sequence that runs, gated operations with `PS` ON, leaves the port consistent: it ends
IDLE, or pauses with a shorter rest. -/
theorem run_portConsistent {i : Instr} {todo : List Micro} {s : State} (hf : s.fault = .none)
    (hd : decode (latchedWords s.port) = .ok i) (hrest : todo <:+ fullSeq s.cfg i)
    (hps : isGated i = true → s.ps = .on) : PortConsistent (run todo s) := by
  cases run_ends todo s with
  | finished hp => exact portConsistent_of_idle hp
  | hazard _ _ _ _ _ _ hp => exact portConsistent_of_idle hp
  | paused before rest m ht hp hf' _ hps' =>
    intro words' todo' h
    cases hp.symm.trans h
    refine ⟨hf'.trans hf, List.cons_ne_nil _ _, i, hd, ?_, fun hg => ?_⟩
    · rw [(run_extends todo s).cfg]
      exact List.IsSuffix.trans ⟨before, ht.symm⟩ hrest
    · have hno : ∀ q, .setPower q ∉ before := fun q hq =>
        setPower_notMem_of_gated hg q (hrest.subset (ht ▸ List.mem_append_left _ hq))
      rw [hps', foldl_microPower_eq before s.ps hno]
      exact hps hg

/-- An accepted operation leaves the port consistent. -/
theorem exec_portConsistent {i : Instr} {s t : State} (hf : s.fault = .none)
    (hd : decode (latchedWords s.port) = .ok i) (h : exec i s = .next t) : PortConsistent t := by
  cases exec_cases h with
  | runs _ hps _ _ ht => exact ht ▸ run_portConsistent hf hd (List.suffix_refl _) hps
  | selector _ ht => exact portConsistent_of_idle (by simp [ht])
  | unpowered _ _ ht => exact portConsistent_of_idle (by simp [ht])
  | range _ _ _ _ _ _ _ ht => exact portConsistent_of_idle (by simp [ht])
  | resumeOn _ _ ht => exact portConsistent_of_idle (by simp [ht])
  | suspendOff _ _ ht => exact portConsistent_of_idle (by simp [ht])

/-- Settles O48: an accepted operation runs its own sequence, and one in flight a rest of it. -/
theorem stepKeepsPortConsistent : Obligations.StepKeepsPortConsistent := by
  intro s t hs h
  cases step_effect h with
  | access ha => exact hs.congr ha
  | overlap _ ht => exact portConsistent_of_idle (by simp [ht])
  | illegal words _ ht => exact portConsistent_of_idle (by simp [ht])
  | accepted words i hi hd ht =>
    have hf : s.fault = .none := fault_of_issuesNext hi
    exact exec_portConsistent (s := accept words (moved s)) hf hd ht
  | going words todo hp ht =>
    obtain ⟨hf, -, i, hd, hrest, hps⟩ := hs words todo hp
    exact ht ▸ run_portConsistent hf (hp ▸ hd) hrest hps

end Sys2Proof.Machine
end

section
/-! SUPPORT. The registers, the host's accesses to them, `opIndex`, `FAULT`, and the launch (spec/10_state.md). -/

namespace Sys2Proof.Machine

/-! ### The host's turn -/

/-- On its turn the host moves. -/
theorem fetch_of_hostsTurn {s : State} (ht : hostsTurn s) : fetch s = hostTurn s := by
  unfold fetch
  rcases ht with hp | hdue | ⟨hc, words, todo, hp, hw⟩
  · simp only [hp]
  · split
    · rfl
    · exact if_pos hdue
  · obtain ⟨a, ha⟩ := Option.isSome_iff_exists.mp hw
    simp only [hp, ha, if_pos hc, ite_self]

theorem hostTurn_cons {s : State} {mv : HostMove} {rest : List HostMove} (ha : s.agenda = mv :: rest) :
    hostTurn s = hostAct mv.action { s with agenda := rest } := by simp only [hostTurn, ha]

/-- What a register shows depends on `PS`, `FAULT`, the port and the configuration alone. -/
theorem readReg_congr {s t : State} (r : HostReg) (hc : t.cfg = s.cfg)
    (hst : r = .status → t.ps = s.ps ∧ t.fault = s.fault ∧ t.port = s.port) : readReg t r = readReg s r := by
  cases r with
  | status =>
    obtain ⟨hps, hf, hp⟩ := hst rfl
    simp [readReg, statusWord, hps, hf, hp]
  | cfgPin r => simp [readReg, hc]
  | cfgFamily => simp [readReg, hc]
  | cfgDelayCS => simp [readReg, hc]

/-- A read hands the value back and changes nothing else (10_state.md R35, R36). -/
theorem step_readReg {s : State} {tm : Timing} {r : HostReg} {rest : List HostMove} (ht : hostsTurn s)
    (ha : s.agenda = ⟨tm, .readReg r⟩ :: rest) :
    step s = .next { s with agenda := rest, hostReads := s.hostReads ++ [(r, readReg s r)] } := by
  have hr : readReg { s with agenda := rest } r = readReg s r := readReg_congr r rfl fun _ => ⟨rfl, rfl, rfl⟩
  simp only [step, fetch_of_hostsTurn ht, hostTurn_cons ha, hostAct, hostRead, hr]

/-- A write is ignored (10_state.md R35, R36). -/
theorem step_writeReg {s : State} {tm : Timing} {r : HostReg} {v : Word} {rest : List HostMove} (ht : hostsTurn s)
    (ha : s.agenda = ⟨tm, .writeReg r v⟩ :: rest) : step s = .next { s with agenda := rest } := by
  simp only [step, fetch_of_hostsTurn ht, hostTurn_cons ha, hostAct, hostWrite]

/-! ### Issues -/

/-- The port takes an issue on its own terms: it runs what the words decode to, or finds them illegal. -/
theorem fetch_of_issuesNext {s : State} {words : List Word} (hi : issuesNext s words) :
    fetch s = issue words (moved s) := by
  obtain ⟨hp, -, ha⟩ := hi
  cases hag : s.agenda with
  | nil => simp [hag] at ha
  | cons mv rest =>
    have hact : mv.action = .issue words := by simpa [hag] using ha
    rw [fetch_of_hostsTurn (.inl hp), hostTurn_cons hag, hact]
    simp [hostAct, moved, hag]

theorem step_legalIssue {s : State} {words : List Word} {i : Instr} (hi : issuesNext s words)
    (hd : decode words = .ok i) : step s = exec i (accept words (moved s)) := by
  have hf := fetch_of_issuesNext hi
  obtain ⟨hp, hnone, -⟩ := hi
  simp [step, hf, issue, hp, hnone, hd]

theorem step_illegalIssue {s : State} {words : List Word} {e : DecodeError} (hi : issuesNext s words)
    (hd : decode words = .error e) (he : e ≠ .wordCount) :
    step s = .next (raise .illegalOp none (accept words (moved s))) := by
  have hf := fetch_of_issuesNext hi
  obtain ⟨hp, hnone, -⟩ := hi
  cases e with
  | wordCount => exact absurd rfl he
  | _ => simp [step, hf, issue, hp, hnone, hd]

/-! ### `opIndex` -/

/-- Every accepted issue, legal or not, adds 1 (30_encoding.md R72). -/
theorem step_issue_opIndex {s : State} {words : List Word} (hi : issuesNext s words)
    (hd : decode words ≠ .error .wordCount) : ∃ t, step s = .next t ∧ t.opIndex = s.opIndex + 1 := by
  cases hdec : decode words with
  | ok i =>
    obtain ⟨t, ht⟩ := exec_next i (accept words (moved s))
    exact ⟨t, (step_legalIssue hi hdec).trans ht, by simp [(exec_extends i _ t ht).opIndex]⟩
  | error e => exact ⟨_, step_illegalIssue hi hdec fun he => hd (he ▸ hdec), by simp⟩

/-- A step changes `opIndex` by accepting an issue and in no other way. -/
theorem step_opIndex {s t : State} (h : step s = .next t) :
    t.opIndex = s.opIndex ∨ (t.opIndex = s.opIndex + 1 ∧ ∃ words, issuesNext s words) := by
  cases step_effect h with
  | access hs => exact .inl hs.opIndex
  | overlap _ ht => exact .inl (by simp [ht])
  | illegal words hi ht => exact .inr ⟨by simp [ht], words, hi⟩
  | accepted words i hi _ ht => exact .inr ⟨by simp [(exec_extends i _ t ht).opIndex], words, hi⟩
  | going words todo _ ht => exact .inl (ht ▸ (run_extends todo s).opIndex)

/-- Settles O13. -/
theorem opIndexCountsAcceptedOperations : Obligations.OpIndexCountsAcceptedOperations :=
  ⟨fun _ => rfl, fun _ _ => step_issue_opIndex, fun _ _ => step_opIndex,
    fun _ _ r => readReg_congr r rfl fun _ => ⟨rfl, rfl, rfl⟩⟩

/-! ### STATUS -/

section Status
variable (s : State)

/-- STATUS.PS, bits 1:0. -/
theorem statusWord_ps : (statusWord s).extractLsb' 0 2 = psCode s.ps := by
  apply BitVec.eq_of_getLsbD_eq
  intro i hi
  simp [statusWord, hi, show i < 4 by omega, show i < 32 by omega]

/-- STATUS.EXEC, bit 2. -/
theorem statusWord_exec : (statusWord s).extractLsb' 2 1 = execBit s.port := by
  apply BitVec.eq_of_getLsbD_eq
  intro i hi
  obtain rfl : i = 0 := by omega
  simp [statusWord]

/-- Bit 3 is reserved. -/
theorem statusWord_bit3 : (statusWord s).extractLsb' 3 1 = 0#1 := by
  apply BitVec.eq_of_getLsbD_eq
  intro i hi
  obtain rfl : i = 0 := by omega
  simp [statusWord]

/-- STATUS.FAULT, bits 7:4. -/
theorem statusWord_fault : (statusWord s).extractLsb' 4 4 = faultCodeBits s.fault := by
  apply BitVec.eq_of_getLsbD_eq
  intro i hi
  simp [statusWord, hi, show 4 + i < 32 by omega, (execBit s.port).getLsbD_of_ge (4 + i - 2) (by omega),
    (psCode s.ps).getLsbD_of_ge (4 + i) (by omega)]

/-- Bits 31:8 are reserved. -/
theorem statusWord_high : (statusWord s).extractLsb' 8 24 = 0#24 := by
  apply BitVec.eq_of_getLsbD_eq
  intro i hi
  simp [statusWord, show 8 + i < 32 by omega, (faultCodeBits s.fault).getLsbD_of_ge (8 + i - 4) (by omega),
    (execBit s.port).getLsbD_of_ge (8 + i - 2) (by omega), (psCode s.ps).getLsbD_of_ge (8 + i) (by omega)]

end Status

theorem launch_status (c : Configuration) : readReg (State.launch c) .status = 0x00000000#32 := by
  simp [readReg, statusWord, State.launch, faultCodeBits, execBit, psCode]

/-- Settles O14: the fields of the word, and the two host accesses. -/
theorem statusRegister : Obligations.StatusRegister := by
  refine ⟨fun s => ⟨?_, ?_, statusWord_bit3 s, ?_, statusWord_high s⟩, launch_status,
    fun _ _ _ => step_readReg, fun _ _ _ _ => step_writeReg⟩
  · refine (statusWord_ps s).trans ?_
    cases s.ps <;> rfl
  · refine (statusWord_exec s).trans ?_
    cases s.port <;> rfl
  · refine (statusWord_fault s).trans ?_
    cases s.fault <;> rfl

/-! ### The CFG registers -/

/-- A field widened to a word reads back from the word's low bits, with zeros above. -/
theorem extractLsb'_setWidth_low {n : Nat} (x : BitVec n) (hn : n ≤ 32) : (x.setWidth 32).extractLsb' 0 n = x := by
  apply BitVec.eq_of_getLsbD_eq
  intro i hi
  simp [hi, show i < 32 by omega]

theorem extractLsb'_setWidth_high {n : Nat} (x : BitVec n) (k : Nat) : (x.setWidth 32).extractLsb' n k = 0#k := by
  apply BitVec.eq_of_getLsbD_eq
  intro i hi
  simp

/-- Settles O15: the registers show the configuration, which no step writes. -/
theorem configurationRegisters : Obligations.ConfigurationRegisters := by
  refine ⟨fun s r => ⟨extractLsb'_setWidth_low _ (by decide), extractLsb'_setWidth_high _ 24⟩,
    fun s => ⟨?_, extractLsb'_setWidth_high _ 30, rfl⟩, fun _ _ _ _ ht _ => step_readReg ht,
    fun _ _ _ _ _ ht _ => step_writeReg ht,
    fun _ _ r h hr => readReg_congr r (step_cfg h) fun hst => absurd hst hr⟩
  refine (extractLsb'_setWidth_low _ (by decide)).trans ?_
  cases s.cfg.family <;> rfl

/-! ### `FAULT` -/

/-- The sequencer writes `FAULT` only where it holds NONE. -/
theorem run_fault_sticky (todo : List Micro) {s : State} (hf : s.fault ≠ .none) : (run todo s).fault = s.fault := by
  cases run_ends todo s with
  | finished _ h => exact h
  | hazard _ _ _ _ _ _ _ h => rw [h, if_neg hf]
  | paused _ _ _ _ _ h => exact h

/-- Settles O33: with a fault recorded no issue is taken, and the other moves leave the code. -/
theorem faultRegisterIsSticky : Obligations.FaultRegisterIsSticky := by
  refine ⟨fun _ => rfl, fun s t h hf => ?_⟩
  cases step_effect h with
  | access hs => exact hs.fault
  | overlap hnone _ => exact absurd hnone hf
  | illegal words hi _ => exact absurd (fault_of_issuesNext hi) hf
  | accepted words i hi _ _ => exact absurd (fault_of_issuesNext hi) hf
  | going words todo _ ht => exact ht ▸ run_fault_sticky todo hf

/-! ### Shared pins -/

/-- A write through a role puts its level into the cell of the role's pin (00_scope.md R13, 10_state.md R24). -/
theorem drive_level {r : Role} {v : Level} {s t : State} (h : drive r v s = some t) :
    (pinCell t (pinOf s.cfg r)).level = latchOf v := by
  obtain ⟨hc, rfl⟩ := drive_some h
  rw [pinCell_doPinWrite _ _ v s (canDrive_ne_NC hc)]
  simp [cellStep]

/-- Settles O38: both roles name the one cell that the write changes. -/
theorem sharedPinsHaveOneCell : Obligations.SharedPinsHaveOneCell := by
  intro s t u r r' v v' hpin h h'
  have hu := drive_level h'
  rw [(drive_extends h).cfg, ← hpin] at hu
  exact ⟨hpin ▸ drive_level h, hu, by rw [hpin]⟩

/-! ### Launch -/

theorem familyOfCode_eq_none (b : BitVec 2) : familyOfCode b = none ↔ b = 3#2 := by revert b; decide

theorem extPinOf_eq_none (x : RawExtPin) : extPinOf x = none ↔ x.mode = .input ∧ x.initial ≠ none := by
  obtain ⟨pin, mode, initial⟩ := x
  cases mode <;> cases initial <;> simp [extPinOf]

theorem mapM_extPinOf_eq_none (l : List RawExtPin) : l.mapM extPinOf = none ↔ ∃ x ∈ l, extPinOf x = none := by
  induction l with
  | nil => simp
  | cons x xs ih =>
    rw [List.mapM_cons, List.exists_mem_cons_iff, ← ih]
    cases extPinOf x <;> cases xs.mapM extPinOf <;> simp

/-- Settles O16: there is no launch where the family code or an extension pin has no reading, and nowhere else. -/
theorem onlyTwoConfigurationsAreRefused : Obligations.OnlyTwoConfigurationsAreRefused := by
  intro r
  have hexts : (∃ x ∈ r.extPins, x.mode = .input ∧ x.initial ≠ none) ↔ r.extPins.mapM extPinOf = none := by
    simp only [mapM_extPinOf_eq_none, extPinOf_eq_none]
  rw [hexts, ← familyOfCode_eq_none]
  unfold launchOf admitConfiguration
  cases familyOfCode r.familyCode <;> cases r.extPins.mapM extPinOf <;> simp

/-- Settles O17: every launch is `State.launch` of the admitted configuration. -/
theorem resetState : Obligations.ResetState := by
  intro r s h
  obtain ⟨c, hc, rfl⟩ := Option.map_eq_some_iff.mp h
  exact ⟨hc, rfl, fun _ => rfl, rfl, rfl, rfl, rfl, launch_status c⟩

/-- Settles O18. -/
theorem resetIsALaunch : Obligations.ResetIsALaunch := rfl

/-- Settles O45: the bank, the trace and the histories are empty, and the port is IDLE without a fault. -/
theorem launchMeetsTheInvariants : Obligations.LaunchMeetsTheInvariants :=
  fun _ => ⟨⟨rfl, rfl⟩, fun _ _ => rfl, portConsistent_of_idle rfl, fun _ => rfl, fun h => absurd rfl h⟩

end Sys2Proof.Machine
end

section
/-! SUPPORT. What an operation may change by the steps its event sequence is made of (`SeqFrame`), and the frames of the
operations (spec/10_state.md R29; spec/40_framing.md and 41_lifecycle.md, introductions). -/

namespace Sys2Proof.Machine

/-! ### What the steps of a sequence may do -/

/-- The events one step of the sequencer may emit. -/
def MayEmit (c : Configuration) : Micro → Shown → Prop
  | .gpioInit, e => e = .INIT
  | .pinMode p m, e => e = .M p m
  | .pinWrite p v, e => e = .W p v
  | .drive r v, e => e = .W (pinOf c r) v
  | .poll _, e => (∃ v, e = .R (pinOf c .busy) v) ∨ e = .Dms tBusyPoll
  | .xfer b, e => e = .X b
  | .xferMem _, e => ∃ b, e = .X b
  | .delayUs n, e => e = .Dus n
  | .delayMs n, e => e = .Dms n
  | .setPower _, _ => False

/-- `t` is `s` after some of these steps: it changes only what one of them may change. -/
structure SeqFrame (todo : List Micro) (s t : State) : Prop where
  events : ∃ new, t.trace = s.trace ++ new ∧ ∀ e ∈ new, ∃ m ∈ todo, MayEmit s.cfg m (showEvent e)
  pins : (∀ p d, .pinMode p d ∉ todo) → (∀ p v, .pinWrite p v ∉ todo) → (∀ r v, .drive r v ∉ todo) →
    t.pins = s.pins
  levels : (∀ lvl, .poll lvl ∉ todo) → t.levelInputs = s.levelInputs ∧ t.levelDraws = s.levelDraws
  bytes : (∀ b, .xfer b ∉ todo) → (∀ a, .xferMem a ∉ todo) →
    t.byteInputs = s.byteInputs ∧ t.byteDraws = s.byteDraws
  reads : (∀ a, .xferMem a ∉ todo) → t.memHistory = s.memHistory

theorem SeqFrame.of_same {todo : List Micro} {s t : State} (ht : t.trace = s.trace) (hp : t.pins = s.pins)
    (hl : t.levelInputs = s.levelInputs ∧ t.levelDraws = s.levelDraws)
    (hb : t.byteInputs = s.byteInputs ∧ t.byteDraws = s.byteDraws) (hr : t.memHistory = s.memHistory) :
    SeqFrame todo s t :=
  ⟨⟨[], by simp [ht], by simp⟩, fun _ _ _ => hp, fun _ => hl, fun _ _ => hb, fun _ => hr⟩

/-- More steps may change more. -/
theorem SeqFrame.mono {todo todo' : List Micro} {s t : State} (h : SeqFrame todo s t) (hsub : todo ⊆ todo') :
    SeqFrame todo' s t := by
  obtain ⟨new, ht, hnew⟩ := h.events
  refine ⟨⟨new, ht, fun e he => ?_⟩, fun h1 h2 h3 => h.pins (fun p d hm => h1 p d (hsub hm))
    (fun p v hm => h2 p v (hsub hm)) (fun r v hm => h3 r v (hsub hm)), fun hp => h.levels fun l hm => hp l (hsub hm),
    fun hx hm => h.bytes (fun b hb => hx b (hsub hb)) (fun a ha => hm a (hsub ha)),
    fun hm => h.reads fun a ha => hm a (hsub ha)⟩
  obtain ⟨m, hm, hme⟩ := hnew e he
  exact ⟨m, hsub hm, hme⟩

theorem SeqFrame.trans {todo : List Micro} {s t u : State} (h : SeqFrame todo s t) (hc : t.cfg = s.cfg)
    (k : SeqFrame todo t u) : SeqFrame todo s u := by
  obtain ⟨n, hn, hne⟩ := h.events
  obtain ⟨m, hm, hme⟩ := k.events
  refine ⟨⟨n ++ m, by rw [hm, hn, List.append_assoc], fun e he => ?_⟩,
    fun h1 h2 h3 => (k.pins h1 h2 h3).trans (h.pins h1 h2 h3),
    fun hp => ⟨(k.levels hp).1.trans (h.levels hp).1, (k.levels hp).2.trans (h.levels hp).2⟩,
    fun hx hx' => ⟨(k.bytes hx hx').1.trans (h.bytes hx hx').1, (k.bytes hx hx').2.trans (h.bytes hx hx').2⟩,
    fun hx => (k.reads hx).trans (h.reads hx)⟩
  rcases List.mem_append.mp he with he | he
  · exact hne e he
  · exact hc ▸ hme e he

/-- One step of the sequencer that goes on. -/
theorem advance_done_frame {m : Micro} {s t : State} (h : advance m s = .done t) : SeqFrame [m] s t := by
  cases m with
  | gpioInit => cases h; constructor <;> simp [MayEmit, showEvent]
  | pinMode p d => cases h; constructor <;> simp [MayEmit, showEvent]
  | pinWrite p v => cases h; constructor <;> simp [MayEmit, showEvent]
  | drive r v =>
    simp only [advance] at h
    split at h
    · next hd =>
      obtain ⟨-, rfl⟩ := drive_some hd
      cases h
      constructor <;> simp [MayEmit, showEvent]
    · cases h
  | poll lvl =>
    simp only [advance] at h
    split at h
    · next hs =>
      obtain ⟨-, -, rfl⟩ := sample_some hs
      split at h
      · cases h
        constructor <;> simp [MayEmit, showEvent, doPinRead]
      · cases h
    · cases h
  | xfer b => cases h; constructor <;> simp [MayEmit, showEvent]
  | xferMem a =>
    simp only [advance] at h
    split at h
    · cases h
      constructor <;> simp [MayEmit, showEvent]
    · cases h
  | delayUs n => cases h; constructor <;> simp [MayEmit, showEvent]
  | delayMs n => cases h; constructor <;> simp [MayEmit, showEvent]
  | setPower ps => cases h; exact .of_same rfl rfl ⟨rfl, rfl⟩ ⟨rfl, rfl⟩ rfl

/-- A poll turn that missed. -/
theorem advance_again_frame {m : Micro} {s t : State} (h : advance m s = .again t) : SeqFrame [m] s t := by
  obtain ⟨⟨lvl, rfl⟩, -⟩ := advance_again_keeps h
  simp only [advance] at h
  split at h
  · next hs =>
    obtain ⟨-, -, rfl⟩ := sample_some hs
    split at h
    · cases h
    · cases h
      refine ⟨⟨[.pinRead (pinOf s.cfg .busy) (drawLevel s).1, .delayMs tBusyPoll], by simp [doPinRead], ?_⟩,
        ?_, ?_, ?_, ?_⟩ <;> simp [MayEmit, showEvent, doPinRead]
  · cases h

/-- A run changes only what a step of its sequence may change. -/
theorem run_frame (todo : List Micro) (s : State) : SeqFrame todo s (run todo s) := by
  induction todo generalizing s with
  | nil => exact .of_same rfl rfl ⟨rfl, rfl⟩ ⟨rfl, rfl⟩ rfl
  | cons m rest ih =>
    have hhead : [m] ⊆ m :: rest := List.cons_subset_cons m (List.nil_subset rest)
    have hpause : ∀ u, SeqFrame (m :: rest) u (pauseAt (m :: rest) u) := fun u =>
      .of_same rfl rfl ⟨rfl, rfl⟩ ⟨rfl, rfl⟩ rfl
    unfold run
    split
    · exact hpause s
    · split
      · next s' h =>
        exact ((advance_done_frame h).mono hhead).trans (advance_done_extends h).cfg
          ((ih s').mono (List.subset_cons_self m rest))
      · next s' h =>
        exact ((advance_again_frame h).mono hhead).trans (advance_again_extends h).cfg (hpause s')
      · exact hpause s
      · constructor <;> simp [raiseHazard]

/-! ### Pins under a sequence -/

/-- Events that set no mode keep the mode of every cell. -/
theorem cellAfter_mode (p : PinId) (c : PinCell) (evs : List Shown) (h : ∀ q d, .M q d ∉ evs) :
    (cellAfter p c evs).mode = c.mode := by
  induction evs generalizing c with
  | nil => rfl
  | cons e es ih =>
    have he : (cellStep p c e).mode = c.mode := by
      cases e with
      | M q d => exact absurd (List.mem_cons_self ..) (h q d)
      | W q v => exact cellStep_W_mode q p v c
      | _ => rfl
    rw [cellAfter_cons, ih _ fun q d hm => h q d (List.mem_cons_of_mem _ hm), he]

section Pins
variable {todo : List Micro} {s t : State} (hf : SeqFrame todo s t) (hx : Extends s t)
include hf hx

/-- The cell of every pin is what events of the sequence's steps made of it. -/
theorem SeqFrame.cells : ∃ evs : List Shown, (∀ e ∈ evs, ∃ m ∈ todo, MayEmit s.cfg m e) ∧
    ∀ p, p ≠ NC → pinCell t p = cellAfter p (pinCell s p) evs := by
  obtain ⟨new, ht, hnew⟩ := hf.events
  obtain ⟨new', ht', hc⟩ := hx.trace
  obtain rfl : new = new' := List.append_cancel_left (ht.symm.trans ht')
  refine ⟨new.map showEvent, fun e he => ?_, hc⟩
  obtain ⟨e', he', rfl⟩ := List.mem_map.mp he
  exact hnew e' he'

/-- A pin that no step of the sequence names keeps its cell. -/
theorem SeqFrame.cell_untouched {p : PinId} (hp : p ≠ NC)
    (h : ∀ m ∈ todo, ∀ e, MayEmit s.cfg m e → touchedPin e ≠ some p) : pinCell t p = pinCell s p := by
  obtain ⟨evs, hevs, hc⟩ := hf.cells hx
  rw [hc p hp]
  refine cellAfter_untouched p _ evs fun e he => ?_
  obtain ⟨m, hm, hme⟩ := hevs e he
  exact h m hm e hme

/-- A sequence that sets no mode keeps every mode. -/
theorem SeqFrame.modes {p : PinId} (hp : p ≠ NC) (h : ∀ q d, .pinMode q d ∉ todo) :
    (pinCell t p).mode = (pinCell s p).mode := by
  obtain ⟨evs, hevs, hc⟩ := hf.cells hx
  rw [hc p hp]
  refine cellAfter_mode p _ evs fun q d he => ?_
  obtain ⟨m, hm, hme⟩ := hevs _ he
  cases m with
  | pinMode q' d' => exact h q' d' hm
  | _ => simp [MayEmit] at hme

end Pins

/-! ### Operations -/

/-- An operation changes only what a step of its event sequence may change, and `PS`, the port and the fault. -/
theorem exec_frame {i : Instr} {s t : State} (h : exec i s = .next t) : SeqFrame (fullSeq s.cfg i) s t := by
  have hraise : ∀ code, SeqFrame (fullSeq s.cfg i) s (raise code none s) := fun code =>
    .of_same (by simp) (by simp) (by simp) (by simp) (by simp)
  cases exec_cases h with
  | selector _ ht => exact ht ▸ hraise _
  | unpowered _ _ ht => exact ht ▸ hraise _
  | range _ _ _ _ _ _ _ ht => exact ht ▸ hraise _
  | runs _ _ _ _ ht => exact ht ▸ run_frame _ s
  | resumeOn _ _ ht => exact ht ▸ .of_same rfl rfl ⟨rfl, rfl⟩ ⟨rfl, rfl⟩ rfl
  | suspendOff _ _ ht => exact ht ▸ .of_same rfl rfl ⟨rfl, rfl⟩ ⟨rfl, rfl⟩ rfl

/-- A gated operation keeps `PS`, completed, faulted or paused. -/
theorem exec_gated_ps {i : Instr} {s t : State} (hg : isGated i = true) (h : exec i s = .next t) : t.ps = s.ps := by
  cases exec_cases h with
  | selector _ ht => simp [ht]
  | unpowered _ _ ht => simp [ht]
  | range _ _ _ _ _ _ _ ht => simp [ht]
  | runs _ _ _ _ ht =>
    subst ht
    have hno : ∀ q, .setPower q ∉ fullSeq s.cfg i := setPower_notMem_of_gated hg
    cases run_ends (fullSeq s.cfg i) s with
    | finished _ _ _ hps => rw [hps, foldl_microPower_eq _ _ hno]
    | hazard _ before _ _ hseq _ _ _ _ hps =>
      rw [hps, foldl_microPower_eq _ _ fun q hq => hno q (hseq ▸ List.mem_append_left _ hq)]
    | paused before _ _ hseq _ _ _ hps =>
      rw [hps, foldl_microPower_eq _ _ fun q hq => hno q (hseq ▸ List.mem_append_left _ hq)]
  | resumeOn hi _ _ => subst hi; cases hg
  | suspendOff hi _ _ => subst hi; cases hg

/-- No operation writes `FAULT` where a code is recorded. -/
theorem exec_fault_sticky {i : Instr} {s t : State} (hf : s.fault ≠ .none) (h : exec i s = .next t) :
    t.fault = s.fault := by
  cases exec_cases h with
  | selector _ ht => simp [ht, hf]
  | unpowered _ _ ht => simp [ht, hf]
  | range _ _ _ _ _ _ _ ht => simp [ht, hf]
  | runs _ _ _ _ ht => exact ht ▸ run_fault_sticky _ hf
  | resumeOn _ _ ht => simp [ht]
  | suspendOff _ _ ht => simp [ht]

/-- Only `resume` writes modes (10_state.md R29). -/
theorem pinMode_notMem_of_ne_resume {c : Configuration} {i : Instr} (hi : i ≠ .resume) (p : PinId) (d : Direction) :
    .pinMode p d ∉ fullSeq c i := fun h => hi (fullSeq_steps c i _ h).eq_resume_of_pinMode

theorem exec_modes {i : Instr} {s t : State} (hi : i ≠ .resume) (h : exec i s = .next t) {p : PinId} (hp : p ≠ NC) :
    (pinCell t p).mode = (pinCell s p).mode :=
  (exec_frame h).modes (exec_extends i s t h) hp (pinMode_notMem_of_ne_resume hi)

/-- A pin that no step of the operation's kind names keeps its cell. -/
theorem exec_cell_untouched {i : Instr} {s t : State} (h : exec i s = .next t) {p : PinId} (hp : p ≠ NC)
    (hno : ∀ m, StepOf s.cfg i m → ∀ e, MayEmit s.cfg m e → touchedPin e ≠ some p) : pinCell t p = pinCell s p :=
  (exec_frame h).cell_untouched (exec_extends i s t h) hp fun m hm => hno m (fullSeq_steps s.cfg i m hm)

theorem exec_levels {i : Instr} {s t : State} (hi : ∀ lvl, i ≠ .waitBusy lvl) (h : exec i s = .next t) :
    t.levelInputs = s.levelInputs ∧ t.levelDraws = s.levelDraws :=
  (exec_frame h).levels fun lvl hm => hi lvl (fullSeq_steps s.cfg i _ hm).eq_waitBusy_of_poll

theorem exec_memHistory {i : Instr} {s t : State} (hi : ∀ idx buf len sel, i ≠ .sendIndexedBuffer idx buf len sel)
    (h : exec i s = .next t) : t.memHistory = s.memHistory :=
  (exec_frame h).reads fun _ hm => by
    obtain ⟨idx, buf, len, sel, hi'⟩ := (fullSeq_steps s.cfg i _ hm).eq_sendIndexedBuffer_of_xferMem
    exact hi idx buf len sel hi'

/-! ### The frame of the framer operations -/

theorem isGated_of_isFramer {i : Instr} (h : isFramer i = true) : isGated i = true := by
  cases i with
  | resume => cases h
  | suspend => cases h
  | resetSequence => cases h
  | waitBusy => cases h
  | _ => rfl

/-- A step of a framer operation names no pin but DC and the chip-selects. -/
theorem framer_touches {c : Configuration} {i : Instr} (hi : isFramer i = true) {p : PinId} (hdc : p ≠ c.dc)
    (hcsM : p ≠ c.csM) (hcsS : p ≠ c.csS) {m : Micro} (hm : StepOf c i m) (e : Shown) (he : MayEmit c m e) :
    touchedPin e ≠ some p := by
  cases hm with
  | frameDrive _ r hr v =>
    cases he
    rcases hr with rfl | rfl | rfl <;> simp [touchedPin, pinOf, Ne.symm hdc, Ne.symm hcsM, Ne.symm hcsS]
  | frameXfer => cases he; simp [touchedPin]
  | frameXferMem => obtain ⟨b, rfl⟩ := he; simp [touchedPin]
  | frameDelay => cases he; simp [touchedPin]
  | _ => cases hi

/-- Settles O34. -/
theorem framerOperationsFrame : Obligations.FramerOperationsFrame := by
  intro i s t hi h
  have hx := exec_extends i s t h
  have hres : i ≠ .resume := by rintro rfl; cases hi
  have hpoll : ∀ lvl, i ≠ .waitBusy lvl := by rintro lvl rfl; cases hi
  obtain ⟨hl, hd⟩ := exec_levels hpoll h
  exact ⟨exec_gated_ps (isGated_of_isFramer hi) h, fun p hp => exec_modes hres h hp,
    fun p hp hdc hcsM hcsS => exec_cell_untouched h hp fun m hm => framer_touches hi hdc hcsM hcsS hm,
    memRead_congr hx.mem, hx.cfg, hx.opIndex, hx.hostReads, hl, hd, fun hf => exec_fault_sticky hf h,
    fun hno => exec_memHistory hno h⟩

/-! ### The frame of the power sequencer operations -/

/-- `suspend` writes no pin but the rail's. -/
theorem suspend_cells {s t : State} (h : exec .suspend s = .next t) {p : PinId} (hp : p ≠ NC) (hr : p ≠ s.cfg.rail) :
    pinCell t p = pinCell s p := by
  refine exec_cell_untouched h hp fun m hm e he => ?_
  cases hm with
  | suspendDrive v => cases he; simpa [touchedPin, pinOf] using Ne.symm hr
  | suspendPower => cases he
  | frameDrive hi | frameXfer hi | frameDelay hi => cases hi

/-- `resetSequence` writes no pin but the reset line's and `csM`'s. -/
theorem resetSequence_cells {s t : State} {d1 d2 d3 d4 d5 : Word} (h : exec (.resetSequence d1 d2 d3 d4 d5) s = .next t)
    {p : PinId} (hp : p ≠ NC) (hr : p ≠ s.cfg.reset) (hm : p ≠ s.cfg.csM) : pinCell t p = pinCell s p := by
  refine exec_cell_untouched h hp fun m hstep e he => ?_
  cases hstep with
  | resetDrive _ _ _ _ _ r hr' v =>
    cases he
    rcases hr' with rfl | rfl <;> simp [touchedPin, pinOf, Ne.symm hr, Ne.symm hm]
  | resetDelay => cases he; simp [touchedPin]
  | frameDrive hi | frameXfer hi | frameDelay hi => cases hi

/-- `resume` names no pin but those of connected roles and extension pins. -/
theorem resume_cells {s t : State} (h : exec .resume s = .next t) {p : PinId} (hp : p ≠ NC)
    (hno : ¬ IsResumePin s.cfg p) : pinCell t p = pinCell s p := by
  refine exec_cell_untouched h hp fun m hm e he => ?_
  cases hm with
  | resumeInit => cases he; simp [touchedPin]
  | resumeMode q d hq => cases he; rintro ⟨⟩; exact hno hq
  | resumeWrite q v hq => cases he; rintro ⟨⟩; exact hno hq
  | resumePower => cases he
  | frameDrive hi | frameXfer hi | frameDelay hi => cases hi

/-- `waitBusy` writes no pin. -/
theorem waitBusy_pins {s t : State} {lvl : Level} (h : exec (.waitBusy lvl) s = .next t) : t.pins = s.pins :=
  (exec_frame h).pins (by simp [fullSeq, waitBusySeq]) (by simp [fullSeq, waitBusySeq])
    (by simp [fullSeq, waitBusySeq])

/-- Only a framer operation transfers bytes. -/
theorem exec_bytes {i : Instr} {s t : State} (hi : isFramer i = false) (h : exec i s = .next t) :
    t.byteInputs = s.byteInputs ∧ t.byteDraws = s.byteDraws := by
  refine (exec_frame h).bytes (fun b hm => ?_) fun a hm => ?_
  · rw [(fullSeq_steps s.cfg i _ hm).framer_of_xfer] at hi
    cases hi
  · obtain ⟨idx, buf, len, sel, rfl⟩ := (fullSeq_steps s.cfg i _ hm).eq_sendIndexedBuffer_of_xferMem
    cases hi

/-- Settles O35. -/
theorem powerSequencerFrame : Obligations.PowerSequencerFrame := by
  intro i s t hi h
  have hx := exec_extends i s t h
  have hsib : ∀ idx buf len sel, i ≠ .sendIndexedBuffer idx buf len sel := by rintro idx buf len sel rfl; cases hi
  obtain ⟨hb, hd⟩ := exec_bytes hi h
  refine ⟨fun hres p hp => exec_modes hres h hp, ?_, ?_, ?_, ?_, fun hg => exec_gated_ps hg h,
    fun hpoll => exec_levels hpoll h, memRead_congr hx.mem, exec_memHistory hsib h, hb, hd, hx.cfg, hx.opIndex,
    hx.hostReads, fun hf => exec_fault_sticky hf h⟩
  · rintro rfl p hp hr
    exact suspend_cells h hp hr
  · rintro d1 d2 d3 d4 d5 rfl p hp hr hm
    exact resetSequence_cells h hp hr hm
  · rintro lvl rfl
    exact waitBusy_pins h
  · rintro rfl p hp hrole hext
    refine resume_cells h hp ?_
    rintro ⟨-, ⟨r, hr⟩ | ⟨x, hx', hxp⟩⟩
    · exact hrole r hr
    · exact hext x hx' hxp

/-! ### Lines -/

theorem lineDriven_eq (c : PinCell) : lineDriven c = if c.mode = .output then some c.level else none := by
  unfold lineDriven
  cases c.mode <;> simp

/-- A step that changes a mode runs `resume`, just accepted or in flight. -/
theorem step_mode_changed {s t : State} {p : PinId} (hs : PortConsistent s) (h : step s = .next t) (hp : p ≠ NC)
    (hne : (pinCell t p).mode ≠ (pinCell s p).mode) :
    ∃ words, decode words = .ok .resume ∧ (issuesNext s words ∨ ∃ todo, s.port = .executing words todo) := by
  have hpins : t.pins ≠ s.pins := fun hsame => hne (by rw [pinCell_congr hsame])
  cases step_effect h with
  | access ha => exact absurd ha.pins hpins
  | overlap _ ht => exact absurd (by simp [ht]) hpins
  | illegal words _ ht => exact absurd (by simp [ht]) hpins
  | accepted words i hi hd ht =>
    by_cases hres : i = .resume
    · exact ⟨words, hres ▸ hd, .inl hi⟩
    · exact absurd (exec_modes hres ht hp) hne
  | going words todo hport ht =>
    obtain ⟨-, -, i, hd, hrest, -⟩ := hs words todo hport
    by_cases hres : i = .resume
    · exact ⟨words, hres ▸ hd, .inr ⟨todo, hport⟩⟩
    · subst ht
      refine absurd ((run_frame todo s).modes (run_extends todo s) hp fun q d hm => ?_) hne
      exact pinMode_notMem_of_ne_resume hres q d (hrest.subset hm)

/-- Settles O36. -/
theorem lineState : Obligations.LineState := by
  refine ⟨fun s p _ => lineDriven_eq _, fun s t h p hp => ⟨exec_modes (by simp) h hp, fun hr => ?_⟩,
    fun i s t hi h p hp => exec_modes hi h hp, fun s t p hs h hp hne => step_mode_changed hs h hp hne⟩
  rw [suspend_cells h hp hr]

end Sys2Proof.Machine
end

section
/-! SUPPORT. What a step does to host memory, and the canonical form of host memory and the pin bank (spec/20_memory.md R50,
R55, R66; spec/10_state.md R28). -/

namespace Sys2Proof.Machine

/-! ### Host memory under a step -/

@[simp] theorem moved_hostMem (s : State) : (moved s).hostMem = s.hostMem := rfl

/-- What a step does to host memory (20_memory.md R66): nothing, unless the host writes a byte or the platform refuses an
address. -/
inductive MemoryEffect (s t : State) : Prop where
  | kept (hm : t.hostMem = s.hostMem)
  | written (a : Word) (b : Byte) (ha : s.agenda.head?.map HostMove.action = some (.memWrite a b))
      (ht : t = memWrite a.toNat b (moved s))
  | refused (a : Word) (ha : s.agenda.head?.map HostMove.action = some (.memRefuse a))
      (ht : t = memRefuse a.toNat (moved s))

theorem step_memoryEffect {s t : State} (h : step s = .next t) : MemoryEffect s t := by
  cases step_cases h with
  | rest _ _ ht => exact .kept (by rw [ht])
  | read r _ ht => exact .kept (by simp [ht])
  | write r v _ ht => exact .kept (by simp [ht])
  | memWrite a b ha ht => exact .written a b ha ht
  | memRefuse a ha ht => exact .refused a ha ht
  | overlap _ _ ht => exact .kept (by simp [ht])
  | illegal words e _ _ _ _ _ ht => exact .kept (by simp [ht])
  | accepted words i _ _ _ _ ht => exact .kept (exec_extends i _ t ht).mem
  | going words todo _ ht => exact .kept (ht ▸ (run_extends todo s).mem)

/-- Every step keeps host memory canonical. -/
theorem step_memory_wf {s t : State} (hs : Memory.wf s.hostMem = true) (h : step s = .next t) :
    Memory.wf t.hostMem = true := by
  cases step_memoryEffect h with
  | kept hm => exact hm ▸ hs
  | written a b _ ht => exact ht ▸ memWrite_wf a b (moved s) hs
  | refused a _ ht => exact ht ▸ memRefuse_wf a.toNat (moved s) hs

/-! ### The pin bank under a step -/

/-- A step of the sequencer keeps the pin bank canonical: what writes a pin writes it by `setPinCell`. -/
theorem advance_done_pinBankWf {m : Micro} {s t : State} (hs : pinBankWf s.pins = true) (h : advance m s = .done t) :
    pinBankWf t.pins = true := by
  cases m with
  | pinMode p d => cases h; simpa using setPinCell_wf p _ s hs
  | pinWrite p v => cases h; simpa using setPinCell_wf p _ s hs
  | drive r v =>
    simp only [advance] at h
    split at h
    · next hd =>
      obtain ⟨-, rfl⟩ := drive_some hd
      cases h
      simpa using setPinCell_wf _ _ s hs
    · cases h
  | _ =>
    rw [(advance_done_frame h).pins (by simp) (by simp) (by simp)]
    exact hs

theorem run_pinBankWf (todo : List Micro) {s : State} (hs : pinBankWf s.pins = true) :
    pinBankWf (run todo s).pins = true := by
  refine run_preserves (fun u => pinBankWf u.pins = true) todo (fun _ _ _ _ => advance_done_pinBankWf)
    (fun m _ u v hu ha => ?_) (fun _ _ hu => hu) (fun _ hu => hu) (fun r u hu => by simpa [raiseHazard] using hu) s hs
  obtain ⟨⟨lvl, rfl⟩, -⟩ := advance_again_keeps ha
  rw [(advance_again_frame ha).pins (by simp) (by simp) (by simp)]
  exact hu

theorem exec_pinBankWf {i : Instr} {s t : State} (hs : pinBankWf s.pins = true) (h : exec i s = .next t) :
    pinBankWf t.pins = true := by
  cases exec_cases h with
  | selector _ ht => simpa [ht] using hs
  | unpowered _ _ ht => simpa [ht] using hs
  | range _ _ _ _ _ _ _ ht => simpa [ht] using hs
  | runs _ _ _ _ ht => exact ht ▸ run_pinBankWf _ hs
  | resumeOn _ _ ht => simpa [ht] using hs
  | suspendOff _ _ ht => simpa [ht] using hs

/-- Every step keeps the pin bank canonical. -/
theorem step_pinBankWf {s t : State} (hs : pinBankWf s.pins = true) (h : step s = .next t) :
    pinBankWf t.pins = true := by
  cases step_effect h with
  | access ha => exact ha.pins ▸ hs
  | overlap _ ht => simpa [ht] using hs
  | illegal words _ ht => simpa [ht] using hs
  | accepted words i _ _ ht => exact exec_pinBankWf (s := accept words (moved s)) hs ht
  | going words todo _ ht => exact ht ▸ run_pinBankWf todo hs

/-- Settles O46: the host's moves keep host memory canonical, the sequencer's steps the pin bank. -/
theorem stepKeepsCanonicalForm : Obligations.StepKeepsCanonicalForm := fun _ _ ⟨hmem, hpins⟩ h =>
  ⟨step_memory_wf hmem h, step_pinBankWf hpins h⟩

/-! ### The host's write and the platform's refusal -/

theorem agenda_eq_of_head {s : State} {act : HostAction} (ha : s.agenda.head?.map HostMove.action = some act) :
    ∃ tm rest, s.agenda = ⟨tm, act⟩ :: rest := by
  cases hag : s.agenda with
  | nil => simp [hag] at ha
  | cons mv rest =>
    have hact : mv.action = act := by simpa [hag] using ha
    exact ⟨mv.timing, rest, by rw [← hact]⟩

/-- A write of the buffer in flight is refused (log entry 11). -/
theorem step_memWrite_inBuffer {s : State} {tm : Timing} {a : Word} {b : Byte} {rest : List HostMove}
    (ht : hostsTurn s) (ha : s.agenda = ⟨tm, .memWrite a b⟩ :: rest) (hb : inBufferInFlight s a.toNat = true) :
    step s = .refused (.bufferWrittenInFlight a.toNat) := by
  have hb' : inBufferInFlight { s with agenda := rest } a.toNat = true := hb
  simp only [step, fetch_of_hostsTurn ht, hostTurn_cons ha, hostAct, if_pos hb']

/-- Any other write is made (log entry 6). -/
theorem step_memWrite {s : State} {tm : Timing} {a : Word} {b : Byte} {rest : List HostMove} (ht : hostsTurn s)
    (ha : s.agenda = ⟨tm, .memWrite a b⟩ :: rest) (hb : inBufferInFlight s a.toNat = false) :
    step s = .next (memWrite a.toNat b { s with agenda := rest }) := by
  have hb' : ¬ inBufferInFlight { s with agenda := rest } a.toNat = true := by
    rw [Bool.not_eq_true]
    exact hb
  simp only [step, fetch_of_hostsTurn ht, hostTurn_cons ha, hostAct, if_neg hb']

/-- The platform's refusal is a move of its own (log entry 20). -/
theorem step_memRefuse {s : State} {tm : Timing} {a : Word} {rest : List HostMove} (ht : hostsTurn s)
    (ha : s.agenda = ⟨tm, .memRefuse a⟩ :: rest) :
    step s = .next (memRefuse a.toNat { s with agenda := rest }) := by
  simp only [step, fetch_of_hostsTurn ht, hostTurn_cons ha, hostAct]

/-- A byte written reads as written. -/
theorem memRead_memWrite_same (a : Nat) (b : Byte) (s : State) : memRead (memWrite a b s) a = some b := by
  rw [memRead_memWrite, if_pos rfl]

/-- A write leaves every other byte. -/
theorem memRead_memWrite_of_ne {a a' : Nat} (h : a' ≠ a) (b : Byte) (s : State) :
    memRead (memWrite a b s) a' = memRead s a' := by
  rw [memRead_memWrite, if_neg h]

/-- Settles O37: `exec` extends its state, and of the host's moves only a write and a refusal reach memory. -/
theorem onlyTheHostWritesHostMemory : Obligations.OnlyTheHostWritesHostMemory := by
  refine ⟨fun i s t h => memRead_congr (exec_extends i s t h).mem, fun s t h => ?_,
    fun s tm a b rest ht ha => ⟨step_memWrite_inBuffer ht ha, fun hb => ⟨_, step_memWrite ht ha hb, rfl,
      memRead_memWrite_same _ b _, fun a' hne => memRead_memWrite_of_ne hne b _⟩⟩,
    fun s tm a rest ht hcan ha => ⟨_, step_memRefuse ht ha, rfl, fun a' => memRead_memRefuse a.toNat a' _ hcan.1⟩⟩
  cases step_memoryEffect h with
  | kept hm => exact .inl (memRead_congr hm)
  | written a b ha ht =>
    obtain ⟨tm, rest, hag⟩ := agenda_eq_of_head ha
    subst ht
    exact .inr (.inl ⟨a, b, rest, tm, hag, memRead_memWrite_same _ b _,
      fun a' hne => memRead_memWrite_of_ne hne b (moved s), rfl⟩)
  | refused a ha ht =>
    obtain ⟨tm, rest, hag⟩ := agenda_eq_of_head ha
    subst ht
    exact .inr (.inr ⟨a, rest, tm, hag, fun hcan a' => memRead_memRefuse a.toNat a' (moved s) hcan.1⟩)

end Sys2Proof.Machine
end

section
/-! SUPPORT. The histories under a step: the trace, the memory requests and the faults (spec/20_memory.md R52, R55;
spec/60_exceptions.md R170). -/

namespace Sys2Proof.Machine

/-- The three histories of `t` begin with those of `s`. -/
def HistoriesGrow (s t : State) : Prop :=
  s.trace <+: t.trace ∧ s.memHistory <+: t.memHistory ∧ s.faultHistory <+: t.faultHistory

theorem Extends.historiesGrow {s t : State} (h : Extends s t) (hf : s.faultHistory <+: t.faultHistory) :
    HistoriesGrow s t := by
  obtain ⟨new, ht, -⟩ := h.trace
  obtain ⟨reads, hr⟩ := h.reads
  exact ⟨⟨new, ht.symm⟩, ⟨reads, hr.symm⟩, hf⟩

theorem raise_faultHistory_prefix (code : FaultCode) (site : Option (Role × PinId)) (s : State) :
    s.faultHistory <+: (raise code site s).faultHistory := by
  rw [raise_faultHistory]
  split
  · exact List.prefix_append _ _
  · exact List.prefix_rfl

theorem run_faultHistory_prefix (todo : List Micro) (s : State) : s.faultHistory <+: (run todo s).faultHistory := by
  cases run_ends todo s with
  | finished _ _ hh _ => rw [hh]
  | hazard r before rest m _ _ _ _ hh _ => exact hh ▸ List.prefix_append _ _
  | paused before rest m _ _ _ hh _ => rw [hh]

theorem exec_faultHistory_prefix {i : Instr} {s t : State} (h : exec i s = .next t) :
    s.faultHistory <+: t.faultHistory := by
  cases exec_cases h with
  | selector _ ht => exact ht ▸ raise_faultHistory_prefix _ _ s
  | unpowered _ _ ht => exact ht ▸ raise_faultHistory_prefix _ _ s
  | range _ _ _ _ _ _ _ ht => exact ht ▸ raise_faultHistory_prefix _ _ s
  | runs _ _ _ _ ht => exact ht ▸ run_faultHistory_prefix _ s
  | resumeOn _ _ ht => rw [ht, complete_faultHistory]
  | suspendOff _ _ ht => rw [ht]

theorem step_historiesGrow {s t : State} (h : step s = .next t) : HistoriesGrow s t := by
  cases step_effect h with
  | access hs => exact ⟨by rw [hs.trace], by rw [hs.memHistory], by rw [hs.faultHistory]⟩
  | overlap _ ht => exact ⟨by simp [ht], by simp [ht], ht ▸ raise_faultHistory_prefix _ _ (moved s)⟩
  | illegal words _ ht =>
    exact ⟨by simp [ht], by simp [ht], ht ▸ raise_faultHistory_prefix _ _ (accept words (moved s))⟩
  | accepted words i _ _ ht => exact (exec_extends i _ t ht).historiesGrow (exec_faultHistory_prefix ht)
  | going words todo _ ht => exact ht ▸ (run_extends todo s).historiesGrow (run_faultHistory_prefix todo s)

/-- Settles O50. -/
theorem historiesAreAppendOnly : Obligations.HistoriesAreAppendOnly := fun _ _ h => step_historiesGrow h

end Sys2Proof.Machine
end

section
/-! SUPPORT. States that differ only in the bytes transfers return, and that every step keeps them so (spec/20_memory.md
R58). -/

namespace Sys2Proof.Machine

/-! ### States alike but for received bytes -/

/-- The states differ in the received bytes of the trace and in the environment's coming bytes only. -/
def SameButReceived (s t : State) : Prop := hideReceived s = hideReceived t

/-- An update that neither sees nor changes what `hideReceived` hides keeps states alike. -/
theorem SameButReceived.map {s t : State} (h : SameButReceived s t) (f : State → State)
    (hf : ∀ u, hideReceived (f u) = f (hideReceived u)) : SameButReceived (f s) (f t) := by
  unfold SameButReceived at h ⊢
  rw [hf s, hf t, h]

section Observations
variable {s t : State} (h : SameButReceived s t)
include h

/-- What sees nothing of what `hideReceived` hides reads the same from both states. -/
theorem SameButReceived.observe {α : Type} (f : State → α) (hf : ∀ u, f (hideReceived u) = f u) : f s = f t := by
  unfold SameButReceived at h
  rw [← hf s, ← hf t, h]

theorem SameButReceived.cfg : s.cfg = t.cfg := h.observe State.cfg fun _ => rfl
theorem SameButReceived.fault : s.fault = t.fault := h.observe State.fault fun _ => rfl
theorem SameButReceived.port : s.port = t.port := h.observe State.port fun _ => rfl
theorem SameButReceived.agenda : s.agenda = t.agenda := h.observe State.agenda fun _ => rfl
theorem SameButReceived.hostDue : hostDue s = hostDue t := h.observe Machine.hostDue fun _ => rfl
theorem SameButReceived.hostCounts : hostCounts s = hostCounts t := h.observe Machine.hostCounts fun _ => rfl
theorem SameButReceived.busEnabled : busEnabled s = busEnabled t := h.observe Machine.busEnabled fun _ => rfl
theorem SameButReceived.gpioConfigured : gpioConfigured s = gpioConfigured t :=
  h.observe Machine.gpioConfigured fun _ => rfl

theorem SameButReceived.memRead (a : Nat) : memRead s a = memRead t a := h.observe (Machine.memRead · a) fun _ => rfl

theorem SameButReceived.inBufferInFlight (a : Nat) : inBufferInFlight s a = inBufferInFlight t a :=
  h.observe (Machine.inBufferInFlight · a) fun _ => rfl

theorem SameButReceived.waitsForRead (todo : List Micro) : waitsForRead todo s = waitsForRead todo t :=
  h.observe (Machine.waitsForRead todo) fun _ => rfl

theorem SameButReceived.canDrive (r : Role) : canDrive s r = canDrive t r :=
  h.observe (Machine.canDrive · r) fun _ => rfl

theorem SameButReceived.canSample (r : Role) : canSample s r = canSample t r :=
  h.observe (Machine.canSample · r) fun _ => rfl

theorem SameButReceived.drawnLevel : (drawLevel s).1 = (drawLevel t).1 :=
  h.observe (fun u => (drawLevel u).1) fun u => by
    have hl : (hideReceived u).levelInputs = u.levelInputs := rfl
    simp only [drawLevel, hl]
    split <;> rfl

end Observations

/-! ### The primitives -/

/-- An event with the byte a transfer returned taken out. -/
def hideByte : Event → Event
  | .xfer b _ => .xfer b 0#8
  | e => e

theorem hideReceived_emit (e : Event) (s : State) :
    hideReceived (emit e s) = emit (hideByte e) (hideReceived s) := by
  simp only [hideReceived, emit, List.map_append, List.map_cons, List.map_nil]
  cases e <;> rfl

theorem hideReceived_setPinCell (p : PinId) (c : PinCell) (s : State) :
    hideReceived (setPinCell p c s) = setPinCell p c (hideReceived s) := by
  unfold setPinCell
  split <;> rfl

theorem hideReceived_tick (s : State) : hideReceived (tick s) = tick (hideReceived s) := by
  have ha : (hideReceived s).agenda = s.agenda := rfl
  simp only [tick, ha]
  split <;> rfl

theorem hideReceived_drawLevel (s : State) : hideReceived (drawLevel s).2 = (drawLevel (hideReceived s)).2 := by
  have hl : (hideReceived s).levelInputs = s.levelInputs := rfl
  simp only [drawLevel, hl]
  split <;> rfl

theorem hideReceived_drawByte (s : State) : hideReceived (drawByte s).2 = hideReceived s := by
  unfold drawByte
  split <;> rfl

theorem hideReceived_raise (code : FaultCode) (site : Option (Role × PinId)) (s : State) :
    hideReceived (raise code site s) = raise code site (hideReceived s) := by
  have hf : (hideReceived s).fault = s.fault := rfl
  simp only [raise, hf]
  split <;> rfl

theorem hideReceived_doPinMode (p : PinId) (m : Direction) (s : State) :
    hideReceived (doPinMode p m s) = doPinMode p m (hideReceived s) := by
  rw [doPinMode, hideReceived_emit, hideReceived_setPinCell]
  rfl

theorem hideReceived_doPinWrite (p : PinId) (v : Level) (s : State) :
    hideReceived (doPinWrite p v s) = doPinWrite p v (hideReceived s) := by
  rw [doPinWrite, hideReceived_emit, hideReceived_setPinCell]
  rfl

section Primitives
variable {s t : State} (h : SameButReceived s t)
include h

theorem SameButReceived.emit {e e' : Event} (he : hideByte e = hideByte e') :
    SameButReceived (emit e s) (emit e' t) := by
  unfold SameButReceived at h ⊢
  rw [hideReceived_emit, hideReceived_emit, he, h]

theorem SameButReceived.tick : SameButReceived (tick s) (tick t) := h.map _ hideReceived_tick

theorem SameButReceived.doPinWrite (r : Role) (v : Level) :
    SameButReceived (doPinWrite (pinOf s.cfg r) v s) (doPinWrite (pinOf t.cfg r) v t) :=
  h.cfg ▸ h.map _ (hideReceived_doPinWrite _ v)

/-- A transfer records the byte returned in its event and nowhere else. -/
theorem SameButReceived.doXfer (b : Byte) : SameButReceived (doXfer b s) (doXfer b t) := by
  have hdraw : SameButReceived (drawByte s).2 (drawByte t).2 :=
    (hideReceived_drawByte s).trans (h.trans (hideReceived_drawByte t).symm)
  exact hdraw.emit rfl

theorem SameButReceived.doPinRead (r : Role) :
    SameButReceived (doPinRead (pinOf s.cfg r) s).2 (doPinRead (pinOf t.cfg r) t).2 := by
  simp only [Machine.doPinRead, h.cfg, h.drawnLevel]
  exact (h.map _ hideReceived_drawLevel).emit rfl

theorem SameButReceived.raiseHazard (r : Role) : SameButReceived (raiseHazard r s) (raiseHazard r t) := by
  simp only [Machine.raiseHazard, h.cfg]
  exact h.map _ (hideReceived_raise _ _)

end Primitives

/-! ### The sequencer -/

/-- Two steps of the sequencer end the same way, in states alike. -/
inductive AdvanceAlike : Advance → Advance → Prop where
  | done {s t : State} (h : SameButReceived s t) : AdvanceAlike (.done s) (.done t)
  | again {s t : State} (h : SameButReceived s t) : AdvanceAlike (.again s) (.again t)
  | refused : AdvanceAlike .refused .refused
  | hazard (r : Role) : AdvanceAlike (.hazard r) (.hazard r)

theorem advance_alike {s t : State} (h : SameButReceived s t) (m : Micro) :
    AdvanceAlike (advance m s) (advance m t) := by
  cases m with
  | gpioInit => exact .done (h.emit rfl).tick
  | pinMode p d => exact .done (h.map _ (hideReceived_doPinMode p d)).tick
  | pinWrite p v => exact .done (h.map _ (hideReceived_doPinWrite p v)).tick
  | drive r v =>
    simp only [advance, drive_eq, h.canDrive]
    by_cases hc : canDrive t r = true
    · simp only [if_pos hc]
      exact .done (h.doPinWrite r v).tick
    · simp only [if_neg hc]
      exact .hazard r
  | poll lvl =>
    simp only [advance, sample_eq, h.canSample]
    by_cases hc : canSample t .busy = true
    · have hlevel : (doPinRead (pinOf s.cfg .busy) s).1 = (doPinRead (pinOf t.cfg .busy) t).1 := h.drawnLevel
      simp only [if_pos hc, hlevel]
      split
      · exact .done (h.doPinRead .busy).tick
      · exact .again ((h.doPinRead .busy).emit rfl).tick
    · simp only [if_neg hc]
      exact .hazard .busy
  | xfer b => exact .done (h.doXfer b).tick
  | xferMem a =>
    simp only [advance, h.memRead]
    cases memRead t a with
    | none => exact .refused
    | some b =>
      have hread := h.map (fun u => { u with memHistory := u.memHistory ++ [(a, b)] }) fun _ => rfl
      exact .done (hread.doXfer b).tick
  | delayUs n => exact .done (h.emit rfl).tick
  | delayMs n => exact .done (h.emit rfl).tick
  | setPower ps => exact .done (h.map (fun u => { u with ps := ps }) fun _ => rfl)

theorem SameButReceived.run (todo : List Micro) {s t : State} (h : SameButReceived s t) :
    SameButReceived (run todo s) (run todo t) := by
  induction todo generalizing s t with
  | nil => exact h.map complete fun _ => rfl
  | cons m rest ih =>
    have hpause : ∀ {u v : State}, SameButReceived u v →
        SameButReceived (pauseAt (m :: rest) u) (pauseAt (m :: rest) v) := fun hu => hu.map _ fun _ => rfl
    unfold Machine.run
    rw [h.hostDue]
    split
    · exact hpause h
    · have hm := advance_alike h m
      generalize advance m s = a at hm ⊢
      generalize advance m t = b at hm ⊢
      cases hm with
      | done ha => exact ih ha
      | again ha => exact hpause ha
      | refused => exact hpause h
      | hazard r => exact h.raiseHazard r

/-! ### The operations -/

section Operations
variable {s t : State} (h : SameButReceived s t)
include h

theorem SameButReceived.gate {go : State → State} (hgo : SameButReceived (go s) (go t)) :
    SameButReceived (gate s go) (gate t go) := by
  unfold Machine.gate
  rw [h.busEnabled]
  split
  · exact hgo
  · exact h.map _ (hideReceived_raise _ _)

theorem SameButReceived.requireSel (sel : Sel) {go : State → State} (hgo : SameButReceived (go s) (go t)) :
    SameButReceived (requireSel sel s go) (requireSel sel t go) := by
  unfold Machine.requireSel
  split
  · exact hgo
  · exact h.map _ (hideReceived_raise _ _)

/-- A sequence built from the configuration is the same from both states. -/
theorem SameButReceived.runSeq (seq : Configuration → List Micro) :
    SameButReceived (Machine.run (seq s.cfg) s) (Machine.run (seq t.cfg) t) := h.cfg ▸ h.run _

/-- The outcomes are the same next state, but for received bytes. -/
theorem SameButReceived.next : outcomeMap hideReceived (.next s) = outcomeMap hideReceived (.next t) :=
  congrArg Host.Outcome.next h

theorem SameButReceived.exec (i : Instr) :
    outcomeMap hideReceived (exec i s) = outcomeMap hideReceived (exec i t) := by
  cases i with
  | sendCommand idx => exact (h.gate (h.runSeq (sendCommandSeq · idx))).next
  | sendCommandWithByte idx dat => exact (h.gate (h.runSeq (sendCommandWithByteSeq · idx dat))).next
  | sendCommandWithByteSelect idx dat sel =>
    exact (h.requireSel sel (h.gate (h.runSeq (sendCommandWithByteSelectSeq · idx dat sel)))).next
  | sendFixedValueRun idx dat count sel =>
    exact (h.gate (h.runSeq (sendFixedValueRunSeq · idx dat count sel))).next
  | sendIndexedBuffer idx buf len sel =>
    refine (h.gate ?_).next
    split
    · exact h.map _ (hideReceived_raise _ _)
    · exact h.runSeq (sendIndexedBufferSeq · idx buf len sel)
  | selectPanelHalf sel => exact (h.requireSel sel (h.gate (h.runSeq (selectPanelHalfSeq · sel)))).next
  | resume =>
    simp only [Machine.exec, execResume, h.gpioConfigured, h.cfg]
    exact (h.run _).next
  | suspend =>
    simp only [Machine.exec, execSuspend, h.gpioConfigured, h.cfg]
    exact (h.run _).next
  | resetSequence d1 d2 d3 d4 d5 => exact (h.gate (h.run (resetSequenceSeq d1 d2 d3 d4 d5))).next
  | waitBusy lvl => exact (h.gate (h.run (waitBusySeq lvl))).next

end Operations

/-! ### The port and the step -/

/-- The port gives the step the same thing to do, in states alike. -/
inductive FetchedAlike : Fetched → Fetched → Prop where
  | hold {s t : State} (h : SameButReceived s t) : FetchedAlike (.hold s) (.hold t)
  | run (i : Instr) {s t : State} (h : SameButReceived s t) : FetchedAlike (.run i s) (.run i t)
  | stop (f : Fault) : FetchedAlike (.stop f) (.stop f)
  | outside (r : Refusal) : FetchedAlike (.outside r) (.outside r)

section Port
variable {s t : State} (h : SameButReceived s t)
include h

theorem issue_alike (words : List Word) : FetchedAlike (issue words s) (issue words t) := by
  have hraise : ∀ {u v : State} (code : FaultCode), SameButReceived u v →
      FetchedAlike (.hold (raise code none u)) (.hold (raise code none v)) := fun code hu =>
    .hold (hu.map _ (hideReceived_raise code none))
  have haccept : SameButReceived (accept words s) (accept words t) := h.map _ fun _ => rfl
  unfold issue
  rw [h.fault, h.port]
  split
  · exact .stop _
  · split
    · exact hraise _ h
    · cases decode words with
      | ok i => exact .run i haccept
      | error e =>
        cases e with
        | wordCount => exact .outside _
        | _ => exact hraise _ haccept

theorem hostAct_alike (act : HostAction) : FetchedAlike (hostAct act s) (hostAct act t) := by
  cases act with
  | issue words => exact issue_alike h words
  | readReg r => exact .hold (h.map (hostRead r) fun _ => by cases r <;> rfl)
  | writeReg r v => exact .hold h
  | memWrite a b =>
    simp only [hostAct, h.inBufferInFlight]
    split
    · exact .outside _
    · exact .hold (h.map _ fun _ => rfl)
  | memRefuse a => exact .hold (h.map (memRefuse a.toNat) fun _ => rfl)

theorem hostTurn_alike : FetchedAlike (hostTurn s) (hostTurn t) := by
  cases ha : t.agenda with
  | nil =>
    simp only [hostTurn, h.agenda, ha]
    exact .hold h
  | cons mv rest =>
    rw [hostTurn_cons ha, hostTurn_cons (h.agenda.trans ha)]
    exact hostAct_alike (h.map (fun u => { u with agenda := rest }) fun _ => rfl) mv.action

theorem fetch_alike : FetchedAlike (fetch s) (fetch t) := by
  have hturn := hostTurn_alike h
  unfold fetch
  rw [h.port]
  cases t.port with
  | idle => exact hturn
  | executing words todo =>
    simp only [h.hostDue, h.waitsForRead, h.hostCounts]
    split
    · exact hturn
    · split
      · split
        · exact hturn
        · exact .stop _
      · exact .hold (h.run todo)

theorem step_alike : outcomeMap hideReceived (step s) = outcomeMap hideReceived (step t) := by
  have hf := fetch_alike h
  unfold step
  generalize fetch s = a at hf ⊢
  generalize fetch t = b at hf ⊢
  cases hf with
  | hold hf => exact hf.next
  | run i hf => exact hf.exec i
  | stop f => rfl
  | outside r => rfl

end Port

/-- Settles O52: other bytes from the environment make a state alike, and steps keep states alike. -/
theorem receivedBytesNeverMatter : Obligations.ReceivedBytesNeverMatter := fun s bytes n =>
  step_alike (s := { s with byteInputs := bytes, byteDraws := n }) (t := s) rfl

end Sys2Proof.Machine
end

section
/-! SUPPORT. When a word is legal, and what the decoder and the encoder make of each other (spec/30_encoding.md R70 to
R81). -/

namespace Sys2Proof

/-! ### The opcode map -/

theorem opMap_eq_some_iff {b : BitVec 4} {o : Opcode} : opMap b = some o ↔ b = o.code :=
  ⟨code_of_opMap b o, fun h => h ▸ opMap_code o⟩

theorem code_injective : Function.Injective Opcode.code := fun o o' h =>
  Option.some.inj (by rw [← opMap_code o, h, opMap_code o'])

@[simp] theorem operandCount_code (o : Opcode) : operandCount o.code = o.operandWords := by simp [operandCount]

theorem operandCount_reserved {b : BitVec 4} (h : opMap b = none) : operandCount b = 0 := by simp [operandCount, h]

/-! ### Legal words -/

/-- What R73 items 2 to 4 ask of a word for it to spell operation `o`: no reserved bit, no field `o` does not use, and the
selector if `o` requires it. -/
structure LegalAs (o : Opcode) (w : Word) : Prop where
  bit : reservedBit w = 0#1
  byte : reservedByte w = 0#8
  sel : o.usesSel = false → selField w = 0#2
  lvl : o.usesLvl = false → lvlField w = 0#1
  idx : o.usesIdx = false → idxField w = 0#8
  dat : o.usesDat = false → datField w = 0#8
  given : o.requiresSel = true → selField w ≠ 0#2

/-- The word spells an operation (R73, R75). -/
def LegalWord (w : Word) : Prop := ∃ o : Opcode, opField w = o.code ∧ LegalAs o w

theorem unusedFieldsZero_iff {o : Opcode} {w : Word} : unusedFieldsZero o w = true ↔
    (o.usesSel = false → selField w = 0#2) ∧ (o.usesLvl = false → lvlField w = 0#1) ∧
    (o.usesIdx = false → idxField w = 0#8) ∧ (o.usesDat = false → datField w = 0#8) := by
  simp only [unusedFieldsZero, Bool.and_eq_true, Bool.or_eq_true, beq_iff_eq, and_assoc,
    ← Bool.not_eq_true, or_iff_not_imp_left]

/-! ### The decoder -/

theorem decodeAs_eq_ok_iff {o : Opcode} {w : Word} {operands : List Word} {i : Instr} :
    decodeAs o w operands = .ok i ↔
      operands.length = o.operandWords ∧ LegalAs o w ∧ buildInstr o w operands = i := by
  unfold decodeAs
  split_ifs with hlen hres hunused hsel
  · simp [hlen]
  · refine iff_of_false (by simp) fun ⟨_, hl, _⟩ => ?_
    exact hres.elim (· hl.bit) (· hl.byte)
  · refine iff_of_false (by simp) fun ⟨_, hl, _⟩ => ?_
    simp [unusedFieldsZero_iff.mpr ⟨hl.sel, hl.lvl, hl.idx, hl.dat⟩] at hunused
  · obtain ⟨hr, h0⟩ := hsel
    exact iff_of_false (by simp) fun ⟨_, hl, _⟩ => hl.given hr h0
  · rw [not_or, not_not, not_not] at hres
    obtain ⟨bit, byte⟩ := hres
    obtain ⟨sel, lvl, idx, dat⟩ := unusedFieldsZero_iff.mp (Bool.not_eq_false _ ▸ hunused)
    have hl : LegalAs o w := ⟨bit, byte, sel, lvl, idx, dat, fun hr h0 => hsel ⟨hr, h0⟩⟩
    simp [not_not.mp hlen, hl]

theorem decodeAs_eq_wordCount_iff {o : Opcode} {w : Word} {operands : List Word} :
    decodeAs o w operands = .error .wordCount ↔ operands.length ≠ o.operandWords := by
  unfold decodeAs
  split_ifs with hlen <;> simp [hlen]

theorem decode_of_code {o : Opcode} {w : Word} (operands : List Word) (h : opField w = o.code) :
    decode (w :: operands) = decodeAs o w operands := by
  simp [decode, h]

theorem decode_of_reserved {w : Word} (operands : List Word) (h : opMap (opField w) = none) :
    decode (w :: operands) = if operands = [] then .error .reservedOp else .error .wordCount := by
  simp [decode, h]

/-- Inversion of the decoder: what it accepts, and as what. -/
theorem decode_eq_ok_iff {w : Word} {operands : List Word} {i : Instr} : decode (w :: operands) = .ok i ↔
    ∃ o : Opcode, opField w = o.code ∧ operands.length = o.operandWords ∧ LegalAs o w ∧
      buildInstr o w operands = i := by
  cases hm : opMap (opField w) with
  | none =>
    rw [decode_of_reserved operands hm]
    refine iff_of_false (by split <;> simp) fun ⟨o, ho, _⟩ => ?_
    simp [ho] at hm
  | some o =>
    have ho := opMap_eq_some_iff.mp hm
    rw [decode_of_code operands ho, decodeAs_eq_ok_iff]
    refine ⟨fun h => ⟨o, ho, h⟩, fun ⟨o', ho', h⟩ => ?_⟩
    obtain rfl := code_injective (ho.symm.trans ho')
    exact h

/-- The port takes exactly `N(OP)` operand words (R70, R81). -/
theorem decode_eq_wordCount_iff {w : Word} {operands : List Word} :
    decode (w :: operands) = .error .wordCount ↔ operands.length ≠ operandCount (opField w) := by
  cases hm : opMap (opField w) with
  | none =>
    rw [decode_of_reserved operands hm, operandCount_reserved hm]
    cases operands <;> simp
  | some o =>
    have ho := opMap_eq_some_iff.mp hm
    rw [decode_of_code operands ho, decodeAs_eq_wordCount_iff, ho, operandCount_code]

section Issue

variable {w : Word} {operands : List Word} (hlen : operands.length = operandCount (opField w))

include hlen

/-- An issue of the right length decodes exactly if its operation word is legal. -/
theorem exists_decode_ok_iff : (∃ i, decode (w :: operands) = .ok i) ↔ LegalWord w := by
  constructor
  · rintro ⟨i, hi⟩
    obtain ⟨o, ho, -, hl, -⟩ := decode_eq_ok_iff.mp hi
    exact ⟨o, ho, hl⟩
  · rintro ⟨o, ho, hl⟩
    rw [ho, operandCount_code] at hlen
    exact ⟨_, decode_eq_ok_iff.mpr ⟨o, ho, hlen, hl, rfl⟩⟩

/-- An issue of the right length whose word is not legal is an illegal operation. -/
theorem decode_error_of_not_legalWord (h : ¬ LegalWord w) :
    ∃ e, decode (w :: operands) = .error e ∧ e ≠ .wordCount := by
  cases hd : decode (w :: operands) with
  | ok i => exact absurd ((exists_decode_ok_iff hlen).mp ⟨i, hd⟩) h
  | error e => exact ⟨e, rfl, fun he => decode_eq_wordCount_iff.mp (he ▸ hd) hlen⟩

end Issue

/-! ### The encoder -/

theorem operands_length (i : Instr) : i.operands.length = i.opcode.operandWords := by cases i <;> rfl

/-- Every operation's encoding is in form (R71, R74, R81). -/
theorem encode_inForm : ∀ i : Instr, Laws.EncodeLength.Statement i
  | .sendCommand _ => Laws.EncodeLength.sendCommand ..
  | .sendCommandWithByte _ _ => Laws.EncodeLength.sendCommandWithByte ..
  | .sendCommandWithByteSelect _ _ _ => Laws.EncodeLength.sendCommandWithByteSelect ..
  | .sendFixedValueRun _ _ _ _ => Laws.EncodeLength.sendFixedValueRun ..
  | .sendIndexedBuffer _ _ _ _ => Laws.EncodeLength.sendIndexedBuffer ..
  | .selectPanelHalf _ => Laws.EncodeLength.selectPanelHalf ..
  | .resume => Laws.EncodeLength.resume
  | .suspend => Laws.EncodeLength.suspend
  | .resetSequence _ _ _ _ _ => Laws.EncodeLength.resetSequence ..
  | .waitBusy _ => Laws.EncodeLength.waitBusy ..

theorem code_ne_zero_of_given {s : Sel} (h : s.given = true) : s.code ≠ 0#2 := by
  revert h; cases s <;> decide

theorem given_selOfCode {b : BitVec 2} (h : b ≠ 0#2) : (selOfCode b).given = true := by
  revert b; decide

/-- The word of a well-formed operation is legal. -/
theorem legalAs_word {i : Instr} (h : i.wellFormed = true) : LegalAs i.opcode i.word := by
  obtain ⟨-, -, hbit, hbyte⟩ := encode_inForm i
  refine ⟨hbit, hbyte, ?_, ?_, ?_, ?_, ?_⟩
  · cases i <;> simp [Instr.opcode, Opcode.usesSel, Instr.word]
  · cases i <;> simp [Instr.opcode, Opcode.usesLvl, Instr.word]
  · cases i <;> simp [Instr.opcode, Opcode.usesIdx, Instr.word]
  · cases i <;> simp [Instr.opcode, Opcode.usesDat, Instr.word]
  · intro hr
    cases i with
    | sendCommandWithByteSelect idx dat sel => simpa [Instr.word] using code_ne_zero_of_given h
    | selectPanelHalf sel => simpa [Instr.word] using code_ne_zero_of_given h
    | _ => cases hr

/-- The fields and operand words of an operation's encoding are its own. -/
@[simp] theorem buildInstr_encode (i : Instr) : buildInstr i.opcode i.word i.operands = i := by
  cases i <;> simp [Instr.opcode, Instr.word, Instr.operands, buildInstr]

theorem decode_encode {i : Instr} (h : i.wellFormed = true) : decode (encode i) = .ok i := by
  obtain ⟨-, hop, -, -⟩ := encode_inForm i
  exact decode_eq_ok_iff.mpr ⟨i.opcode, hop, operands_length i, legalAs_word h, buildInstr_encode i⟩

/-! ### What is decoded encodes to the words it came from -/

@[simp] theorem opcode_buildInstr (o : Opcode) (w : Word) (operands : List Word) :
    (buildInstr o w operands).opcode = o := by
  cases o <;> rfl

/-- A field that must be zero where it is not used is the field as far as it is used. -/
theorem usedField_eq {n : Nat} {used : Bool} {x : BitVec n} (h : used = false → x = 0#n) :
    (if used = true then x else 0#n) = x := by
  cases used with
  | true => rfl
  | false => exact (h rfl).symm

/-- The operation built from a word has the fields it uses of it, and zeros. -/
theorem word_buildInstr (o : Opcode) (w : Word) (operands : List Word) :
    (buildInstr o w operands).word =
      opWord (if o.usesDat = true then datField w else 0#8) (if o.usesIdx = true then idxField w else 0#8)
        (if o.usesLvl = true then lvlField w else 0#1) (if o.usesSel = true then selField w else 0#2) o.code := by
  cases o <;> simp [buildInstr, Instr.word, Opcode.code, Opcode.usesDat, Opcode.usesIdx, Opcode.usesLvl, Opcode.usesSel]

theorem word_buildInstr_of_legal {o : Opcode} {w : Word} (operands : List Word) (ho : opField w = o.code)
    (hl : LegalAs o w) : (buildInstr o w operands).word = w := by
  rw [word_buildInstr, usedField_eq hl.dat, usedField_eq hl.idx, usedField_eq hl.lvl, usedField_eq hl.sel, ← ho]
  exact opWord_of_fields w hl.bit hl.byte

/-- The operand words stand in the operation in their order. -/
theorem operands_buildInstr {o : Opcode} (w : Word) {operands : List Word} (h : operands.length = o.operandWords) :
    (buildInstr o w operands).operands = operands := by
  have hget : (buildInstr o w operands).operands = (List.range o.operandWords).map (operands.getD · 0#32) := by
    cases o <;> rfl
  rw [hget, ← h]
  exact List.ext_getElem (by simp) (by simp +contextual)

theorem wellFormed_buildInstr {o : Opcode} {w : Word} (operands : List Word) (hl : LegalAs o w) :
    (buildInstr o w operands).wellFormed = true := by
  cases o with
  | sendCommandWithByteSelect => exact given_selOfCode (hl.given rfl)
  | selectPanelHalf => exact given_selOfCode (hl.given rfl)
  | _ => rfl

theorem encode_of_decode {words : List Word} {i : Instr} (h : decode words = .ok i) :
    encode i = words ∧ i.wellFormed = true := by
  cases words with
  | nil => simp [decode] at h
  | cons w operands =>
    obtain ⟨o, ho, hlen, hl, rfl⟩ := decode_eq_ok_iff.mp h
    exact ⟨congrArg₂ List.cons (word_buildInstr_of_legal operands ho hl) (operands_buildInstr w hlen),
      wellFormed_buildInstr operands hl⟩

/-- Settles O1: the word of a well-formed operation is legal, and its fields read back. -/
theorem decodeOfEncodeIsTheOperation : Obligations.DecodeOfEncodeIsTheOperation := fun _ => decode_encode

/-- Settles O2: the fields a legal word may use are those the operation is built from. -/
theorem everyLegalIssueIsAnEncoding : Obligations.EveryLegalIssueIsAnEncoding := fun _ _ => encode_of_decode

/-- Settles O5: the length is read off the opcode map for each of the 16 codes. -/
theorem lengthFollowsFromOpAlone : Obligations.LengthFollowsFromOpAlone := fun w operands => by
  have hmap : ∀ op : BitVec 4, operationLength op =
      if op = 0x4#4 then 2 else if op = 0x5#4 then 3 else if op = 0xA#4 then 6 else 1 := by decide
  refine ⟨hmap _, decode_eq_wordCount_iff.trans ?_⟩
  exact not_congr (Nat.add_right_inj (n := 1)).symm

/-- Settles O4, by running the decoder on each. -/
theorem workedExampleWordsDecode : Obligations.WorkedExampleWordsDecode :=
  ⟨rfl, rfl, rfl, rfl, rfl, rfl, rfl, rfl, rfl, rfl, rfl⟩

end Sys2Proof
end

section
/-! SUPPORT. The encoding table and the conditions for an illegal operation, both as readings of which words are legal
(spec/30_encoding.md R73, R75, R80). -/

namespace Sys2Proof.Machine

/-! ### Words by their fields (R71) -/

/-- Words that agree in a field agree in its bits. -/
theorem getLsbD_eq_of_field_eq {v w : Word} {start len i : Nat} (h : v.extractLsb' start len = w.extractLsb' start len)
    (hlo : start ≤ i) (hhi : i < start + len) : v.getLsbD i = w.getLsbD i := by
  have hbit := congrArg (fun f => f.getLsbD (i - start)) h
  simpa [show i - start < len by omega, Nat.add_sub_cancel' hlo] using hbit

/-- The seven fields are the whole word. -/
theorem word_ext_iff {v w : Word} : v = w ↔
    opField v = opField w ∧ selField v = selField w ∧ lvlField v = lvlField w ∧ reservedBit v = reservedBit w ∧
    idxField v = idxField w ∧ datField v = datField w ∧ reservedByte v = reservedByte w := by
  refine ⟨fun h => by simp [h], fun ⟨op, sel, lvl, bit, idx, dat, byte⟩ => BitVec.eq_of_getLsbD_eq fun i hi => ?_⟩
  obtain h | ⟨lo, hi⟩ | ⟨lo, hi⟩ | ⟨lo, hi⟩ | ⟨lo, hi⟩ | ⟨lo, hi⟩ | ⟨lo, hi⟩ :
      i < 4 ∨ (4 ≤ i ∧ i < 6) ∨ (6 ≤ i ∧ i < 7) ∨ (7 ≤ i ∧ i < 8) ∨ (8 ≤ i ∧ i < 16) ∨
      (16 ≤ i ∧ i < 24) ∨ (24 ≤ i ∧ i < 32) := by omega
  · exact getLsbD_eq_of_field_eq op (Nat.zero_le i) h
  · exact getLsbD_eq_of_field_eq sel lo hi
  · exact getLsbD_eq_of_field_eq lvl lo hi
  · exact getLsbD_eq_of_field_eq bit lo hi
  · exact getLsbD_eq_of_field_eq idx lo hi
  · exact getLsbD_eq_of_field_eq dat lo hi
  · exact getLsbD_eq_of_field_eq byte lo hi

/-- A word has `pattern` under `mask` if each of its fields has. -/
theorem and_eq_iff_fields (w mask pattern : Word) : w &&& mask = pattern ↔
    opField w &&& opField mask = opField pattern ∧ selField w &&& selField mask = selField pattern ∧
    lvlField w &&& lvlField mask = lvlField pattern ∧ reservedBit w &&& reservedBit mask = reservedBit pattern ∧
    idxField w &&& idxField mask = idxField pattern ∧ datField w &&& datField mask = datField pattern ∧
    reservedByte w &&& reservedByte mask = reservedByte pattern := by
  simp only [word_ext_iff, opField, selField, lvlField, reservedBit, idxField, datField, reservedByte,
    BitVec.extractLsb'_and]

/-! ### The encoding table (R75) -/

/-- A row fixes the OP code and the reserved fields, and sets to zero the fields its operation does not use. -/
structure RowInForm (r : EncodingRow) : Prop where
  opMask : opField r.mask = BitVec.allOnes 4
  op : opField r.pattern = r.opcode.code
  fields : selField r.pattern = 0#2 ∧ lvlField r.pattern = 0#1 ∧ reservedBit r.pattern = 0#1 ∧
    idxField r.pattern = 0#8 ∧ datField r.pattern = 0#8 ∧ reservedByte r.pattern = 0#8
  bitMask : reservedBit r.mask = BitVec.allOnes 1
  byteMask : reservedByte r.mask = BitVec.allOnes 8
  selMask : selField r.mask = if r.opcode.usesSel = true then 0#2 else BitVec.allOnes 2
  lvlMask : lvlField r.mask = if r.opcode.usesLvl = true then 0#1 else BitVec.allOnes 1
  idxMask : idxField r.mask = if r.opcode.usesIdx = true then 0#8 else BitVec.allOnes 8
  datMask : datField r.mask = if r.opcode.usesDat = true then 0#8 else BitVec.allOnes 8
  needsSel : r.needsSel = r.opcode.requiresSel

theorem rowInForm_of_mem {r : EncodingRow} (h : r ∈ encodingRows) : RowInForm r := by
  fin_cases h <;> exact ⟨rfl, rfl, ⟨rfl, rfl, rfl, rfl, rfl, rfl⟩, rfl, rfl, rfl, rfl, rfl, rfl, rfl⟩

/-- Every operation has a row. -/
theorem exists_row (o : Opcode) : ∃ r ∈ encodingRows, r.opcode = o := by cases o <;> decide

/-- No operation has two rows. -/
theorem row_unique : ∀ r ∈ encodingRows, ∀ r' ∈ encodingRows, r'.opcode = r.opcode → r' = r := by decide

/-- A field under the mask of an operation that uses it or not. -/
theorem and_fieldMask_iff {n : Nat} {used : Bool} {x : BitVec n} :
    x &&& (if used = true then 0#n else BitVec.allOnes n) = 0#n ↔ (used = false → x = 0#n) := by
  cases used <;> simp

/-- A row matches the words that spell its operation and no others. -/
theorem rowMatches_iff {r : EncodingRow} (h : r ∈ encodingRows) {w : Word} :
    rowMatches r w ↔ opField w = r.opcode.code ∧ LegalAs r.opcode w := by
  obtain ⟨opMask, op, ⟨sel0, lvl0, bit0, idx0, dat0, byte0⟩, bitMask, byteMask, selMask, lvlMask, idxMask, datMask,
    needsSel⟩ := rowInForm_of_mem h
  rw [rowMatches, and_eq_iff_fields, opMask, op, sel0, lvl0, bit0, idx0, dat0, byte0, bitMask, byteMask, selMask,
    lvlMask, idxMask, datMask, needsSel]
  simp only [and_fieldMask_iff, BitVec.and_allOnes]
  constructor
  · rintro ⟨⟨ho, sel, lvl, bit, idx, dat, byte⟩, given⟩
    exact ⟨ho, bit, byte, sel, lvl, idx, dat, given⟩
  · rintro ⟨ho, bit, byte, sel, lvl, idx, dat, given⟩
    exact ⟨⟨ho, sel, lvl, bit, idx, dat, byte⟩, given⟩

/-- Settles O3: a row matches exactly the words that spell its operation, and each operation has one row. -/
theorem legalWordsMatchExactlyOneRow : Obligations.LegalWordsMatchExactlyOneRow := fun w operands hlen => by
  refine ⟨fun i hi => ?_, fun hnone => decode_error_of_not_legalWord hlen fun ⟨o, ho, hl⟩ => ?_⟩
  · obtain ⟨o, ho, -, hl, rfl⟩ := decode_eq_ok_iff.mp hi
    obtain ⟨r, hr, rfl⟩ := exists_row o
    refine ⟨r, hr, (rowMatches_iff hr).mpr ⟨ho, hl⟩, (opcode_buildInstr ..).symm, fun r' hr' hm => ?_⟩
    obtain ⟨ho', -⟩ := (rowMatches_iff hr').mp hm
    exact row_unique r hr r' hr' (code_injective (ho'.symm.trans ho))
  · obtain ⟨r, hr, rfl⟩ := exists_row o
    exact hnone r hr ((rowMatches_iff hr).mpr ⟨ho, hl⟩)

/-! ### Illegal words (R73) -/

/-- The reserved codes are those the opcode map leaves out (R80). -/
theorem mem_reservedOps_iff {b : BitVec 4} : b ∈ reservedOps ↔ opMap b = none := by revert b; decide

theorem code_notMem_reservedOps (o : Opcode) : o.code ∉ reservedOps := by
  simp [mem_reservedOps_iff]

theorem code_notMem_opsWithSel (o : Opcode) : o.code ∉ opsWithSel ↔ o.usesSel = false := by cases o <;> decide
theorem code_notMem_opsWithLvl (o : Opcode) : o.code ∉ opsWithLvl ↔ o.usesLvl = false := by cases o <;> decide
theorem code_notMem_opsWithIdx (o : Opcode) : o.code ∉ opsWithIdx ↔ o.usesIdx = false := by cases o <;> decide
theorem code_notMem_opsWithDat (o : Opcode) : o.code ∉ opsWithDat ↔ o.usesDat = false := by cases o <;> decide
theorem code_mem_opsRequiringSel (o : Opcode) : o.code ∈ opsRequiringSel ↔ o.requiresSel = true := by
  cases o <;> decide

/-- The four conditions of R73 with the fields by name. -/
theorem illegalWord_iff_fields {w : Word} : illegalWord w ↔
    opField w ∈ reservedOps ∨ (reservedBit w ≠ 0#1 ∨ reservedByte w ≠ 0#8) ∨
    ((opField w ∉ opsWithSel ∧ selField w ≠ 0#2) ∨ (opField w ∉ opsWithLvl ∧ lvlField w ≠ 0#1) ∨
     (opField w ∉ opsWithIdx ∧ idxField w ≠ 0#8) ∨ (opField w ∉ opsWithDat ∧ datField w ≠ 0#8)) ∨
    (opField w ∈ opsRequiringSel ∧ selField w = 0#2) := Iff.rfl

theorem illegalWord_of_reserved {w : Word}
    (h : opField w ∈ reservedOps ∨ reservedBit w ≠ 0#1 ∨ reservedByte w ≠ 0#8) : illegalWord w :=
  illegalWord_iff_fields.mpr (h.imp_right .inl)

/-- For a word with the code of an operation, three of the conditions are left, and they are what R75 forbids that
operation. -/
theorem illegalWord_iff_not_legalAs {o : Opcode} {w : Word} (ho : opField w = o.code) :
    illegalWord w ↔ ¬ LegalAs o w := by
  rw [illegalWord_iff_fields, ho, ← not_iff_not, not_not]
  simp only [code_notMem_reservedOps, code_notMem_opsWithSel, code_notMem_opsWithLvl, code_notMem_opsWithIdx,
    code_notMem_opsWithDat, code_mem_opsRequiringSel, false_or, not_or, not_and, not_not]
  constructor
  · rintro ⟨⟨bit, byte⟩, ⟨sel, lvl, idx, dat⟩, given⟩
    exact ⟨bit, byte, sel, lvl, idx, dat, given⟩
  · rintro ⟨bit, byte, sel, lvl, idx, dat, given⟩
    exact ⟨⟨bit, byte⟩, ⟨sel, lvl, idx, dat⟩, given⟩

/-- R73 and R75 agree: the illegal words are those that spell no operation. -/
theorem illegalWord_iff_not_legalWord {w : Word} : illegalWord w ↔ ¬ LegalWord w := by
  cases hm : opMap (opField w) with
  | none =>
    refine iff_of_true (.inl (mem_reservedOps_iff.mpr hm)) fun ⟨o, ho, _⟩ => ?_
    simp [ho] at hm
  | some o =>
    have ho := opMap_eq_some_iff.mp hm
    rw [illegalWord_iff_not_legalAs ho]
    refine not_congr ⟨fun hl => ⟨o, ho, hl⟩, fun ⟨o', ho', hl⟩ => ?_⟩
    obtain rfl := code_injective (ho.symm.trans ho')
    exact hl

/-! ### Issues the port accepts (R72) -/

/-- ILLEGAL_OP on an accepted issue changes FAULT, `opIndex` and the records (60_exceptions.md R171). -/
theorem raise_illegalOp_accept {s : State} {words : List Word} (hi : issuesNext s words) :
    raise .illegalOp none (accept words (moved s)) = illegalState s words := by
  obtain ⟨hp, hf, -⟩ := hi
  simp [raise, hf, accept, moved, illegalState, latchedWords, hp]

section IllegalIssue

variable {s : State} {w : Word} {operands : List Word} (hlen : operands.length = operandCount (opField w))
  (hi : issuesNext s (w :: operands))

include hlen hi

theorem step_illegalWord (h : illegalWord w) : step s = .next (illegalState s (w :: operands)) := by
  obtain ⟨e, hd, he⟩ := decode_error_of_not_legalWord hlen (illegalWord_iff_not_legalWord.mp h)
  rw [step_illegalIssue hi hd he, raise_illegalOp_accept hi]

theorem step_legalWord (h : ¬ illegalWord w) : ∃ i, encode i = w :: operands ∧ i.wellFormed = true ∧
    step s = exec i (acceptedState s (w :: operands)) := by
  obtain ⟨i, hd⟩ := (exists_decode_ok_iff hlen).mpr (not_not.mp (illegalWord_iff_not_legalWord.not.mp h))
  obtain ⟨henc, hwf⟩ := encode_of_decode hd
  exact ⟨i, henc, hwf, step_legalIssue hi hd⟩

end IllegalIssue

/-- Settles O9: a legal word is the word of an operation, which runs; any other raises the fault. -/
theorem illegalOperationsRaiseIllegalOp : Obligations.IllegalOperationsRaiseIllegalOp := fun _ _ _ hlen hi =>
  ⟨step_illegalWord hlen hi, step_legalWord hlen hi⟩

/-- Settles O8: a reserved code, bit or byte is one of the four conditions. -/
theorem reservedEncodingsOnlyFault : Obligations.ReservedEncodingsOnlyFault :=
  ⟨fun _ _ _ hlen h hi => step_illegalWord hlen hi (illegalWord_of_reserved h),
    fun _ hi => step_illegalWord rfl hi (illegalWord_of_reserved (.inl (by decide)))⟩

/-- Settles O6: the accepted state is the one the issue leaves. -/
theorem stepRunsTheDecodedOperation : Obligations.StepRunsTheDecodedOperation := fun _ _ _ => step_legalIssue

theorem issuesNext_placeIssue (words : List Word) (s : State) : issuesNext (placeIssue words s) words := ⟨rfl, rfl, rfl⟩

theorem decodeTableWord_eq_some_iff {nbits w : Nat} {i : Instr} :
    decodeTableWord nbits w = some i ↔ decode (tableWords nbits w) = .ok i := by
  unfold decodeTableWord
  cases decode (tableWords nbits w) <;> simp

/-- Settles O7: the operation is placed as the host's next issue. -/
theorem placedOperationRunsNext : Obligations.PlacedOperationRunsNext := fun s _ _ _ h =>
  step_legalIssue (issuesNext_placeIssue _ s) (decodeTableWord_eq_some_iff.mp h)

/-! ### Issues the port does not accept (R70, R72; 60_exceptions.md R177) -/

section Refused

variable {s : State} {words : List Word} {mv : HostMove} {rest : List HostMove} (ht : hostsTurn s)
  (ha : s.agenda = mv :: rest) (hmv : mv.action = .issue words)

include ht ha hmv

/-- The host hands its words to the port on its turn. -/
theorem fetch_issue : fetch s = issue words { s with agenda := rest } := by
  rw [fetch_of_hostsTurn ht, hostTurn_cons ha, hmv]
  rfl

/-- A stopped PFPS looks at no words. -/
theorem step_issue_stopped (hf : s.fault ≠ .none) : step s = .fault (.stopped s.fault) := by
  simp [step, fetch_issue ht ha hmv, issue, hf]

/-- An issue to an operation in flight raises OVERLAP, and its words are looked at no further. -/
theorem step_issue_overlap {latched : List Word} {todo : List Micro} (hf : s.fault = .none)
    (hp : s.port = .executing latched todo) :
    step s = .next { s with
      agenda := rest, port := .idle, fault := .overlap
      faultHistory := s.faultHistory ++ [⟨.overlap, s.opIndex, latched, none⟩] } := by
  simp [step, fetch_issue ht ha hmv, issue, hf, hp, raise, latchedWords]

end Refused

theorem hostsTurn_of_due {s : State} {act : HostAction} {rest : List HostMove}
    (ha : s.agenda = ⟨.afterSteps 0, act⟩ :: rest) : hostsTurn s := .inr (.inl (by simp [hostDue, ha]))

theorem step_wrongLength {s : State} {words : List Word} (hi : issuesNext s words)
    (hd : decode words = .error .wordCount) : step s = .refused .issueWordCount := by
  have hf := fetch_of_issuesNext hi
  obtain ⟨hp, hnone, -⟩ := hi
  simp [step, hf, issue, hp, hnone, hd]

/-- Settles O11: `FAULT` and the port are looked at first, the number of words after them. -/
theorem wrongLengthListsAreNoIssue : Obligations.WrongLengthListsAreNoIssue :=
  ⟨fun _ _ => step_wrongLength,
    fun _ _ _ _ _ _ hf hp ha => step_issue_overlap (hostsTurn_of_due ha) ha rfl hf hp,
    fun _ _ _ _ _ hf ht ha => step_issue_stopped ht ha rfl hf⟩

/-- Settles O12: with the port IDLE it is the host's turn, and a stopped PFPS looks at no words. -/
theorem stoppedPfpsTakesNoIssue : Obligations.StoppedPfpsTakesNoIssue := fun _ _ _ _ hp hf ha hmv =>
  step_issue_stopped (.inl hp) ha hmv hf

end Sys2Proof.Machine
end

section
/-! SUPPORT. The assembler: what a number, a selector and a level are written as, and that a line is accepted exactly if it
spells a well-formed operation (spec/30_encoding.md R82, R83). -/

namespace Sys2Proof.Machine

/-! ### Numbers -/

/-- The hex digits of a number spell it, as far as they reach. -/
theorem numeralValue_hexDigits (n v : Nat) : numeralValue (.hex (hexDigits n v)) = v % 16 ^ n := by
  induction n generalizing v with
  | zero => simp [hexDigits, numeralValue, Nat.mod_one]
  | succ n ih =>
    have hsnoc : numeralValue (.hex (hexDigits (n + 1) v)) =
        16 * numeralValue (.hex (hexDigits n (v / 16))) + v % 16 := by
      simp [hexDigits, numeralValue, List.foldl_append]
    rw [hsnoc, ih, Nat.pow_succ', Nat.mod_mul]
    exact Nat.add_comm ..

/-- `n` hex digits are enough for a field of `4n` bits. -/
theorem numeralValue_spellHex {n : Nat} (v : BitVec (4 * n)) : numeralValue (.hex (hexDigits n v.toNat)) = v.toNat := by
  rw [numeralValue_hexDigits, Nat.mod_eq_of_lt]
  exact Nat.lt_of_lt_of_eq v.isLt (Nat.pow_mul 2 4 n)

/-! ### Operands -/

theorem sameOperand_refl (x : AsmOperand) : sameOperand x x := by cases x <;> rfl

/-- A number is accepted into a field of `4n` bits exactly if it has the value of the field. -/
theorem fitNumber_eq_some_iff {n : Nat} {x : AsmOperand} {v : BitVec (4 * n)} :
    fitNumber (4 * n) x = some v ↔ sameOperand x (spellHex n v) := by
  cases x with
  | num m =>
    simp only [fitNumber, spellHex, sameOperand, numeralValue_spellHex]
    constructor
    · intro h
      split at h
      · cases h
        simpa using (Nat.mod_eq_of_lt ‹_›).symm
      · cases h
    · intro h
      simp [h, v.isLt]
  | sel s => simp [fitNumber, spellHex, sameOperand]
  | lvl l => simp [fitNumber, spellHex, sameOperand]

theorem fitByte_eq_some_iff {x : AsmOperand} {v : Byte} : fitNumber 8 x = some v ↔ sameOperand x (spellHex 2 v) :=
  fitNumber_eq_some_iff (n := 2)

theorem fitWord_eq_some_iff {x : AsmOperand} {v : Word} : fitNumber 32 x = some v ↔ sameOperand x (spellHex 8 v) :=
  fitNumber_eq_some_iff (n := 8)

theorem fitSel_eq_some_iff {x : AsmOperand} {s : Sel} :
    fitSel x = some s ↔ s.given = true ∧ sameOperand x (.sel s) := by
  cases x with
  | sel s' =>
    simp only [fitSel, sameOperand, Option.ite_none_right_eq_some, Option.some.injEq]
    exact and_congr_left fun h => h ▸ Iff.rfl
  | num n => simp [fitSel, sameOperand]
  | lvl l => simp [fitSel, sameOperand]

theorem fitLevel_eq_some_iff {x : AsmOperand} {l : Level} : fitLevel x = some l ↔ sameOperand x (.lvl l) := by
  cases x <;> simp [fitLevel, sameOperand]

theorem spellOptionalSel_of_given {s : Sel} (h : s.given = true) : spellOptionalSel s = [.sel s] := by
  cases s with
  | omitted => cases h
  | _ => rfl

theorem fitOptionalSel_eq_some_iff {tail : List AsmOperand} {s : Sel} :
    fitOptionalSel tail = some s ↔ List.Forall₂ sameOperand tail (spellOptionalSel s) := by
  match tail with
  | [] => cases s <;> simp [fitOptionalSel, spellOptionalSel]
  | [x] => cases s <;> simp [fitOptionalSel, fitSel_eq_some_iff, Sel.given, spellOptionalSel]
  | _ :: _ :: _ => cases s <;> simp [fitOptionalSel, spellOptionalSel]

/-! ### Lines -/

/-- A line that is accepted spells the operation it is accepted as. -/
theorem spells_of_assemble {o : Opcode} {ops : List AsmOperand} {i : Instr} (h : assemble o ops = some i) :
    i.wellFormed = true ∧ i.opcode = o ∧ List.Forall₂ sameOperand ops (spell i) := by
  unfold assemble at h
  split at h
  all_goals
    simp only [Option.map_eq_some_iff, Option.bind_eq_bind, Option.bind_eq_some_iff, Option.pure_def, Option.some.injEq,
      fitByte_eq_some_iff, fitWord_eq_some_iff, fitSel_eq_some_iff, fitLevel_eq_some_iff,
      fitOptionalSel_eq_some_iff, reduceCtorEq] at h
  · obtain ⟨i, hi, rfl⟩ := h
    exact ⟨rfl, rfl, .cons hi .nil⟩
  · obtain ⟨i, hi, d, hd, rfl⟩ := h
    exact ⟨rfl, rfl, .cons hi (.cons hd .nil)⟩
  · obtain ⟨i, hi, d, hd, s, ⟨hg, hs⟩, rfl⟩ := h
    exact ⟨hg, rfl, .cons hi (.cons hd (.cons hs .nil))⟩
  · obtain ⟨i, hi, d, hd, n, hn, s, hs, rfl⟩ := h
    exact ⟨rfl, rfl, .cons hi (.cons hd (.cons hn hs))⟩
  · obtain ⟨i, hi, b, hb, l, hl, s, hs, rfl⟩ := h
    exact ⟨rfl, rfl, .cons hi (.cons hb (.cons hl hs))⟩
  · obtain ⟨s, ⟨hg, hs⟩, rfl⟩ := h
    exact ⟨hg, rfl, .cons hs .nil⟩
  · subst h
    exact ⟨rfl, rfl, .nil⟩
  · subst h
    exact ⟨rfl, rfl, .nil⟩
  · obtain ⟨a, ha, b, hb, c, hc, d, hd, e, he, rfl⟩ := h
    exact ⟨rfl, rfl, .cons ha (.cons hb (.cons hc (.cons hd (.cons he .nil))))⟩
  · obtain ⟨l, hl, rfl⟩ := h
    exact ⟨rfl, rfl, .cons hl .nil⟩

/-- A line that spells a well-formed operation is accepted as it. -/
theorem assemble_of_spells {i : Instr} {ops : List AsmOperand} (hw : i.wellFormed = true)
    (h : List.Forall₂ sameOperand ops (spell i)) : assemble i.opcode ops = some i := by
  cases i with
  | sendCommand i =>
    obtain _ | ⟨hi, _ | _⟩ := h
    simp [Instr.opcode, assemble, fitByte_eq_some_iff.mpr hi]
  | sendCommandWithByte i d =>
    obtain _ | ⟨hi, _ | ⟨hd, _ | _⟩⟩ := h
    simp [Instr.opcode, assemble, fitByte_eq_some_iff.mpr hi, fitByte_eq_some_iff.mpr hd]
  | sendCommandWithByteSelect i d s =>
    obtain _ | ⟨hi, _ | ⟨hd, _ | ⟨hs, _ | _⟩⟩⟩ := h
    simp [Instr.opcode, assemble, fitByte_eq_some_iff.mpr hi, fitByte_eq_some_iff.mpr hd,
      fitSel_eq_some_iff.mpr ⟨hw, hs⟩]
  | sendFixedValueRun i d n s =>
    obtain _ | ⟨hi, _ | ⟨hd, _ | ⟨hn, hs⟩⟩⟩ := h
    simp [Instr.opcode, assemble, fitByte_eq_some_iff.mpr hi, fitByte_eq_some_iff.mpr hd,
      fitWord_eq_some_iff.mpr hn, fitOptionalSel_eq_some_iff.mpr hs]
  | sendIndexedBuffer i b l s =>
    obtain _ | ⟨hi, _ | ⟨hb, _ | ⟨hl, hs⟩⟩⟩ := h
    simp [Instr.opcode, assemble, fitByte_eq_some_iff.mpr hi, fitWord_eq_some_iff.mpr hb,
      fitWord_eq_some_iff.mpr hl, fitOptionalSel_eq_some_iff.mpr hs]
  | selectPanelHalf s =>
    obtain _ | ⟨hs, _ | _⟩ := h
    simp [Instr.opcode, assemble, fitSel_eq_some_iff.mpr ⟨hw, hs⟩]
  | resume =>
    cases h
    rfl
  | suspend =>
    cases h
    rfl
  | resetSequence a b c d e =>
    obtain _ | ⟨ha, _ | ⟨hb, _ | ⟨hc, _ | ⟨hd, _ | ⟨he, _ | _⟩⟩⟩⟩⟩ := h
    simp [Instr.opcode, assemble, fitWord_eq_some_iff.mpr ha, fitWord_eq_some_iff.mpr hb, fitWord_eq_some_iff.mpr hc,
      fitWord_eq_some_iff.mpr hd, fitWord_eq_some_iff.mpr he]
  | waitBusy l =>
    obtain _ | ⟨hl, _ | _⟩ := h
    simp [Instr.opcode, assemble, fitLevel_eq_some_iff.mpr hl]

/-- Accepted lines are those that spell a well-formed operation (R82). -/
theorem assemble_eq_some_iff {o : Opcode} {ops : List AsmOperand} {i : Instr} : assemble o ops = some i ↔
    i.wellFormed = true ∧ i.opcode = o ∧ List.Forall₂ sameOperand ops (spell i) :=
  ⟨spells_of_assemble, fun ⟨hw, ho, hs⟩ => ho ▸ assemble_of_spells hw hs⟩

/-! ### Numbers that do not fit -/

/-- The operand is a number below `2^w`. -/
def Fits (w : Nat) (x : AsmOperand) : Prop := ∃ n, x = .num n ∧ numeralValue n < 2 ^ w

theorem fits_spellHex {n : Nat} (v : BitVec (4 * n)) : Fits (4 * n) (spellHex n v) :=
  ⟨_, rfl, (numeralValue_spellHex v).trans_lt v.isLt⟩

theorem fits_spellByte (v : Byte) : Fits 8 (spellHex 2 v) := fits_spellHex (n := 2) v
theorem fits_spellWord (v : Word) : Fits 32 (spellHex 8 v) := fits_spellHex (n := 8) v

theorem Fits.of_same {w : Nat} {n : Numeral} {y : AsmOperand} (hy : Fits w y) (h : sameOperand (.num n) y) :
    numeralValue n < 2 ^ w := by
  obtain ⟨m, rfl, hm⟩ := hy
  exact lt_of_eq_of_lt h hm

/-- The numbers of an operation's spelling stand first, each within its field. -/
theorem spell_numbers_fit (i : Instr) :
    List.Forall₂ Fits (numericWidths i.opcode) ((spell i).take (numericWidths i.opcode).length) := by
  cases i <;> simp [Instr.opcode, numericWidths, spell, fits_spellByte, fits_spellWord]

theorem exists_getElem?_of_forall₂ {α β : Type} {R : α → β → Prop} {l : List α} {m : List β}
    (h : List.Forall₂ R l m) {k : Nat} {a : α} (ha : l[k]? = some a) : ∃ b, m[k]? = some b ∧ R a b := by
  obtain ⟨hk, rfl⟩ := List.getElem?_eq_some_iff.mp ha
  have hk' : k < m.length := h.length_eq ▸ hk
  exact ⟨m[k], List.getElem?_eq_getElem hk', h.get hk hk'⟩

/-- At a numeric place an operation's spelling has a number that fits. -/
theorem spell_fits {i : Instr} {k w : Nat} (hw : (numericWidths i.opcode)[k]? = some w) :
    ∃ y, (spell i)[k]? = some y ∧ Fits w y := by
  obtain ⟨y, hy, hfits⟩ := exists_getElem?_of_forall₂ (spell_numbers_fit i) hw
  rw [List.getElem?_take, Option.ite_none_right_eq_some] at hy
  exact ⟨y, hy.2, hfits⟩

/-- A number in an accepted line fits its field. -/
theorem number_fits_of_assemble {o : Opcode} {ops : List AsmOperand} {i : Instr} {k w : Nat} {n : Numeral}
    (h : assemble o ops = some i) (hw : (numericWidths o)[k]? = some w) (hn : ops[k]? = some (.num n)) :
    numeralValue n < 2 ^ w := by
  obtain ⟨-, rfl, hs⟩ := assemble_eq_some_iff.mp h
  obtain ⟨y, hy, hfits⟩ := spell_fits hw
  obtain ⟨z, hz, hsame⟩ := exists_getElem?_of_forall₂ hs hn
  obtain rfl : y = z := Option.some.inj (hy.symm.trans hz)
  exact hfits.of_same hsame

/-- Settles O56: a spelling spells. -/
theorem spelledOperationsAssemble : Obligations.SpelledOperationsAssemble := fun _ hw =>
  assemble_of_spells hw (List.forall₂_same.mpr fun x _ => sameOperand_refl x)

/-- Settles O57: the accepted lines are the spellings of well-formed operations, in which every number fits. -/
theorem assemblerRefusesWhatDoesNotFit : Obligations.AssemblerRefusesWhatDoesNotFit := by
  refine ⟨fun _ _ _ => assemble_eq_some_iff, fun _ _ _ h => ?_, fun _ _ _ _ _ hw hn hbig => ?_⟩
  · obtain ⟨hwf, -⟩ := assemble_eq_some_iff.mp h
    exact decode_encode hwf
  · refine Option.eq_none_iff_forall_ne_some.mpr fun i h => ?_
    exact hbig.not_gt (number_fits_of_assemble h hw hn)

end Sys2Proof.Machine
end

section
/-! SUPPORT. What an accepted framer operation does: its event sequence completes, or ends at the first access that cannot
be made, or waits at a refused read (spec/40_framing.md R103 to R113; spec/20_memory.md R55). -/

namespace Sys2Proof.Machine

/-! ### What a sequence shows and reads -/

@[simp] theorem seqShown_nil (s : State) : seqShown s [] = [] := rfl
@[simp] theorem seqShown_cons (s : State) (m : Micro) (todo : List Micro) :
    seqShown s (m :: todo) = microShown s m ++ seqShown s todo := List.flatMap_cons
@[simp] theorem seqShown_append (s : State) (a b : List Micro) :
    seqShown s (a ++ b) = seqShown s a ++ seqShown s b := List.flatMap_append
@[simp] theorem seqReads_nil (s : State) : seqReads s [] = [] := rfl
@[simp] theorem seqReads_cons (s : State) (m : Micro) (todo : List Micro) :
    seqReads s (m :: todo) = microReads s m ++ seqReads s todo := List.flatMap_cons
@[simp] theorem seqReads_append (s : State) (a b : List Micro) :
    seqReads s (a ++ b) = seqReads s a ++ seqReads s b := List.flatMap_append

/-- Only the transfer of a byte of host memory reads it. -/
theorem seqReads_eq_nil {s : State} {todo : List Micro} (h : ∀ a, .xferMem a ∉ todo) : seqReads s todo = [] := by
  refine List.flatMap_eq_nil_iff.mpr fun m hm => ?_
  cases m with
  | xferMem a => exact absurd hm (h a)
  | _ => rfl

/-! ### An accepted framer operation -/

/-- A fault that an operation raises before any event. -/
theorem raise_faults {s : State} (hf : s.fault = .none) (code : FaultCode) :
    Faults s (raise code none s) [] [] code none := by
  refine ⟨(After.refl s).congr ?_ ?_ ?_ ?_ ?_ ?_ ?_ ?_ ?_ ?_, ?_, ?_, ?_, ?_⟩ <;> simp [hf]

/-- The gate (60_exceptions.md R174). -/
theorem exec_notPowered {i : Instr} {s t : State} (hg : isGated i = true) (hwf : i.wellFormed = true)
    (hf : s.fault = .none) (hps : s.ps ≠ .on) (h : exec i s = .next t) : Faults s t [] [] .notPowered none := by
  cases exec_cases h with
  | unpowered _ _ ht => exact ht ▸ raise_faults hf _
  | selector hno _ => simp [hwf] at hno
  | range _ _ _ _ _ hon _ _ => exact absurd hon hps
  | runs _ hon _ _ _ => exact absurd (hon hg) hps
  | resumeOn hi _ _ => subst hi; cases hg
  | suspendOff hi _ _ => subst hi; cases hg

/-- `t` is what a framer operation that passed its own checks makes of `s`, for a host that waits for completion: the
gate stops it, or its event sequence runs. -/
structure FramerRun (i : Instr) (s t : State) : Prop where
  framer : isFramer i = true
  start : startable s
  notPowered : s.ps ≠ .on → Faults s t [] [] .notPowered none
  powered : s.ps = .on → t = run (fullSeq s.cfg i) s

theorem framerRun_of_exec {i : Instr} {s t : State} (hi : isFramer i = true) (hs : startable s)
    (h : exec i s = .next t) (hwf : i.wellFormed = true)
    (hr : ∀ idx buf len sel, i = .sendIndexedBuffer idx buf len sel → buf.toNat + len.toNat ≤ 2 ^ 32) :
    FramerRun i s t := by
  have hg := isGated_of_isFramer hi
  obtain ⟨hf, hw⟩ := hs
  refine ⟨hi, ⟨hf, hw⟩, fun hoff => exec_notPowered hg hwf hf hoff h, fun hon => ?_⟩
  cases exec_cases h with
  | runs _ _ _ _ ht => exact ht
  | selector hno _ => simp [hwf] at hno
  | unpowered _ hoff _ => exact absurd hon hoff
  | range idx buf len sel hi' _ ho _ => exact absurd (hr idx buf len sel hi') (by omega)
  | resumeOn hi' _ _ => subst hi'; cases hi
  | suspendOff _ hoff _ => exact absurd hon hoff

section Framer

variable {i : Instr} {s t : State} (h : FramerRun i s t)
include h

/-- No part of the sequence sets a mode. -/
theorem FramerRun.steady {part : List Micro} (hsub : part ⊆ fullSeq s.cfg i) : ∀ m ∈ part, isPinMode m = false := by
  have hi : i ≠ .resume := by
    rintro rfl
    cases h.framer
  intro m hm
  cases m with
  | pinMode p d => exact absurd (hsub hm) (pinMode_notMem_of_ne_resume hi p d)
  | _ => rfl

/-- No part of the sequence writes `PS`. -/
theorem FramerRun.power {part : List Micro} (hsub : part ⊆ fullSeq s.cfg i) : seqPower s.ps part = s.ps :=
  foldl_microPower_eq part s.ps fun q hq => setPower_notMem_of_gated (isGated_of_isFramer h.framer) q (hsub hq)

theorem FramerRun.completes (hps : s.ps = .on) (hready : ∀ m ∈ fullSeq s.cfg i, microReady s m = true) :
    Completes s t (seqShown s (fullSeq s.cfg i)) (seqReads s (fullSeq s.cfg i)) .on := by
  obtain ⟨-, hw⟩ := h.start
  have hc := run_completes (fullSeq s.cfg i) s hw ⟨hready, .inl (h.steady (List.Subset.refl _))⟩
  rw [h.power (List.Subset.refl _), hps] at hc
  exact h.powered hps ▸ hc

section Part

variable {part rest : List Micro} (hps : s.ps = .on) (hready : ∀ m ∈ part, microReady s m = true)
include hps hready

/-- The first access that cannot be made ends the operation. -/
theorem FramerRun.hazard {r : Role} {v : Level} (hseq : fullSeq s.cfg i = part ++ .drive r v :: rest)
    (hr : canDrive s r = false) :
    Faults s t (seqShown s part) (seqReads s part) .configHazard (some (r, pinOf s.cfg r)) := by
  have hsub : part ⊆ fullSeq s.cfg i := hseq ▸ List.subset_append_left _ _
  obtain ⟨hf, hw⟩ := h.start
  rw [h.powered hps, hseq]
  exact run_hazard part r v rest s hw hf hready (h.steady hsub) (h.power hsub) hr

/-- The first read that is refused leaves the operation waiting for it, and no agent has a step (20_memory.md R55). -/
theorem FramerRun.stuck {a : Nat} (hseq : fullSeq s.cfg i = part ++ .xferMem a :: rest)
    (ha : memRead s a = none) :
    After s t (seqShown s part) (seqReads s part) ∧ t.ps = .on ∧ t.fault = .none ∧
      t.faultHistory = s.faultHistory ∧ t.port = .executing (latchedWords s.port) (.xferMem a :: rest) ∧
      step t = .fault (.refusedRead a) := by
  have hsub : part ⊆ fullSeq s.cfg i := hseq ▸ List.subset_append_left _ _
  obtain ⟨hf, hw⟩ := h.start
  obtain ⟨u, hrun, hafter, hups, hport, hfault, hhist, hmem, -⟩ :=
    run_ready_append part (.xferMem a :: rest) s hw ⟨hready, .inl (h.steady hsub)⟩
  have hwu : hostCounts u = false := (hostCounts_congr hafter.agenda).trans hw
  have hau : memRead u a = none := (memRead_congr hmem a).trans ha
  have ht : t = pauseAt (.xferMem a :: rest) u := by
    rw [h.powered hps, hseq, hrun, run, if_neg (by simp [hostDue_of_waits hwu])]
    simp [advance, hau]
  subst ht
  have hwt : hostCounts (pauseAt (.xferMem a :: rest) u) = false := hwu
  have hat : memRead (pauseAt (.xferMem a :: rest) u) a = none := hau
  refine ⟨hafter.congr rfl rfl rfl rfl rfl rfl rfl rfl rfl rfl, ?_, hfault.trans hf, hhist, by simp [hport], ?_⟩
  · exact (hups.trans (h.power hsub)).trans hps
  · simp [step, fetch, hostDue_of_waits hwt, waitsForRead, hat, hwt]

end Part

end Framer

/-! ### The chip-selects (R101) -/

theorem effSel_eq_selectedHalves {o : Opcode} (ho : o.usesSel = true) (c : Configuration) (sel : Sel) :
    effSel o sel c.family = selectedHalves c sel := by
  cases o with
  | sendCommand | sendCommandWithByte | resume | suspend | resetSequence | waitBusy => cases ho
  | _ => cases hfam : c.family <;> cases sel <;> simp [effSel, selectedHalves, hfam]

theorem selectedHalves_of_not_large {c : Configuration} (hl : c.family ≠ .large) (sel : Sel) :
    selectedHalves c sel = .single := if_pos hl

theorem selectedHalves_of_large {c : Configuration} (hl : c.family = .large) (sel : Sel) :
    selectedHalves c sel ≠ .single := by
  cases sel <;> simp [selectedHalves, hl]

theorem not_slaveReady {s : State} (h : slaveReady s = false) :
    connected s.cfg .csS = true ∧ canDrive s .csS = false := by
  simpa [slaveReady] using h

/-- `csM` is written first. -/
theorem assertCS_csM (c : Configuration) (e : EffSel) :
    ∃ rest, assertCS c e = .drive .csM (if e = .slave then .high else .low) :: rest := by
  cases e <;> exact ⟨_, rfl⟩

/-- The slave's line, where it is connected, is written next. -/
theorem assertCS_csS {c : Configuration} {e : EffSel} (he : e ≠ .single) (hc : connected c .csS = true) :
    ∃ v rest, assertCS c e = .drive .csM (if e = .slave then .high else .low) :: .drive .csS v :: rest := by
  cases e with
  | single => exact absurd rfl he
  | _ => simp [assertCS, driveIfConnected, hc]

section Shown

variable (s : State)

@[simp] theorem seqShown_driveIfConnected_csS (v : Level) :
    seqShown s (driveIfConnected s.cfg .csS v) = shownSlave s.cfg v := by
  unfold driveIfConnected shownSlave
  by_cases hc : s.cfg.csS = NC <;> simp [connected, pinOf, hc, microShown]

@[simp] theorem seqShown_assertCS (e : EffSel) : seqShown s (assertCS s.cfg e) = shownAssert s.cfg e := by
  cases e <;> simp [assertCS, shownAssert, microShown, pinOf]

@[simp] theorem seqShown_deassertCS (e : EffSel) : seqShown s (deassertCS s.cfg e) = shownDeassert s.cfg e := by
  cases e <;> simp [deassertCS, shownDeassert, microShown, pinOf]

/-- As in any framer operation but `sendIndexedBuffer`, no step of the chip-selects' reads host memory. -/
@[simp] theorem seqReads_assertCS (c : Configuration) (e : EffSel) : seqReads s (assertCS c e) = [] := by
  refine seqReads_eq_nil fun a ha => ?_
  cases assertCS_steps (i := .selectPanelHalf .both) rfl e _ ha

@[simp] theorem seqReads_deassertCS (c : Configuration) (e : EffSel) : seqReads s (deassertCS c e) = [] := by
  refine seqReads_eq_nil fun a ha => ?_
  cases deassertCS_steps (i := .selectPanelHalf .both) rfl e _ ha

end Shown

section Ready

variable {s : State}

theorem driveIfConnected_csS_ready (hS : slaveReady s = true) (v : Level) :
    ∀ m ∈ driveIfConnected s.cfg .csS v, microReady s m = true := by
  unfold driveIfConnected
  split
  · next hc => simpa [slaveReady, hc, microReady] using hS
  · simp

variable {e : EffSel} (hM : canDrive s .csM = true) (hS : e = .single ∨ slaveReady s = true)
include hM hS

theorem assertCS_ready : ∀ m ∈ assertCS s.cfg e, microReady s m = true := by
  cases e with
  | single => simp [assertCS, microReady, hM]
  | _ =>
    have hslave := driveIfConnected_csS_ready (hS.resolve_left (by simp))
    simp only [assertCS, List.cons_append, List.forall_mem_cons, List.forall_mem_append]
    exact ⟨hM, hslave _, by simp [microReady]⟩

theorem deassertCS_ready : ∀ m ∈ deassertCS s.cfg e, microReady s m = true := by
  cases e with
  | single => simpa [deassertCS, microReady] using hM
  | _ =>
    simp only [deassertCS, List.forall_mem_cons]
    exact ⟨hM, driveIfConnected_csS_ready (hS.resolve_left (by simp)) _⟩

end Ready

section Assert

variable {i : Instr} {s t : State} {e : EffSel} {part tail : List Micro} (h : FramerRun i s t) (hps : s.ps = .on)
  (hready : ∀ m ∈ part, microReady s m = true) (hseq : fullSeq s.cfg i = part ++ assertCS s.cfg e ++ tail)
include h hps hready hseq

theorem FramerRun.hazard_csM (hM : canDrive s .csM = false) :
    Faults s t (seqShown s part) (seqReads s part) .configHazard (some (.csM, s.cfg.csM)) := by
  obtain ⟨rest, hrest⟩ := assertCS_csM s.cfg e
  exact h.hazard (rest := rest ++ tail) hps hready (by simp [hseq, hrest]; rfl) hM

theorem FramerRun.hazard_csS (hM : canDrive s .csM = true) (he : e ≠ .single) (hS : slaveReady s = false) :
    Faults s t (seqShown s part ++ [.W s.cfg.csM (if e = .slave then .high else .low)]) (seqReads s part) .configHazard
      (some (.csS, s.cfg.csS)) := by
  obtain ⟨hc, hS'⟩ := not_slaveReady hS
  obtain ⟨v, rest, hrest⟩ := assertCS_csS he hc
  have hf := h.hazard (part := part ++ [.drive .csM (if e = .slave then .high else .low)]) (rest := rest ++ tail)
    (v := v) hps (List.forall_mem_append.mpr ⟨hready, by simpa [microReady] using hM⟩) (by simp [hseq, hrest]) hS'
  simpa [microShown, microReads, pinOf] using hf

end Assert

/-! ### Frames (R102, R106) -/

/-- Every frame begins with DC LOW and the assertion of its selection, and faults there or not at all. -/
theorem FramerRun.frameFaults {i : Instr} {s t : State} {e : EffSel} {tail : List Micro} (h : FramerRun i s t)
    (hseq : fullSeq s.cfg i = [.drive .dc .low] ++ assertCS s.cfg e ++ tail) : frameFaults s t e := by
  have hdcReady : canDrive s .dc = true → ∀ m ∈ [Micro.drive .dc .low], microReady s m = true := fun hdc =>
    List.forall_mem_singleton.mpr hdc
  refine ⟨h.notPowered, fun hps hdc => ?_, fun hps hdc hM => ?_, fun hps hdc hM he hS => ?_⟩
  · exact h.hazard (part := []) hps (by simp) hseq hdc
  · exact h.hazard_csM hps (hdcReady hdc) hseq hM
  · exact h.hazard_csS hps (hdcReady hdc) hseq hM he hS

theorem frameReady_of_frameFaults {s t : State} {e : EffSel} (h : frameFaults s t e) (hf : t.fault = .none) :
    frameReady s e := by
  obtain ⟨hpower, hdc, hM, hS⟩ := h
  have hne : ∀ {evs reads code site}, Faults s t evs reads code site → code = .none := fun k => k.fault.symm.trans hf
  have hps' : s.ps = .on := by
    by_contra hps
    cases hne (hpower hps)
  have hdc' : canDrive s .dc = true := by
    by_contra hno
    cases hne (hdc hps' (eq_false_of_ne_true hno))
  have hM' : canDrive s .csM = true := by
    by_contra hno
    cases hne (hM hps' hdc' (eq_false_of_ne_true hno))
  refine ⟨hps', hdc', hM', ?_⟩
  by_contra hno
  obtain ⟨he, hno⟩ := not_or.mp hno
  cases hne (hS hps' hdc' hM' he (eq_false_of_ne_true hno))

/-- A frame without a fault was ready and completed. -/
theorem completes_of_frameMeaning {s t : State} {e : EffSel} {evs : List Shown} {reads : List (Nat × Byte)}
    (h : frameMeaning s t e evs reads) (hf : t.fault = .none) : frameReady s e ∧ Completes s t evs reads .on := by
  obtain ⟨hc, hfaults⟩ := h
  have hr := frameReady_of_frameFaults hfaults hf
  exact ⟨hr, hc hr⟩

section DataFrame

variable {s : State} {transfers : List Micro} {bytes : List Byte}

/-- The settles and transfers of a data phase. -/
def dataBody (c : Configuration) (transfers : List Micro) : List Micro :=
  if c.settlePerByte = true then transfers.flatMap fun x => [.delayUs c.delayCS, x, .delayUs c.delayCS]
  else .delayUs c.delayCS :: transfers ++ [.delayUs c.delayCS]

/-- The settles and transfers of a data phase before the transfer that comes after these. -/
def dataBodyUpTo (c : Configuration) (transfers : List Micro) : List Micro :=
  if c.settlePerByte = true
  then (transfers.flatMap fun x => [.delayUs c.delayCS, x, .delayUs c.delayCS]) ++ [.delayUs c.delayCS]
  else .delayUs c.delayCS :: transfers

/-- A frame with a data phase, from DC LOW to DC HIGH. -/
def frameHead (c : Configuration) (e : EffSel) (idx : Byte) (between : List Micro) : List Micro :=
  [.drive .dc .low] ++ assertCS c e ++ commandPhase c idx ++ between ++ [.drive .dc .high]

theorem dataFrame_eq (c : Configuration) (e : EffSel) (idx : Byte) (between transfers : List Micro) :
    dataFrame c e idx between transfers = frameHead c e idx between ++ dataBody c transfers ++ deassertCS c e := by
  simp [dataFrame, frameHead, dataPhase, dataBody]

theorem shownFrame_eq (c : Configuration) (e : EffSel) (idx : Byte) (between : List Shown) (bytes : List Byte) :
    shownFrame c e idx between bytes =
      shownUpToData c e idx between ++ shownData c bytes ++ shownDeassert c e := rfl

theorem dataBody_append_cons (c : Configuration) (before after : List Micro) (x : Micro) :
    ∃ rest, dataBody c (before ++ x :: after) = dataBodyUpTo c before ++ x :: rest := by
  unfold dataBody dataBodyUpTo
  split <;> simp

@[simp] theorem seqShown_frameHead (e : EffSel) (idx : Byte) (between : List Micro) :
    seqShown s (frameHead s.cfg e idx between) = shownUpToData s.cfg e idx (seqShown s between) := by
  simp [frameHead, shownUpToData, commandPhase, microShown, pinOf]

@[simp] theorem seqReads_frameHead (c : Configuration) (e : EffSel) (idx : Byte) (between : List Micro) :
    seqReads s (frameHead c e idx between) = seqReads s between := by
  simp [frameHead, commandPhase, microReads]

theorem frameHead_ready {e : EffSel} {between : List Micro} (hr : frameReady s e) (idx : Byte)
    (hb : ∀ m ∈ between, microReady s m = true) : ∀ m ∈ frameHead s.cfg e idx between, microReady s m = true := by
  obtain ⟨-, hdc, hM, hS⟩ := hr
  simp only [frameHead, List.forall_mem_append, List.forall_mem_singleton]
  exact ⟨⟨⟨⟨hdc, assertCS_ready hM hS⟩, by simp [commandPhase, microReady]⟩, hb⟩, hdc⟩

section Settled

variable (hx : transfers.map (microShown s) = bytes.map fun b => [.X b])
include hx

theorem seqShown_transfers : seqShown s transfers = bytes.map .X := by
  rw [seqShown, List.flatMap_def, hx, ← List.flatMap_def, List.map_eq_flatMap]

theorem seqShown_settled (d : Word) : seqShown s (transfers.flatMap fun x => [.delayUs d, x, .delayUs d]) =
    bytes.flatMap fun b => [.Dus d, .X b, .Dus d] := by
  have hflat := congrArg (List.flatMap fun shown => [.Dus d] ++ shown ++ [.Dus d]) hx
  rw [List.flatMap_map, List.flatMap_map] at hflat
  simpa [seqShown, List.flatMap_assoc, microShown] using hflat

theorem seqShown_dataBody : seqShown s (dataBody s.cfg transfers) = shownData s.cfg bytes := by
  unfold dataBody shownData
  split
  · exact seqShown_settled hx _
  · simp [seqShown_transfers hx, microShown]

theorem seqShown_dataBodyUpTo : seqShown s (dataBodyUpTo s.cfg transfers) = shownDataUpTo s.cfg bytes := by
  unfold dataBodyUpTo shownDataUpTo
  split
  · simp [seqShown_settled hx, microShown]
  · simp [seqShown_transfers hx, microShown]

end Settled

theorem seqReads_settled (d : Word) :
    seqReads s (transfers.flatMap fun x => [.delayUs d, x, .delayUs d]) = seqReads s transfers := by
  rw [seqReads, List.flatMap_assoc]
  exact congrArg transfers.flatMap (funext fun x => List.append_nil (microReads s x))

@[simp] theorem seqReads_dataBody (c : Configuration) : seqReads s (dataBody c transfers) = seqReads s transfers := by
  unfold dataBody
  split
  · exact seqReads_settled _
  · simp [microReads]

@[simp] theorem seqReads_dataBodyUpTo (c : Configuration) :
    seqReads s (dataBodyUpTo c transfers) = seqReads s transfers := by
  unfold dataBodyUpTo
  split <;> simp [seqReads_settled, microReads]

theorem settled_ready (ht : ∀ m ∈ transfers, microReady s m = true) (d : Word) :
    ∀ m ∈ transfers.flatMap (fun x => [.delayUs d, x, .delayUs d]), microReady s m = true := by
  refine List.forall_mem_flatMap.mpr fun x hx => ?_
  simpa [microReady] using ht x hx

theorem dataBody_ready (ht : ∀ m ∈ transfers, microReady s m = true) :
    ∀ m ∈ dataBody s.cfg transfers, microReady s m = true := by
  unfold dataBody
  split
  · exact settled_ready ht _
  · simpa [or_imp, forall_and, microReady] using ht

theorem dataBodyUpTo_ready (ht : ∀ m ∈ transfers, microReady s m = true) :
    ∀ m ∈ dataBodyUpTo s.cfg transfers, microReady s m = true := by
  unfold dataBodyUpTo
  split
  · exact List.forall_mem_append.mpr ⟨settled_ready ht _, by simp [microReady]⟩
  · exact List.forall_mem_cons.mpr ⟨rfl, ht⟩

end DataFrame

section RunFrame

variable {i : Instr} {s t : State} {e : EffSel} {idx : Byte} {between transfers : List Micro}
  (h : FramerRun i s t) (hseq : fullSeq s.cfg i = dataFrame s.cfg e idx between transfers)
include h hseq

theorem FramerRun.dataFrame_faults : Machine.frameFaults s t e :=
  h.frameFaults (e := e) (tail := commandPhase s.cfg idx ++ between ++ dataPhase s.cfg transfers ++ deassertCS s.cfg e)
    (by rw [hseq]; simp [dataFrame])

variable {bytes : List Byte} (hr : frameReady s e) (hb : ∀ m ∈ between, microReady s m = true)
include hr hb

/-- A frame whose lines can be driven and whose transfers can be made completes. -/
theorem FramerRun.dataFrame_completes (ht : ∀ m ∈ transfers, microReady s m = true)
    (hx : transfers.map (microShown s) = bytes.map fun b => [.X b]) :
    Completes s t (shownFrame s.cfg e idx (seqShown s between) bytes) (seqReads s between ++ seqReads s transfers)
      .on := by
  have hhead := frameHead_ready hr idx hb
  obtain ⟨hps, -, hM, hS⟩ := hr
  have hc := h.completes hps
  rw [hseq, dataFrame_eq] at hc
  rw [shownFrame_eq]
  simpa [seqShown_dataBody hx] using hc (List.forall_mem_append.mpr
    ⟨List.forall_mem_append.mpr ⟨hhead, dataBody_ready ht⟩, deassertCS_ready hM hS⟩)

/-- A frame whose lines can be driven waits at the first read that is refused. -/
theorem FramerRun.dataFrame_stuck {before after : List Micro} {a : Nat}
    (hsplit : transfers = before ++ .xferMem a :: after) (ht : ∀ m ∈ before, microReady s m = true)
    (hx : before.map (microShown s) = bytes.map fun b => [.X b]) (ha : memRead s a = none) :
    After s t (shownUpToData s.cfg e idx (seqShown s between) ++ shownDataUpTo s.cfg bytes)
        (seqReads s between ++ seqReads s before) ∧
      t.ps = .on ∧ t.fault = .none ∧ t.faultHistory = s.faultHistory ∧
      (∃ todo, t.port = .executing (latchedWords s.port) (.xferMem a :: todo)) ∧ step t = .fault (.refusedRead a) := by
  obtain ⟨rest, hrest⟩ := dataBody_append_cons s.cfg before after (.xferMem a)
  have hseq' : fullSeq s.cfg i = frameHead s.cfg e idx between ++ dataBodyUpTo s.cfg before ++
      .xferMem a :: (rest ++ deassertCS s.cfg e) := by
    rw [hseq, dataFrame_eq, hsplit, hrest]
    simp
  have hps : s.ps = .on := by
    obtain ⟨hps, -⟩ := hr
    exact hps
  obtain ⟨hafter, hps', hf, hh, hport, hstep⟩ := h.stuck hps
    (List.forall_mem_append.mpr ⟨frameHead_ready hr idx hb, dataBodyUpTo_ready ht⟩) hseq' ha
  rw [seqShown_append, seqShown_frameHead, seqShown_dataBodyUpTo hx, seqReads_append, seqReads_frameHead,
    seqReads_dataBodyUpTo] at hafter
  exact ⟨hafter, hps', hf, hh, ⟨_, hport⟩, hstep⟩

end RunFrame

end Sys2Proof.Machine
end

section
/-! SUPPORT. The framer operations one by one, and the laws of their frames (spec/40_framing.md R103 to R114). -/

namespace Sys2Proof.Machine

/-! ### Decoding -/

theorem given_of_ne_omitted {sel : Sel} (h : sel ≠ .omitted) : sel.given = true := by
  cases sel with
  | omitted => exact absurd rfl h
  | _ => rfl

/-- A word without the selector its operation requires is refused for that, if nothing else is wrong with it (R73
item 4). -/
theorem decode_selectorRequired {o : Opcode} (hr : o.requiresSel = true) {dat idx : Byte}
    (hd : o.usesDat = false → dat = 0#8) (hi : o.usesIdx = false → idx = 0#8) :
    decode [opWord dat idx 0#1 0#2 o.code] = .error .selectorRequired := by
  have hunused : unusedFieldsZero o (opWord dat idx 0#1 0#2 o.code) = true :=
    unusedFieldsZero_iff.mpr (by simpa using ⟨hi, hd⟩)
  have hn : o.operandWords = 0 := by
    cases o with
    | sendCommandWithByteSelect | selectPanelHalf => rfl
    | _ => cases hr
  rw [decode_of_code [] (opField_opWord ..)]
  simp [decodeAs, hn, hunused, hr]

/-! ### `sendCommand` (R103) -/

section SendCommand

variable {s t : State} {idx : Byte} (hs : startable s) (h : exec (.sendCommand idx) s = .next t)
include hs h

theorem sendCommand_meaning : frameMeaning s t .single
    [.W s.cfg.dc .low, .W s.cfg.csM .low, .Dus s.cfg.delayCS, .X idx, .Dus s.cfg.delayCS, .W s.cfg.csM .high] [] := by
  have hrun : FramerRun (.sendCommand idx) s t := framerRun_of_exec rfl hs h rfl nofun
  refine ⟨fun hready => ?_, hrun.frameFaults (e := .single)
    (tail := commandPhase s.cfg idx ++ deassertCS s.cfg .single) (by simp [fullSeq, sendCommandSeq])⟩
  obtain ⟨hps, hdc, hM, hS⟩ := hready
  have hc := hrun.completes hps
  simpa [fullSeq, sendCommandSeq, assertCS, commandPhase, deassertCS, microReady, microShown, microReads, pinOf, hdc,
    hM] using hc

theorem sendCommand_dc_low (hf : t.fault = .none) (hne : s.cfg.dc ≠ s.cfg.csM) :
    (pinCell t s.cfg.dc).level = .low := by
  obtain ⟨⟨-, hdc, -, -⟩, hc⟩ := completes_of_frameMeaning (sendCommand_meaning hs h) hf
  have hdcNC : s.cfg.dc ≠ NC := canDrive_ne_NC hdc
  rw [hc.after.cells _ hdcNC]
  simp [cellStep, hne.symm, latchOf]

theorem sendCommand_xfers (hf : t.fault = .none) :
    ∃ new, addsEvents s t new ∧ countXfers (new.map showEvent) = 1 := by
  obtain ⟨-, hc⟩ := completes_of_frameMeaning (sendCommand_meaning hs h) hf
  obtain ⟨new, ht, hnew⟩ := hc.after.trace
  exact ⟨new, ht, by rw [hnew]; rfl⟩

end SendCommand

/-! ### Frames that transfer bytes of the operation (R104 to R109) -/

/-- A frame whose data bytes stand in the operation, with nothing between its phases. -/
theorem xferFrame_meaning {i : Instr} {s t : State} {e : EffSel} {idx : Byte} {bytes : List Byte}
    (h : FramerRun i s t) (hseq : fullSeq s.cfg i = dataFrame s.cfg e idx [] (bytes.map .xfer)) :
    frameMeaning s t e (shownFrame s.cfg e idx [] bytes) [] := by
  refine ⟨fun hr => ?_, h.dataFrame_faults hseq⟩
  have hready : ∀ m ∈ bytes.map Micro.xfer, microReady s m = true := by simp [microReady]
  have hreads : seqReads s (bytes.map .xfer) = [] := seqReads_eq_nil (by simp)
  have hc := h.dataFrame_completes hseq hr (by simp) hready (bytes := bytes) (by simp [microShown])
  rwa [hreads] at hc

section XferFrames

variable {s t : State} {idx dat : Byte} {count : Word} {sel : Sel} (hs : startable s)
include hs

theorem sendCommandWithByte_meaning (h : exec (.sendCommandWithByte idx dat) s = .next t) :
    frameMeaning s t .single (shownFrame s.cfg .single idx [] [dat]) [] :=
  xferFrame_meaning (framerRun_of_exec rfl hs h rfl nofun) rfl

theorem sendCommandWithByteSelect_meaning (hsel : sel ≠ .omitted)
    (h : exec (.sendCommandWithByteSelect idx dat sel) s = .next t) :
    frameMeaning s t (selectedHalves s.cfg sel) (shownFrame s.cfg (selectedHalves s.cfg sel) idx [] [dat]) [] := by
  refine xferFrame_meaning (framerRun_of_exec rfl hs h (given_of_ne_omitted hsel) nofun) ?_
  rw [← effSel_eq_selectedHalves (o := .sendCommandWithByteSelect) rfl]
  rfl

theorem sendFixedValueRun_meaning (h : exec (.sendFixedValueRun idx dat count sel) s = .next t) :
    frameMeaning s t (selectedHalves s.cfg sel)
      (shownFrame s.cfg (selectedHalves s.cfg sel) idx [] (List.replicate count.toNat dat)) [] := by
  refine xferFrame_meaning (framerRun_of_exec rfl hs h rfl nofun) ?_
  rw [← effSel_eq_selectedHalves (o := .sendFixedValueRun) rfl, List.map_replicate]
  rfl

end XferFrames

/-! ### `sendIndexedBuffer` (R110, R111) -/

/-- The transfers of the first `n` bytes of the buffer. -/
def bufferXfers (buf : Word) (n : Nat) : List Micro := (List.range n).map fun i => .xferMem (buf.toNat + i)

/-- The settle between the phases on the broadcast path. -/
def bcastSteps (c : Configuration) (sel : Sel) : List Micro :=
  if c.family = .large ∧ sel = .omitted then [.delayUs tBcastSettle] else []

theorem fullSeq_sendIndexedBuffer (c : Configuration) (idx : Byte) (buf len : Word) (sel : Sel) :
    fullSeq c (.sendIndexedBuffer idx buf len sel) =
      dataFrame c (selectedHalves c sel) idx (bcastSteps c sel) (bufferXfers buf len.toNat) := by
  rw [← effSel_eq_selectedHalves (o := .sendIndexedBuffer) rfl]
  simp [fullSeq, sendIndexedBufferSeq, isBroadcast, bcastSteps, bufferXfers, bufferAddrs, Function.comp_def]

theorem bcastSteps_ready (s : State) (sel : Sel) : ∀ m ∈ bcastSteps s.cfg sel, microReady s m = true := by
  unfold bcastSteps
  split <;> simp [microReady]

theorem seqShown_bcastSteps (s : State) (sel : Sel) : seqShown s (bcastSteps s.cfg sel) = bcastSettle s.cfg sel := by
  unfold bcastSteps bcastSettle
  split <;> rfl

theorem seqReads_bcastSteps (s : State) (sel : Sel) : seqReads s (bcastSteps s.cfg sel) = [] := by
  unfold bcastSteps
  split <;> rfl

theorem bufferXfers_ready {s : State} {buf : Word} {n : Nat}
    (h : ∀ i < n, (memRead s (buf.toNat + i)).isSome = true) : ∀ m ∈ bufferXfers buf n, microReady s m = true := by
  simpa [bufferXfers, microReady] using h

theorem bufferXfers_shown (s : State) (buf : Word) (n : Nat) :
    (bufferXfers buf n).map (microShown s) = (bufferBytes s buf n).map fun b => [.X b] := by
  simp [bufferXfers, bufferBytes, microShown]

theorem seqReads_bufferXfers (s : State) (buf : Word) (n : Nat) :
    seqReads s (bufferXfers buf n) = bufferReads s buf n := by
  rw [seqReads, bufferXfers, List.flatMap_map, bufferReads, List.map_eq_flatMap]
  rfl

/-- The transfer of byte `k` stands after those of the bytes before it. -/
theorem bufferXfers_split (buf : Word) {k n : Nat} (hk : k < n) :
    ∃ after, bufferXfers buf n = bufferXfers buf k ++ .xferMem (buf.toNat + k) :: after := by
  obtain ⟨j, rfl⟩ := Nat.exists_eq_add_of_lt hk
  rw [Nat.add_assoc, bufferXfers, List.range_add, List.map_append, List.range_succ_eq_map]
  exact ⟨_, rfl⟩

section SendIndexedBuffer

variable {s t : State} {idx : Byte} {buf len : Word} {sel : Sel} (hs : startable s)
  (h : exec (.sendIndexedBuffer idx buf len sel) s = .next t)
include hs h

theorem sendIndexedBuffer_notPowered (hps : s.ps ≠ .on) : Faults s t [] [] .notPowered none := by
  obtain ⟨hf, -⟩ := hs
  exact exec_notPowered rfl rfl hf hps h

theorem sendIndexedBuffer_overflow (hps : s.ps = .on) (ho : buf.toNat + len.toNat > 2 ^ 32) :
    Faults s t [] [] .addrOverflow none := by
  obtain ⟨hf, -⟩ := hs
  cases exec_cases h with
  | unpowered _ hoff _ => exact absurd hps hoff
  | range _ _ _ _ _ _ _ ht => exact ht ▸ raise_faults hf _
  | runs _ _ _ hr _ => exact absurd (hr idx buf len sel rfl) (by omega)
  | selector hwf => cases hwf
  | resumeOn hi => cases hi
  | suspendOff hi => cases hi

section InRange

variable (hle : buf.toNat + len.toNat ≤ 2 ^ 32)
include hle

theorem framerRun_sendIndexedBuffer : FramerRun (.sendIndexedBuffer idx buf len sel) s t :=
  framerRun_of_exec rfl hs h rfl fun _ _ _ _ hi => by cases hi; exact hle

theorem sendIndexedBuffer_faults : frameFaults s t (selectedHalves s.cfg sel) :=
  (framerRun_sendIndexedBuffer hs h hle).dataFrame_faults (fullSeq_sendIndexedBuffer ..)

variable (hr : frameReady s (selectedHalves s.cfg sel))
include hr

theorem sendIndexedBuffer_completes (hm : ∀ i < len.toNat, (memRead s (buf.toNat + i)).isSome = true) :
    Completes s t
      (shownFrame s.cfg (selectedHalves s.cfg sel) idx (bcastSettle s.cfg sel) (bufferBytes s buf len.toNat))
      (bufferReads s buf len.toNat) .on := by
  have hc := (framerRun_sendIndexedBuffer hs h hle).dataFrame_completes (fullSeq_sendIndexedBuffer ..) hr
    (bcastSteps_ready s sel) (bufferXfers_ready hm) (bufferXfers_shown s buf _)
  rwa [seqShown_bcastSteps, seqReads_bcastSteps, seqReads_bufferXfers] at hc

theorem sendIndexedBuffer_stuck {k : Nat} (hk : k < len.toNat)
    (hm : ∀ i < k, (memRead s (buf.toNat + i)).isSome = true) (hno : memRead s (buf.toNat + k) = none) :
    After s t
        (shownUpToData s.cfg (selectedHalves s.cfg sel) idx (bcastSettle s.cfg sel) ++
          shownDataUpTo s.cfg (bufferBytes s buf k)) (bufferReads s buf k) ∧
      t.ps = .on ∧ t.fault = .none ∧ t.faultHistory = s.faultHistory ∧
      (∃ todo, t.port = .executing (latchedWords s.port) (.xferMem (buf.toNat + k) :: todo)) ∧
      step t = .fault (.refusedRead (buf.toNat + k)) := by
  obtain ⟨after, hsplit⟩ := bufferXfers_split buf hk
  have hstuck := (framerRun_sendIndexedBuffer hs h hle).dataFrame_stuck (fullSeq_sendIndexedBuffer ..) hr
    (bcastSteps_ready s sel) hsplit (bufferXfers_ready hm) (bufferXfers_shown s buf k) hno
  rwa [seqShown_bcastSteps, seqReads_bcastSteps, seqReads_bufferXfers] at hstuck

end InRange

end SendIndexedBuffer

/-! ### `selectPanelHalf` (R112) -/

theorem fullSeq_selectPanelHalf_of_large {c : Configuration} (hl : c.family = .large) (sel : Sel) :
    fullSeq c (.selectPanelHalf sel) = assertCS c (selectedHalves c sel) := by
  rw [← effSel_eq_selectedHalves (o := .selectPanelHalf) rfl]
  simp [fullSeq, selectPanelHalfSeq, hl]

theorem fullSeq_selectPanelHalf_of_not_large {c : Configuration} (hl : c.family ≠ .large) (sel : Sel) :
    fullSeq c (.selectPanelHalf sel) = [.drive .csM .low, .delayUs c.tSelectSettle] := by
  cases hfam : c.family with
  | large => exact absurd hfam hl
  | small | medium => simp [fullSeq, selectPanelHalfSeq, hfam]

theorem selectedHalves_eq_slave_iff {c : Configuration} (hl : c.family = .large) (sel : Sel) :
    selectedHalves c sel = .slave ↔ sel = .slave := by
  cases sel <;> simp [selectedHalves, hl]

section SelectPanelHalf

variable {s t : State} {sel : Sel} (h : FramerRun (.selectPanelHalf sel) s t) (hps : s.ps = .on)
include h hps

theorem selectPanelHalf_csM_fault (hM : canDrive s .csM = false) :
    Faults s t [] [] .configHazard (some (.csM, s.cfg.csM)) := by
  by_cases hl : s.cfg.family = .large
  · exact h.hazard_csM (part := []) (tail := []) hps (by simp)
      (by simpa using fullSeq_selectPanelHalf_of_large hl sel) hM
  · exact h.hazard (part := []) hps (by simp) (fullSeq_selectPanelHalf_of_not_large hl sel) hM

variable (hM : canDrive s .csM = true)
include hM

theorem selectPanelHalf_csS_fault (hl : s.cfg.family = .large) (hS : slaveReady s = false) :
    Faults s t [.W s.cfg.csM (if sel = .slave then .high else .low)] [] .configHazard (some (.csS, s.cfg.csS)) := by
  have hf := h.hazard_csS (part := []) (tail := []) hps (by simp)
    (by simpa using fullSeq_selectPanelHalf_of_large hl sel) hM (selectedHalves_of_large hl sel) hS
  simpa [selectedHalves_eq_slave_iff hl] using hf

theorem selectPanelHalf_completes_of_not_large (hl : s.cfg.family ≠ .large) :
    Completes s t [.W s.cfg.csM .low, .Dus s.cfg.tSelectSettle] [] .on := by
  have hc := h.completes hps
  rw [fullSeq_selectPanelHalf_of_not_large hl] at hc
  exact hc (by simp [microReady, hM])

theorem selectPanelHalf_completes_of_large (hl : s.cfg.family = .large) (hS : slaveReady s = true) :
    Completes s t (shownAssert s.cfg (selectedHalves s.cfg sel)) [] .on := by
  have hc := h.completes hps
  rw [fullSeq_selectPanelHalf_of_large hl, seqShown_assertCS, seqReads_assertCS] at hc
  exact hc (assertCS_ready hM (.inr hS))

end SelectPanelHalf

/-! ### The laws (R114) -/

/-- An event stretch leaves a pin at the level of the last write to it. -/
theorem level_cellAfter_lastWrite {p : PinId} {v : Level} {after : List Shown}
    (h : ∀ e ∈ after, touchedPin e = some p → e = .W p v) (c : PinCell) (before : List Shown) :
    (cellAfter p c (before ++ .W p v :: after)).level = latchOf v := by
  have hkeep : ∀ c : PinCell, c.level = latchOf v → (cellAfter p c after).level = latchOf v := by
    induction after with
    | nil => exact fun _ hc => hc
    | cons e es ih =>
      refine fun c hc => ih (fun e' he' => h e' (List.mem_cons_of_mem _ he')) _ ?_
      by_cases ht : touchedPin e = some p
      · rw [h e (List.mem_cons_self ..) ht]
        simp [cellStep]
      · exact (congrArg PinCell.level (cellAfter_untouched p c [e] (by simpa using ht))).trans hc
  rw [cellAfter_append, cellAfter_cons]
  exact hkeep _ (by simp [cellStep])

theorem touchedPin_shownData {c : Configuration} {bytes : List Byte} :
    ∀ ev ∈ shownData c bytes, touchedPin ev = none := by
  unfold shownData
  split <;> simp +contextual [touchedPin, or_imp]

theorem shownDeassert_high {c : Configuration} {e : EffSel} : ∀ ev ∈ shownDeassert c e, ∃ p, ev = .W p .high := by
  cases e <;> simp [shownDeassert, shownSlave]

@[simp] theorem countXfers_append (a b : List Shown) : countXfers (a ++ b) = countXfers a + countXfers b := by
  induction a with
  | nil => simp [countXfers]
  | cons e es ih =>
    cases e with
    | X b => simp only [List.cons_append, countXfers, ih]; omega
    | _ => simpa only [List.cons_append, countXfers] using ih

theorem countXfers_shownData (c : Configuration) (bytes : List Byte) :
    countXfers (shownData c bytes) = bytes.length := by
  unfold shownData
  split
  · induction bytes with
    | nil => rfl
    | cons b bs ih => simp [countXfers, ih]
  · have hmap : countXfers (bytes.map .X) = bytes.length := by
      induction bytes with
      | nil => rfl
      | cons b bs ih => simp [countXfers, ih]
    simp [countXfers, hmap]

theorem countXfers_shownFrame (c : Configuration) (e : EffSel) (idx : Byte) (between : List Shown) (bytes : List Byte) :
    countXfers (shownFrame c e idx between bytes) = countXfers between + bytes.length + 1 := by
  have hslave : ∀ v, countXfers (shownSlave c v) = 0 := fun v => by
    unfold shownSlave
    split <;> rfl
  have hassert : countXfers (shownAssert c e) = 0 := by cases e <;> simp [shownAssert, countXfers, hslave]
  have hdeassert : countXfers (shownDeassert c e) = 0 := by cases e <;> simp [shownDeassert, countXfers, hslave]
  simp [shownFrame, countXfers, hassert, hdeassert, countXfers_shownData]

/-- After DC HIGH come the data and the deassertion. -/
theorem shownFrame_dc_high (c : Configuration) (e : EffSel) (idx : Byte) (between : List Shown) (bytes : List Byte) :
    ∃ before, shownFrame c e idx between bytes =
      before ++ .W c.dc .high :: (shownData c bytes ++ shownDeassert c e) :=
  ⟨[.W c.dc .low] ++ shownAssert c e ++ [.X idx, .Dus c.delayCS] ++ between, by simp [shownFrame]⟩

/-- `t` is `s` after a completed frame with a data phase of `n` bytes. -/
structure CompletedFrame (s t : State) (e : EffSel) (n : Nat) : Prop where
  ready : frameReady s e
  completes : ∃ idx between bytes reads, Completes s t (shownFrame s.cfg e idx between bytes) reads .on ∧
    countXfers between = 0 ∧ bytes.length = n

theorem CompletedFrame.of_xferFrame {s t : State} {e : EffSel} {idx : Byte} {bytes : List Byte}
    (h : frameMeaning s t e (shownFrame s.cfg e idx [] bytes) []) (hf : t.fault = .none) :
    CompletedFrame s t e bytes.length := by
  obtain ⟨hr, hc⟩ := completes_of_frameMeaning h hf
  exact ⟨hr, idx, [], bytes, [], hc, rfl, rfl⟩

/-- Without a fault and without a refused read the frame of `sendIndexedBuffer` completed. -/
theorem CompletedFrame.of_sendIndexedBuffer {s t : State} {idx : Byte} {buf len : Word} {sel : Sel} (hs : startable s)
    (h : exec (.sendIndexedBuffer idx buf len sel) s = .next t) (hp : t.port = .idle) (hf : t.fault = .none) :
    CompletedFrame s t (selectedHalves s.cfg sel) len.toNat := by
  have hps : s.ps = .on := by
    by_contra hoff
    cases (sendIndexedBuffer_notPowered hs h hoff).fault.symm.trans hf
  have hle : buf.toNat + len.toNat ≤ 2 ^ 32 := by
    by_contra ho
    cases (sendIndexedBuffer_overflow hs h hps (by omega)).fault.symm.trans hf
  have hr := frameReady_of_frameFaults (sendIndexedBuffer_faults hs h hle) hf
  have hm : ∀ i < len.toNat, (memRead s (buf.toNat + i)).isSome = true := by
    intro i
    induction i using Nat.strong_induction_on with
    | _ i ih =>
      intro hi
      by_contra hno
      obtain ⟨-, -, -, -, ⟨todo, hport⟩, -⟩ := sendIndexedBuffer_stuck hs h hle hr hi
        (fun j hj => ih j hj (hj.trans hi)) (by simpa using hno)
      cases hp.symm.trans hport
  refine ⟨hr, idx, bcastSettle s.cfg sel, _, _, sendIndexedBuffer_completes hs h hle hr hm, ?_, by simp [bufferBytes]⟩
  unfold bcastSettle
  split <;> rfl

section CompletedFrame

variable {s t : State} {e : EffSel} {n : Nat} (h : CompletedFrame s t e n)
include h

theorem CompletedFrame.dc_high : (pinCell t s.cfg.dc).level = .high := by
  obtain ⟨-, hdc, -, -⟩ := h.ready
  obtain ⟨idx, between, bytes, reads, hc, -, -⟩ := h.completes
  have hdcNC : s.cfg.dc ≠ NC := canDrive_ne_NC hdc
  obtain ⟨before, hsplit⟩ := shownFrame_dc_high s.cfg e idx between bytes
  rw [hc.after.cells _ hdcNC, hsplit]
  refine level_cellAfter_lastWrite (v := .high) (fun ev hev ht => ?_) _ _
  rcases List.mem_append.mp hev with hev | hev
  · simp [touchedPin_shownData ev hev] at ht
  · obtain ⟨p, rfl⟩ := shownDeassert_high ev hev
    obtain rfl : p = s.cfg.dc := by simpa [touchedPin] using ht
    rfl

/-- A chip-select that the deassertion writes is left HIGH. -/
theorem CompletedFrame.high_of_deassert {p : PinId} (hp : p ≠ NC) (hmem : .W p .high ∈ shownDeassert s.cfg e) :
    (pinCell t p).level = .high := by
  obtain ⟨idx, between, bytes, reads, hc, -, -⟩ := h.completes
  obtain ⟨before, after, hsplit⟩ := List.append_of_mem hmem
  rw [hc.after.cells _ hp, shownFrame_eq, hsplit, ← List.append_assoc]
  refine level_cellAfter_lastWrite (v := .high) (fun ev hev ht => ?_) _ _
  obtain ⟨q, rfl⟩ := shownDeassert_high ev (hsplit ▸ List.mem_append_right _ (List.mem_cons_of_mem _ hev))
  obtain rfl : q = p := by simpa [touchedPin] using ht
  rfl

theorem CompletedFrame.csM_high : (pinCell t s.cfg.csM).level = .high := by
  obtain ⟨-, -, hM, -⟩ := h.ready
  exact h.high_of_deassert (canDrive_ne_NC (r := .csM) hM) (by cases e <;> simp [shownDeassert])

theorem CompletedFrame.csS_high (he : e ≠ .single) (hc : s.cfg.csS ≠ NC) : (pinCell t s.cfg.csS).level = .high := by
  refine h.high_of_deassert hc ?_
  cases e with
  | single => exact absurd rfl he
  | _ => simp [shownDeassert, shownSlave, hc]

theorem CompletedFrame.xfers : ∃ new, addsEvents s t new ∧ countXfers (new.map showEvent) = 1 + n := by
  obtain ⟨idx, between, bytes, reads, hc, hb, hn⟩ := h.completes
  obtain ⟨new, ht, hnew⟩ := hc.after.trace
  exact ⟨new, ht, by rw [hnew, countXfers_shownFrame, hb, hn, Nat.zero_add, Nat.add_comm]⟩

end CompletedFrame

theorem driveCsS_notMem_dataFrame_single {c : Configuration} {idx : Byte} {v : Level} {between transfers : List Micro}
    (hb : .drive .csS v ∉ between) (ht : .drive .csS v ∉ transfers) :
    .drive .csS v ∉ dataFrame c .single idx between transfers := by
  have hbody : .drive .csS v ∉ dataBody c transfers := by
    unfold dataBody
    split <;> simp [ht]
  simp [dataFrame_eq, frameHead, assertCS, commandPhase, deassertCS, hb, hbody]

/-- Off LARGE no framer operation drives the slave's chip-select. -/
theorem driveCsS_notMem {c : Configuration} (hl : c.family ≠ .large) {i : Instr} (hi : isFramer i = true) (v : Level) :
    .drive .csS v ∉ fullSeq c i := by
  have heff : ∀ o : Opcode, o.usesSel = true → ∀ sel, effSel o sel c.family = .single := fun o ho sel =>
    (effSel_eq_selectedHalves ho c sel).trans (selectedHalves_of_not_large hl sel)
  cases i with
  | sendCommand idx => simp [fullSeq, sendCommandSeq, assertCS, commandPhase, deassertCS]
  | sendCommandWithByte idx dat => exact driveCsS_notMem_dataFrame_single (by simp) (by simp)
  | sendCommandWithByteSelect idx dat sel =>
    rw [fullSeq, sendCommandWithByteSelectSeq, heff _ rfl]
    exact driveCsS_notMem_dataFrame_single (by simp) (by simp)
  | sendFixedValueRun idx dat count sel =>
    rw [fullSeq, sendFixedValueRunSeq, heff _ rfl]
    exact driveCsS_notMem_dataFrame_single (by simp) (by simp)
  | sendIndexedBuffer idx buf len sel =>
    rw [fullSeq_sendIndexedBuffer, selectedHalves_of_not_large hl]
    exact driveCsS_notMem_dataFrame_single (by simp [bcastSteps, hl]) (by simp [bufferXfers])
  | selectPanelHalf sel => simp [fullSeq_selectPanelHalf_of_not_large hl]
  | resume | suspend | resetSequence | waitBusy => cases hi

theorem csS_untouched_of_not_large {i : Instr} {s t : State} (hi : isFramer i = true) (hl : s.cfg.family ≠ .large)
    (h : exec i s = .next t) (hdc : s.cfg.csS ≠ s.cfg.dc) (hM : s.cfg.csS ≠ s.cfg.csM) :
    ∃ new, addsEvents s t new ∧ ∀ e ∈ new, touchedPin (showEvent e) ≠ some s.cfg.csS := by
  obtain ⟨new, ht, hnew⟩ := (exec_frame h).events
  refine ⟨new, ht, fun e he => ?_⟩
  obtain ⟨m, hm, hme⟩ := hnew e he
  cases fullSeq_steps s.cfg i m hm with
  | frameDrive _ r hr v =>
    rw [hme]
    rcases hr with rfl | rfl | rfl
    · simpa [touchedPin, pinOf] using hdc.symm
    · simpa [touchedPin, pinOf] using hM.symm
    · exact absurd hm (driveCsS_notMem hl hi v)
  | frameXfer => rw [hme]; simp [touchedPin]
  | frameXferMem =>
    obtain ⟨b, hb⟩ := hme
    simp [hb, touchedPin]
  | frameDelay => rw [hme]; simp [touchedPin]
  | _ => cases hi

/-! ### The obligations -/

/-- Settles O19. -/
theorem sendCommand : Obligations.SendCommand := by
  refine ⟨fun s idx hs => ?_, fun idx => decode_encode (i := .sendCommand idx) rfl⟩
  obtain ⟨t, h⟩ := exec_next (.sendCommand idx) s
  exact ⟨t, h, sendCommand_meaning hs h, sendCommand_dc_low hs h⟩

/-- Settles O20: for one data byte both values of `SETTLE_PER_BYTE` give the same frame. -/
theorem sendCommandWithByte : Obligations.SendCommandWithByte := by
  refine ⟨fun s idx dat hs => ?_, fun idx dat => decode_encode (i := .sendCommandWithByte idx dat) rfl⟩
  obtain ⟨t, h⟩ := exec_next (.sendCommandWithByte idx dat) s
  have hm := sendCommandWithByte_meaning hs h
  refine ⟨t, h, ?_, fun hf => (CompletedFrame.of_xferFrame hm hf).dc_high⟩
  simpa [shownFrame, shownAssert, shownData, shownDeassert] using hm

/-- Settles O21. -/
theorem sendCommandWithByteSelect : Obligations.SendCommandWithByteSelect := by
  refine ⟨fun s idx dat sel hsel hs => ?_, fun idx dat sel => ?_⟩
  · obtain ⟨t, h⟩ := exec_next (.sendCommandWithByteSelect idx dat sel) s
    exact ⟨t, h, sendCommandWithByteSelect_meaning hs hsel h⟩
  · split
    · next hsel => exact hsel ▸ decode_selectorRequired (o := .sendCommandWithByteSelect) rfl nofun nofun
    · next hsel => exact decode_encode (i := .sendCommandWithByteSelect idx dat sel) (given_of_ne_omitted hsel)

/-- Settles O22. -/
theorem sendFixedValueRun : Obligations.SendFixedValueRun := by
  refine ⟨fun s idx dat count sel hs => ?_,
    fun idx dat count sel => decode_encode (i := .sendFixedValueRun idx dat count sel) rfl⟩
  obtain ⟨t, h⟩ := exec_next (.sendFixedValueRun idx dat count sel) s
  exact ⟨t, h, sendFixedValueRun_meaning hs h⟩

/-- Settles O23. -/
theorem sendIndexedBuffer : Obligations.SendIndexedBuffer := by
  refine ⟨fun s idx buf len sel hs => ?_,
    fun idx buf len sel => decode_encode (i := .sendIndexedBuffer idx buf len sel) rfl⟩
  obtain ⟨t, h⟩ := exec_next (.sendIndexedBuffer idx buf len sel) s
  exact ⟨t, h, sendIndexedBuffer_notPowered hs h, sendIndexedBuffer_overflow hs h, sendIndexedBuffer_faults hs h,
    sendIndexedBuffer_completes hs h, fun k hk hle hr => sendIndexedBuffer_stuck hs h hle hr hk⟩

/-- Settles O24: the events of the selection are `assertCS`'s on LARGE. -/
theorem selectPanelHalf : Obligations.SelectPanelHalf := by
  refine ⟨fun s sel hsel hs => ?_, fun sel => ?_⟩
  · obtain ⟨t, h⟩ := exec_next (.selectPanelHalf sel) s
    have hrun : FramerRun (.selectPanelHalf sel) s t := framerRun_of_exec rfl hs h (given_of_ne_omitted hsel) nofun
    refine ⟨t, h, hrun.notPowered, selectPanelHalf_csM_fault hrun, selectPanelHalf_csS_fault hrun,
      selectPanelHalf_completes_of_not_large hrun, fun hps hM hl hS => ?_⟩
    have hc := selectPanelHalf_completes_of_large hrun hps hM hl hS
    cases sel <;> simpa [selectedHalves, hl, shownAssert] using hc
  · split
    · next hsel => exact hsel ▸ decode_selectorRequired (o := .selectPanelHalf) rfl (fun _ => rfl) (fun _ => rfl)
    · next hsel => exact decode_encode (i := .selectPanelHalf sel) (given_of_ne_omitted hsel)

/-- Settles O39: each law is read off the events of the completed frame, the first off the steps of the sequence. -/
theorem framerLaws : Obligations.FramerLaws := by
  refine ⟨fun _ _ _ => csS_untouched_of_not_large, ?_, ?_, ?_⟩
  · intro s t idx dat count buf len sel i hs hi hl h hp hf
    have hc : ∃ n, CompletedFrame s t (selectedHalves s.cfg sel) n := by
      rcases hi with ⟨rfl, hsel⟩ | rfl | rfl
      · exact ⟨_, .of_xferFrame (sendCommandWithByteSelect_meaning hs hsel h) hf⟩
      · exact ⟨_, .of_xferFrame (sendFixedValueRun_meaning hs h) hf⟩
      · exact ⟨_, .of_sendIndexedBuffer hs h hp hf⟩
    obtain ⟨n, hc⟩ := hc
    exact ⟨hc.csM_high, hc.csS_high (selectedHalves_of_large hl sel)⟩
  · rintro s t idx dat count buf len sel i hs (rfl | ⟨rfl, hsel⟩ | rfl | rfl) h hp hf
    · exact (CompletedFrame.of_xferFrame (sendCommandWithByte_meaning hs h) hf).dc_high
    · exact (CompletedFrame.of_xferFrame (sendCommandWithByteSelect_meaning hs hsel h) hf).dc_high
    · exact (CompletedFrame.of_xferFrame (sendFixedValueRun_meaning hs h) hf).dc_high
    · exact (CompletedFrame.of_sendIndexedBuffer hs h hp hf).dc_high
  · rintro s t idx dat count buf len sel i n hs
      (⟨rfl, rfl⟩ | ⟨rfl, rfl⟩ | ⟨rfl, hsel, rfl⟩ | ⟨rfl, rfl⟩ | ⟨rfl, rfl⟩) h hp hf
    · exact sendCommand_xfers hs h hf
    · exact (CompletedFrame.of_xferFrame (sendCommandWithByte_meaning hs h) hf).xfers
    · exact (CompletedFrame.of_xferFrame (sendCommandWithByteSelect_meaning hs hsel h) hf).xfers
    · simpa using (CompletedFrame.of_xferFrame (sendFixedValueRun_meaning hs h) hf).xfers
    · exact (CompletedFrame.of_sendIndexedBuffer hs h hp hf).xfers

end Sys2Proof.Machine
end

section
/-! SUPPORT. What each power sequencer operation does, for a host that waits for its completion: `resume`, `suspend` and
`resetSequence` as runs of their event sequences, `waitBusy` turn by turn (spec/41_lifecycle.md R141 to R152). -/

namespace Sys2Proof.Machine

/-! ### One equation per power state (R140) -/

section Equations

variable {s : State}

theorem exec_resume_of_on (h : s.ps = .on) : exec .resume s = .next { s with port := .idle } := by
  simp [exec, execResume, gpioConfigured, h, run, complete]

theorem exec_resume_of_not_on (h : s.ps ≠ .on) : exec .resume s = .next (run (resumeSeq s.cfg) s) := by
  simp [exec, execResume, gpioConfigured, h]

theorem exec_suspend_of_on (h : s.ps = .on) : exec .suspend s = .next (run (suspendSeq s.cfg true) s) := by
  simp [exec, execSuspend, gpioConfigured, h]

theorem exec_suspend_of_not_on (h : s.ps ≠ .on) :
    exec .suspend s = .next { s with ps := .sleep, port := .idle } := by
  simp [exec, execSuspend, gpioConfigured, h, suspendSeq, run, isSilent, advance, complete]

theorem exec_resetSequence_of_on (d1 d2 d3 d4 d5 : Word) (h : s.ps = .on) :
    exec (.resetSequence d1 d2 d3 d4 d5) s = .next (run (resetSequenceSeq d1 d2 d3 d4 d5) s) := by
  simp [exec, execResetSequence, gate, busEnabled, h]

theorem exec_waitBusy_of_on (lvl : Level) (h : s.ps = .on) :
    exec (.waitBusy lvl) s = .next (run [.poll lvl] s) := by
  simp [exec, execWaitBusy, gate, busEnabled, h, waitBusySeq]

end Equations

/-! ### Completion and hazards -/

/-- An operation without an event, whatever it makes of `PS` and the port. -/
theorem completes_without_event (s : State) (ps : PowerState) :
    Completes s { s with ps := ps, port := .idle } [] [] ps :=
  ⟨(After.refl s).congr rfl rfl rfl rfl rfl rfl rfl rfl rfl rfl, rfl, rfl, rfl, rfl⟩

theorem startable.no_fault {s : State} (h : startable s) : s.fault = .none := h.1
theorem startable.waits {s : State} (h : startable s) : hostCounts s = false := h.2

/-- A completed operation leaves a PFPS that can start the next. -/
theorem Completes.startable {s t : State} {evs : List Shown} {reads : List (Nat × Byte)} {ps : PowerState}
    (h : Completes s t evs reads ps) (hs : startable s) : startable t :=
  ⟨h.fault.trans hs.no_fault, (hostCounts_congr h.after.agenda).trans hs.waits⟩

/-- A hazard at the first access of an operation. -/
theorem raiseHazard_faults {s : State} (hf : s.fault = .none) (r : Role) :
    Faults s (raiseHazard r s) [] [] .configHazard (some (r, pinOf s.cfg r)) := by
  refine ⟨(After.refl s).congr ?_ ?_ ?_ ?_ ?_ ?_ ?_ ?_ ?_ ?_, ?_, ?_, ?_, ?_⟩ <;> simp [raiseHazard, hf]

/-! ### Events by what they show -/

/-- Events shown alike are the same, unless they are transfers: only the byte a transfer returns is not shown. -/
theorem eq_of_showEvent_eq {e e' : Event} (hx : ∀ b, showEvent e ≠ .X b) (h : showEvent e = showEvent e') : e = e' := by
  cases e with
  | xfer b r => exact absurd rfl (hx b)
  | _ => cases e' <;> simp_all [showEvent]

theorem eq_of_map_showEvent_eq {l l' : List Event} (hx : ∀ e ∈ l, ∀ b, showEvent e ≠ .X b)
    (h : l.map showEvent = l'.map showEvent) : l = l' := by
  induction l generalizing l' with
  | nil => simpa using h.symm
  | cons e l ih =>
    obtain ⟨hxe, hxl⟩ := List.forall_mem_cons.mp hx
    cases l' with
    | nil => cases h
    | cons e' l' =>
      obtain ⟨he, hl⟩ := List.cons.inj h
      rw [eq_of_showEvent_eq hxe he, ih hxl hl]

/-! ### `resume` (R141 to R143) -/

section ConfigurationShown

variable (s : State)

@[simp] theorem seqShown_configureHigh (r : Role) :
    seqShown s (configureHigh s.cfg r) = shownOutput (pinOf s.cfg r) .high := by
  by_cases h : pinOf s.cfg r = NC <;> simp [configureHigh, shownOutput, connected, h, microShown]

@[simp] theorem seqShown_configureInput (r : Role) :
    seqShown s (configureInput s.cfg r) = shownInput (pinOf s.cfg r) := by
  by_cases h : pinOf s.cfg r = NC <;> simp [configureInput, shownInput, connected, h, microShown]

@[simp] theorem seqShown_configureExt (x : ExtPin) : seqShown s (configureExt x) = shownExt x := by
  unfold configureExt shownExt
  by_cases h : x.pin = NC
  · rcases x.setup with _ | _ | v <;> simp [h, shownInput, shownOutput]
  · rcases x.setup with _ | _ | v <;> simp [h, shownInput, shownOutput, microShown]

theorem seqShown_extPins (l : List ExtPin) : seqShown s (l.flatMap configureExt) = l.flatMap shownExt :=
  List.flatMap_assoc.trans (congrArg (List.flatMap · l) (funext (seqShown_configureExt s)))

theorem seqShown_resumeSeq : seqShown s (resumeSeq s.cfg) = shownConfiguration s.cfg := by
  simp [resumeSeq, configurationSeq, shownConfiguration, seqShown_extPins, microShown, pinOf]

end ConfigurationShown

/-- No step of `resume` has a check, and none reads anything. -/
theorem resume_step_ready {s : State} {m : Micro} (hm : StepOf s.cfg .resume m) :
    microReady s m = true ∧ isDrive m = false := by
  cases hm with
  | frameDrive hi | frameXfer hi | frameDelay hi => cases hi
  | _ => exact ⟨rfl, rfl⟩

theorem resumeSeq_ready (s : State) : SeqReady s (resumeSeq s.cfg) := by
  have hready : ∀ m ∈ resumeSeq s.cfg, microReady s m = true ∧ isDrive m = false := fun m hm =>
    resume_step_ready (fullSeq_steps s.cfg .resume m hm)
  exact ⟨fun m hm => (hready m hm).1, .inr fun m hm => (hready m hm).2⟩

theorem seqReads_resumeSeq (s : State) : seqReads s (resumeSeq s.cfg) = [] :=
  seqReads_eq_nil fun _ hm => by
    obtain ⟨_, _, _, _, hi⟩ := (fullSeq_steps s.cfg .resume _ hm).eq_sendIndexedBuffer_of_xferMem
    cases hi

theorem seqPower_resumeSeq (c : Configuration) (ps : PowerState) : seqPower ps (resumeSeq c) = .on := by
  simp [seqPower, resumeSeq, microPower]

/-- `resume` from OFF or SLEEP. -/
theorem resume_completes {s t : State} (hs : startable s) (hps : s.ps ≠ .on) (h : exec .resume s = .next t) :
    Completes s t (shownConfiguration s.cfg) [] .on := by
  rw [exec_resume_of_not_on hps] at h
  cases h
  have hc := run_completes (resumeSeq s.cfg) s hs.waits (resumeSeq_ready s)
  rwa [seqShown_resumeSeq, seqReads_resumeSeq, seqPower_resumeSeq] at hc

/-- A `resume` whose port is IDLE again ended in ON: it has no access that could end it earlier. -/
theorem resume_ps_of_idle {s t : State} (h : exec .resume s = .next t) (hp : t.port = .idle) : t.ps = .on := by
  by_cases hps : s.ps = .on
  · rw [exec_resume_of_on hps] at h
    cases h
    exact hps
  · rw [exec_resume_of_not_on hps] at h
    cases h
    cases run_ends (resumeSeq s.cfg) s with
    | finished _ _ _ hps' => exact hps'.trans (seqPower_resumeSeq s.cfg s.ps)
    | hazard r before rest m ht hm =>
      obtain ⟨hready, hdrive⟩ := resume_step_ready (fullSeq_steps s.cfg .resume m (by simp [fullSeq, ht]))
      rcases hm with ⟨v, rfl⟩ | ⟨-, lvl, rfl⟩
      · cases hdrive
      · cases hready
    | paused _ _ _ _ hp' => cases hp.symm.trans hp'

/-- The events of `resume` name pins of connected roles and connected extension pins only. -/
theorem resume_touches {c : Configuration} {m : Micro} (hm : StepOf c .resume m) {e : Shown} (he : MayEmit c m e)
    {p : PinId} (hp : touchedPin e = some p) : IsResumePin c p := by
  cases hm with
  | resumeInit => cases he; cases hp
  | resumeMode q d hq => cases he; cases hp; exact hq
  | resumeWrite q v hq => cases he; cases hp; exact hq
  | resumePower => cases he
  | frameDrive hi | frameXfer hi | frameDelay hi => cases hi

/-- `resume` transfers no byte. -/
theorem resume_no_xfer {s t : State} {new : List Event} (h : exec .resume s = .next t) (hnew : addsEvents s t new) :
    ∀ e ∈ new, ∀ b, showEvent e ≠ .X b := by
  obtain ⟨new', ht, hmay⟩ := (exec_frame h).events
  obtain rfl : new' = new := List.append_cancel_left (ht.symm.trans hnew)
  intro e he b hb
  obtain ⟨m, hm, hme⟩ := hmay e he
  rw [hb] at hme
  cases fullSeq_steps s.cfg .resume m hm with
  | frameDrive hi | frameXfer hi | frameDelay hi => cases hi
  | _ => cases hme

/-! ### `suspend` (R145, R146) -/

section Suspend

variable {s t : State}

theorem suspendSeq_of_connected {c : Configuration} (h : c.rail ≠ NC) :
    suspendSeq c true = [.drive .rail .low, .setPower .sleep] := by
  simp [suspendSeq, railLow, connected, pinOf, h]

theorem suspendSeq_of_not_connected {c : Configuration} (h : c.rail = NC) :
    suspendSeq c true = [.setPower .sleep] := by
  simp [suspendSeq, railLow, connected, pinOf, h]

/-- `suspend` emits at most the rail's write, completed or not. -/
theorem suspend_adds_at_most_one (h : exec .suspend s = .next t) :
    ∃ new, addsEvents s t new ∧ new.length ≤ 1 := by
  by_cases hps : s.ps = .on
  · rw [exec_suspend_of_on hps] at h
    cases h
    by_cases hr : s.cfg.rail = NC
    · rw [suspendSeq_of_not_connected hr]
      exact ⟨[], by simp [addsEvents, run, isSilent, advance], by simp⟩
    · rw [suspendSeq_of_connected hr, run]
      split
      · exact ⟨[], by simp [addsEvents], by simp⟩
      · by_cases hd : canDrive s .rail = true
        · exact ⟨[.pinWrite s.cfg.rail .low],
            by simp [addsEvents, advance, drive_eq, hd, run, isSilent, pinOf], by simp⟩
        · exact ⟨[], by simp [addsEvents, advance, drive_eq, hd, raiseHazard], by simp⟩
  · rw [exec_suspend_of_not_on hps] at h
    cases h
    exact ⟨[], by simp [addsEvents], by simp⟩

/-- A `suspend` that raised no fault and whose port is IDLE again ended in SLEEP. -/
theorem suspend_ps_of_idle (hf : s.fault = .none) (h : exec .suspend s = .next t) (hp : t.port = .idle)
    (hf' : t.fault = .none) : t.ps = .sleep := by
  by_cases hps : s.ps = .on
  · rw [exec_suspend_of_on hps] at h
    cases h
    cases run_ends (suspendSeq s.cfg true) s with
    | finished _ _ _ hps' => simpa [suspendSeq, microPower] using hps'
    | hazard _ _ _ _ _ _ _ hfault => simp [hfault, hf] at hf'
    | paused _ _ _ _ hp' => cases hp.symm.trans hp'
  · rw [exec_suspend_of_not_on hps] at h
    cases h
    rfl

/-- A `suspend` after a completed one changes nothing. -/
theorem suspend_again (hf : s.fault = .none) (h : exec .suspend s = .next t) (hp : t.port = .idle)
    (hf' : t.fault = .none) : exec .suspend t = .next t := by
  have hps := suspend_ps_of_idle hf h hp hf'
  rw [exec_suspend_of_not_on (by simp [hps]), ← hps, ← hp]

theorem suspend_completes_of_not_on (h : exec .suspend s = .next t) (hps : s.ps ≠ .on) :
    Completes s t [] [] .sleep := by
  rw [exec_suspend_of_not_on hps] at h
  cases h
  exact completes_without_event s .sleep

section Waiting

variable (hs : startable s) (h : exec .suspend s = .next t)
include hs h

section On

variable (hps : s.ps = .on)
include hps

theorem suspend_completes_of_not_connected (hr : s.cfg.rail = NC) : Completes s t [] [] .sleep := by
  rw [exec_suspend_of_on hps, suspendSeq_of_not_connected hr] at h
  cases h
  exact run_completes _ s hs.waits ⟨by simp [microReady], .inl (by simp [isPinMode])⟩

theorem suspend_completes_of_canDrive (hd : canDrive s .rail = true) :
    Completes s t [.W s.cfg.rail .low] [] .sleep := by
  rw [exec_suspend_of_on hps, suspendSeq_of_connected (canDrive_ne_NC hd)] at h
  cases h
  exact run_completes _ s hs.waits ⟨by simp [microReady, hd], .inl (by simp [isPinMode])⟩

theorem suspend_faults (hr : s.cfg.rail ≠ NC) (hd : canDrive s .rail = false) :
    Faults s t [] [] .configHazard (some (.rail, s.cfg.rail)) := by
  rw [exec_suspend_of_on hps, suspendSeq_of_connected hr] at h
  cases h
  exact run_hazard [] .rail .low _ s hs.waits hs.no_fault (by simp) (by simp) rfl hd

end On

/-- `suspend` completes wherever it raises no fault. -/
theorem suspend_completes (hf : t.fault = .none) : ∃ evs, Completes s t evs [] .sleep := by
  by_cases hps : s.ps = .on
  · by_cases hr : s.cfg.rail = NC
    · exact ⟨_, suspend_completes_of_not_connected hs h hps hr⟩
    · by_cases hd : canDrive s .rail = true
      · exact ⟨_, suspend_completes_of_canDrive hs h hps hd⟩
      · cases (suspend_faults hs h hps hr (eq_false_of_ne_true hd)).fault.symm.trans hf
  · exact ⟨_, suspend_completes_of_not_on h hps⟩

end Waiting

end Suspend

/-! ### `resetSequence` (R148) -/

section ResetSequence

variable {s t : State} {d1 d2 d3 d4 d5 : Word} (hs : startable s) (h : exec (.resetSequence d1 d2 d3 d4 d5) s = .next t)
  (hps : s.ps = .on)
include hs h hps

theorem resetSequence_completes (hr : canDrive s .reset = true) (hM : canDrive s .csM = true) :
    Completes s t
      [.Dms d1, .W s.cfg.reset .high, .Dms d2, .W s.cfg.reset .low, .Dms d3, .W s.cfg.reset .high, .Dms d4,
       .W s.cfg.csM .high, .Dms d5] [] .on := by
  rw [exec_resetSequence_of_on d1 d2 d3 d4 d5 hps] at h
  cases h
  have hc := run_completes (resetSequenceSeq d1 d2 d3 d4 d5) s hs.waits
    ⟨by simp [resetSequenceSeq, microReady, hr, hM], .inl (by simp [resetSequenceSeq, isPinMode])⟩
  exact hps ▸ hc

theorem resetSequence_reset_fault (hr : canDrive s .reset = false) :
    Faults s t [.Dms d1] [] .configHazard (some (.reset, s.cfg.reset)) := by
  rw [exec_resetSequence_of_on d1 d2 d3 d4 d5 hps] at h
  cases h
  exact run_hazard [.delayMs d1] .reset .high _ s hs.waits hs.no_fault (by simp [microReady]) (by simp [isPinMode])
    rfl hr

theorem resetSequence_csM_fault (hr : canDrive s .reset = true) (hM : canDrive s .csM = false) :
    Faults s t
      [.Dms d1, .W s.cfg.reset .high, .Dms d2, .W s.cfg.reset .low, .Dms d3, .W s.cfg.reset .high, .Dms d4] []
      .configHazard (some (.csM, s.cfg.csM)) := by
  rw [exec_resetSequence_of_on d1 d2 d3 d4 d5 hps] at h
  cases h
  exact run_hazard [.delayMs d1, .drive .reset .high, .delayMs d2, .drive .reset .low, .delayMs d3,
    .drive .reset .high, .delayMs d4] .csM .high [.delayMs d5] s hs.waits hs.no_fault (by simp [microReady, hr])
    (by simp [isPinMode]) rfl hM

end ResetSequence

/-! ### `waitBusy`: one turn of the loop (R151) -/

theorem drawLevel_of_drawsLevel {s s' : State} {v : Level} (h : drawsLevel s v s') : drawLevel s = (v, s') := by
  rcases h with ⟨rest, hl, rfl⟩ | ⟨hl, rfl, rfl⟩ <;> simp [drawLevel, hl]

theorem run_poll_hazard {s : State} {lvl : Level} (hw : hostCounts s = false) (hc : canSample s .busy = false) :
    run [.poll lvl] s = raiseHazard .busy s := by
  simp [run, hostDue_of_waits hw, advance, sample_eq, hc]

section Turn

variable {s s' : State} {v lvl : Level} (hw : hostCounts s = false) (hc : canSample s .busy = true)
  (hd : drawLevel s = (v, s'))
include hw hc hd

/-- The read itself: the draw is made and recorded, and the level decides how the turn ends. -/
theorem advance_poll : advance (.poll lvl) s =
    if v = lvl then .done { s' with trace := s.trace ++ [.pinRead s.cfg.busy v] }
    else .again { s' with trace := s.trace ++ [.pinRead s.cfg.busy v, .delayMs 32#32] } := by
  have htick : ∀ u : State, u.agenda = s'.agenda → tick u = u := fun u hu =>
    tick_of_waits ((hostCounts_congr (hu.trans (by simpa [hd] using drawLevel_agenda s))).trans hw)
  have htrace : s'.trace = s.trace := by simpa [hd] using drawLevel_trace s
  simp [advance, sample_eq, hc, doPinRead, hd, htick, emit, htrace, pinOf, tBusyPoll]

theorem run_poll_hit (hv : v = lvl) :
    run [.poll lvl] s = { s' with trace := s.trace ++ [.pinRead s.cfg.busy v], port := .idle } := by
  rw [run, if_neg (by simp [hostDue_of_waits hw]), advance_poll hw hc hd, if_pos hv]
  rfl

theorem run_poll_miss (hv : v ≠ lvl) :
    run [.poll lvl] s = { s' with
      trace := s.trace ++ [.pinRead s.cfg.busy v, .delayMs 32#32]
      port := .executing (latchedWords s.port) [.poll lvl] } := by
  have hport : s'.port = s.port := by simpa [hd] using drawLevel_port s
  rw [run, if_neg (by simp [hostDue_of_waits hw]), advance_poll hw hc hd, if_neg hv]
  simp [pauseAt, hport]

end Turn

/-- With the loop in flight, a step is the next turn. -/
theorem step_of_poll {s : State} {lvl : Level} {words : List Word} (hw : hostCounts s = false)
    (hp : s.port = .executing words [.poll lvl]) : step s = .next (run [.poll lvl] s) := by
  simp [step, fetch, hp, hostDue_of_waits hw, waitsForRead]

/-! ### `waitBusy`: any number of turns (R152) -/

theorem coreRun_of_step (M : Host.Core) {s t : M.State} (h : M.step s = .next t) (k : Nat) :
    M.run (k + 1) s = M.run k t := by simp [Host.Core.run, h]

/-- The state in which `n` turns of the loop have read `v` and missed, with these levels left. -/
def afterMisses (s : State) (v : Level) (n : Nat) (rest : List Level) : State :=
  { s with
    levelInputs := rest
    trace := s.trace ++ (List.replicate n [Event.pinRead s.cfg.busy v, .delayMs 32#32]).flatten }

theorem polling.no_fault {s : State} {lvl : Level} (h : polling s lvl) : s.fault = .none := by
  obtain ⟨-, hf, -⟩ := h
  exact hf

/-- Misses leave the loop in flight. -/
theorem polling.afterMisses {s : State} {lvl : Level} (h : polling s lvl) (v : Level) (n : Nat) (rest : List Level) :
    polling (afterMisses s v n rest) lvl := h

theorem afterMisses_add (s : State) (v : Level) (m n : Nat) (between rest : List Level) :
    afterMisses (afterMisses s v m between) v n rest = afterMisses s v (m + n) rest := by
  simp only [Machine.afterMisses, List.replicate_add, List.flatten_append, List.append_assoc]

section Turns

variable {s : State} {lvl v : Level} {rest : List Level} (h : polling s lvl)
include h

theorem step_miss (hv : v ≠ lvl) (hi : s.levelInputs = v :: rest) : step s = .next (afterMisses s v 1 rest) := by
  obtain ⟨-, -, hw, hc, words, hp⟩ := h
  have hd : drawLevel s = (v, { s with levelInputs := rest }) := by simp [drawLevel, hi]
  rw [step_of_poll hw hp, run_poll_miss hw hc hd hv]
  simp [Machine.afterMisses, hp, latchedWords]

theorem step_hit (hi : s.levelInputs = lvl :: rest) : ∃ t, step s = .next t ∧ t.port = .idle ∧ t.fault = .none := by
  obtain ⟨-, hf, hw, hc, words, hp⟩ := h
  have hd : drawLevel s = (lvl, { s with levelInputs := rest }) := by simp [drawLevel, hi]
  exact ⟨_, (step_of_poll hw hp).trans (congrArg _ (run_poll_hit hw hc hd rfl)), rfl, hf⟩

/-- While the line misses, each step of the machine is one turn. -/
theorem run_misses (hv : v ≠ lvl) (n k : Nat) (hi : s.levelInputs = List.replicate n v ++ rest) :
    Sys2Proof.core.run (n + k) s = Sys2Proof.core.run k (afterMisses s v n rest) := by
  induction n generalizing s with
  | zero =>
    have hi' : s.levelInputs = rest := hi
    simp [Machine.afterMisses, ← hi']
  | succ n ih =>
    have hone := step_miss h hv (rest := List.replicate n v ++ rest) hi
    have hrest := ih (h.afterMisses v 1 (List.replicate n v ++ rest)) rfl
    rw [afterMisses_add, Nat.add_comm 1 n] at hrest
    rw [Nat.succ_add]
    exact (coreRun_of_step Sys2Proof.core hone (n + k)).trans hrest

end Turns

end Sys2Proof.Machine
end

section
/-! SUPPORT. The statements about the power sequencer operations (spec/41_lifecycle.md R141 to R152). -/

namespace Sys2Proof.Machine

/-! ### The operations -/

/-- Settles O25. -/
theorem resumeOperation : Obligations.ResumeOperation := by
  refine ⟨fun s hs => ?_, decode_encode (i := .resume) rfl⟩
  obtain ⟨t, h⟩ := exec_next .resume s
  refine ⟨t, h, fun hps => resume_completes hs hps h, fun hps => ?_⟩
  cases (exec_resume_of_on hps).symm.trans h
  exact hps ▸ completes_without_event s s.ps

/-- Settles O26. -/
theorem suspendOperation : Obligations.SuspendOperation := by
  refine ⟨fun s hs => ?_, decode_encode (i := .suspend) rfl⟩
  obtain ⟨t, h⟩ := exec_next .suspend s
  exact ⟨t, h, suspend_completes_of_not_on h, suspend_completes_of_not_connected hs h,
    suspend_completes_of_canDrive hs h, suspend_faults hs h, fun _ => exec_modes (i := .suspend) (by simp) h⟩

/-- Settles O27. -/
theorem resetSequenceOperation : Obligations.ResetSequenceOperation := by
  refine ⟨fun s d1 d2 d3 d4 d5 hs => ?_,
    fun d1 d2 d3 d4 d5 => decode_encode (i := .resetSequence d1 d2 d3 d4 d5) rfl⟩
  obtain ⟨t, h⟩ := exec_next (.resetSequence d1 d2 d3 d4 d5) s
  exact ⟨t, h, fun hps => exec_notPowered rfl rfl hs.no_fault hps h, resetSequence_completes hs h,
    resetSequence_reset_fault hs h, resetSequence_csM_fault hs h⟩

/-- Settles O28: a missed turn leaves the loop in flight, and the next step runs the turn the operation runs. -/
theorem waitBusyTurn : Obligations.WaitBusyTurn := by
  refine ⟨fun s s' lvl v hs hdraws => ?_, decode_encode (i := .waitBusy .low) rfl,
    decode_encode (i := .waitBusy .high) rfl⟩
  have hf := hs.no_fault
  have hw := hs.waits
  have hd := drawLevel_of_drawsLevel hdraws
  obtain ⟨t, h⟩ := exec_next (.waitBusy lvl) s
  have hrun : s.ps = .on → t = run [.poll lvl] s := fun hps => by
    cases (exec_waitBusy_of_on lvl hps).symm.trans h
    rfl
  refine ⟨t, h, fun hps => exec_notPowered rfl rfl hf hps h, fun hps hc => ?_, fun hps hc hv => ?_,
    fun hps hc hv => ?_⟩
  · rw [hrun hps, run_poll_hazard hw hc]
    exact raiseHazard_faults hf .busy
  · rw [hrun hps, run_poll_hit hw hc hd hv]
  · have ht := (hrun hps).trans (run_poll_miss hw hc hd hv)
    have hag : t.agenda = s.agenda := by simpa [ht, hd] using drawLevel_agenda s
    have hpst : t.ps = s.ps := by simpa [ht, hd] using drawLevel_ps s
    have hpt : t.port = .executing (latchedWords s.port) [.poll lvl] := by rw [ht]
    refine ⟨ht, ?_⟩
    rw [step_of_poll ((hostCounts_congr hag).trans hw) hpt, exec_waitBusy_of_on lvl (hpst.trans hps)]

/-- Settles O29: the misses leave the loop in flight, and the turn after them reads what matches. -/
theorem waitBusyWaitsAsLongAsItMisses : Obligations.WaitBusyWaitsAsLongAsItMisses := by
  intro s lvl v n rest h hv
  refine ⟨fun hi => ⟨_, run_misses h hv n 0 hi, rfl, h.no_fault, rfl⟩, fun hi => ?_⟩
  obtain ⟨t, ht, hp, hf⟩ := step_hit (h.afterMisses v n (lvl :: rest)) rfl
  exact ⟨t, (run_misses h hv n 1 hi).trans (coreRun_of_step Sys2Proof.core ht 0), hp, hf⟩

/-! ### The laws (R143, R144, R146, R147) -/

/-- Settles O40: every event is one that a step of `resume` may emit. -/
theorem resumeNamesConnectedPinsOnly : Obligations.ResumeNamesConnectedPinsOnly := by
  intro s t h
  obtain ⟨new, ht, hnew⟩ := (exec_frame h).events
  refine ⟨new, ht, fun e he p hp => ?_⟩
  obtain ⟨m, hm, hme⟩ := hnew e he
  exact resume_touches (fullSeq_steps s.cfg .resume m hm) hme hp

/-- Settles O41: a completed `resume` ends in ON, where the next has nothing to do. -/
theorem resumeIsIdempotent : Obligations.ResumeIsIdempotent := by
  refine ⟨fun s hps => exec_resume_of_on hps, fun s t h hp => ?_⟩
  rw [exec_resume_of_on (resume_ps_of_idle h hp), ← hp]

/-- Settles O42: the second `suspend` emits nothing, and the first at most one event. -/
theorem suspendIsIdempotent : Obligations.SuspendIsIdempotent := by
  refine ⟨fun s hps => exec_suspend_of_not_on hps, fun s t => suspend_again, fun s t u hf h hp hf' h' => ?_⟩
  obtain ⟨new, hnew, hlen⟩ := suspend_adds_at_most_one h
  cases (suspend_again hf h hp hf').symm.trans h'
  exact ⟨new, hnew, (List.length_filter_le _ _).trans (by simpa using hlen)⟩

/-- Settles O43: both run the full configuration sequence, whose events the configuration fixes. -/
theorem suspendResumeRoundTrip : Obligations.SuspendResumeRoundTrip := by
  intro s a b c hs hps ha hb hbf hc
  have hsa := resume_completes hs hps ha
  have has := hsa.startable hs
  obtain ⟨evs, hab⟩ := suspend_completes has hb hbf
  have hbc := resume_completes (hab.startable has) (by simp [hab.ps]) hc
  obtain ⟨new, hnew, hshown⟩ := hsa.after.trace
  obtain ⟨new', hnew', hshown'⟩ := hbc.after.trace
  rw [hab.after.cfg, hsa.after.cfg, ← hshown] at hshown'
  obtain rfl : new' = new := eq_of_map_showEvent_eq (resume_no_xfer hc hnew') hshown'
  exact ⟨hab.ps, hbc.ps, new', hnew, hnew', hshown⟩

end Sys2Proof.Machine
end

section
/-! SUPPORT. When `FAULT` is written and with what record, what a fault leaves as it was, and which fault comes first
(spec/60_exceptions.md R170 to R178). -/

namespace Sys2Proof.Machine

/-! ### Every write of `FAULT` makes its record (R170, R171) -/

/-- Without a fault so far, `raise` writes the code, its record and the port. -/
theorem raise_of_no_fault {s : State} (hf : s.fault = .none) (code : FaultCode) (site : Option (Role × PinId)) :
    raise code site s = { s with
      fault := code, port := .idle
      faultHistory := s.faultHistory ++ [⟨code, s.opIndex, latchedWords s.port, site⟩] } := by
  simp [raise, hf]

/-- A record as R170 and R173 ask for one, made when so many operations were accepted: its code is a fault's, and it names
a role and a pin for CONFIG_HAZARD only. -/
structure GoodRecord (r : FaultRecord) (opIndex : Nat) : Prop where
  code : r.code ≠ .none
  opIndex : r.opIndex = opIndex
  site : r.site.isSome = true ↔ r.code = .configHazard

/-- `FAULT` and its history are as they were, or a code was written to `FAULT` where there was none. -/
inductive FaultWrite (s t : State) : Prop where
  | kept (hf : t.fault = s.fault) (hh : t.faultHistory = s.faultHistory)
  | raised (r : FaultRecord) (hr : GoodRecord r t.opIndex) (hnone : s.fault = .none) (hp : t.port = .idle)
      (hf : t.fault = r.code) (hh : t.faultHistory = s.faultHistory ++ [r])

theorem FaultWrite.of_eq {s s' t : State} (h : FaultWrite s' t) (hf : s'.fault = s.fault)
    (hh : s'.faultHistory = s.faultHistory) : FaultWrite s t := by
  cases h with
  | kept hf' hh' => exact .kept (hf'.trans hf) (hh'.trans hh)
  | raised r hr hnone hp hf' hh' => exact .raised r hr (hf ▸ hnone) hp hf' (hh ▸ hh')

/-- A fault without a site is any but CONFIG_HAZARD. -/
theorem raise_faultWrite {code : FaultCode} (hne : code ≠ .none) (hno : code ≠ .configHazard) (s : State) :
    FaultWrite s (raise code none s) := by
  by_cases hf : s.fault = .none
  · rw [raise_of_no_fault hf]
    exact .raised _ ⟨hne, rfl, by simpa using hno⟩ hf rfl rfl rfl
  · exact .kept (by simp [hf]) (by simp [hf])

theorem run_faultWrite (todo : List Micro) (s : State) : FaultWrite s (run todo s) := by
  cases run_ends todo s with
  | finished _ hf hh => exact .kept hf hh
  | hazard _ _ _ _ _ _ hp hf hh =>
    by_cases hnone : s.fault = .none
    · rw [if_pos hnone] at hf hh
      exact .raised _ ⟨by simp, (run_extends todo s).opIndex.symm, by simp⟩ hnone hp hf hh
    · rw [if_neg hnone] at hf hh
      exact .kept hf (by simpa using hh)
  | paused _ _ _ _ _ hf hh => exact .kept hf hh

theorem exec_faultWrite {i : Instr} {s t : State} (h : exec i s = .next t) : FaultWrite s t := by
  cases exec_cases h with
  | selector _ ht => exact ht ▸ raise_faultWrite (by decide) (by decide) s
  | unpowered _ _ ht => exact ht ▸ raise_faultWrite (by decide) (by decide) s
  | range _ _ _ _ _ _ _ ht => exact ht ▸ raise_faultWrite (by decide) (by decide) s
  | runs _ _ _ _ ht => exact ht ▸ run_faultWrite _ s
  | resumeOn _ _ ht => exact ht ▸ .kept rfl rfl
  | suspendOff _ _ ht => exact ht ▸ .kept rfl rfl

theorem step_faultWrite {s t : State} (h : step s = .next t) : FaultWrite s t := by
  cases step_effect h with
  | access hs => exact .kept hs.fault hs.faultHistory
  | overlap _ ht => exact ht ▸ (raise_faultWrite (by decide) (by decide) _).of_eq rfl rfl
  | illegal words _ ht => exact ht ▸ (raise_faultWrite (by decide) (by decide) _).of_eq rfl rfl
  | accepted words i _ _ ht => exact (exec_faultWrite ht).of_eq rfl rfl
  | going words todo _ ht => exact ht ▸ run_faultWrite todo s

/-! ### At most one fault is recorded (R173) -/

theorem FaultConsistent.congr {s t : State} (h : FaultConsistent s) (hs : SamePfps s t) : FaultConsistent t := by
  unfold FaultConsistent
  rw [hs.fault, hs.faultHistory, hs.port]
  exact h

/-- A stopped PFPS has no operation in flight and takes no issue, so no step changes it. -/
theorem step_of_stopped {s t : State} (hf : s.fault ≠ .none) (hp : s.port = .idle) (h : step s = .next t) :
    SamePfps s t := by
  cases step_effect h with
  | access hs => exact hs
  | overlap hnone _ => exact absurd hnone hf
  | illegal words hi _ => exact absurd (fault_of_issuesNext hi) hf
  | accepted words i hi _ _ => exact absurd (fault_of_issuesNext hi) hf
  | going words todo hp' _ => cases hp.symm.trans hp'

/-- Settles O49: the first fault is recorded alone, and after it nothing of the PFPS changes. -/
theorem stepKeepsFaultConsistent : Obligations.StepKeepsFaultConsistent := by
  intro s t hs h
  obtain ⟨hempty, hone⟩ := hs
  by_cases hf : s.fault = .none
  · cases step_faultWrite h with
    | kept hf' hh => exact ⟨fun _ => hh.trans (hempty hf), fun hne => absurd (hf'.trans hf) hne⟩
    | raised r hr _ hp hf' hh =>
      refine ⟨fun hnone => absurd (hf'.symm.trans hnone) hr.code, fun _ => ⟨hp, r, ?_, hf'.symm⟩⟩
      rw [hh, hempty hf, List.nil_append]
  · obtain ⟨hp, -⟩ := hone hf
    exact FaultConsistent.congr ⟨hempty, hone⟩ (step_of_stopped hf hp h)

/-! ### A fault leaves `PS` as it was (R171) -/

/-- No access that can raise CONFIG_HAZARD comes after a write of `PS`: `resume` has none, `suspend` writes the rail
first, and the gated operations do not write `PS`. -/
theorem setPower_notMem_before_hazard {c : Configuration} {i : Instr} {before rest : List Micro} {m : Micro} {r : Role}
    (hseq : before ++ m :: rest <:+ fullSeq c i) (hm : (∃ v, m = .drive r v) ∨ r = .busy ∧ ∃ lvl, m = .poll lvl)
    (q : PowerState) : .setPower q ∉ before := by
  intro hq
  have hin : ∀ x ∈ before ++ m :: rest, StepOf c i x := fun x hx => fullSeq_steps c i x (hseq.subset hx)
  cases hin _ (List.mem_append_left _ hq) with
  | resumePower =>
    obtain ⟨hready, hdrive⟩ := resume_step_ready (s := State.launch c) (hin m (by simp))
    rcases hm with ⟨v, rfl⟩ | ⟨-, lvl, rfl⟩
    · cases hdrive
    · cases hready
  | suspendPower =>
    have hsub : List.Sublist [.setPower .sleep, m] (suspendSeq c true) :=
      ((List.singleton_sublist.mpr hq).append (List.singleton_sublist.mpr (List.mem_cons_self ..))).trans hseq.sublist
    by_cases hr : c.rail = NC
    · rw [suspendSeq_of_not_connected hr] at hsub
      exact absurd hsub.length_le (by simp)
    · rw [suspendSeq_of_connected hr] at hsub
      cases hsub.eq_of_length rfl

/-- A hazard ends a run before the sequence writes `PS`. -/
theorem run_ps_of_fault {i : Instr} {todo : List Micro} {s : State} (hseq : todo <:+ fullSeq s.cfg i)
    (hf : (run todo s).fault ≠ s.fault) : (run todo s).ps = s.ps := by
  cases run_ends todo s with
  | finished _ hf' => exact absurd hf' hf
  | paused _ _ _ _ _ hf' => exact absurd hf' hf
  | hazard r before rest m ht hm _ _ _ hps =>
    rw [hps, foldl_microPower_eq before s.ps (setPower_notMem_before_hazard (ht ▸ hseq) hm)]

theorem exec_ps_of_fault {i : Instr} {s t : State} (h : exec i s = .next t) (hf : t.fault ≠ s.fault) : t.ps = s.ps := by
  cases exec_cases h with
  | selector _ ht => simp [ht]
  | unpowered _ _ ht => simp [ht]
  | range _ _ _ _ _ _ _ ht => simp [ht]
  | runs _ _ _ _ ht => subst ht; exact run_ps_of_fault (List.suffix_refl _) hf
  | resumeOn _ _ ht => simp [ht]
  | suspendOff _ _ ht => simp [ht] at hf

theorem step_ps_of_fault {s t : State} (hs : PortConsistent s) (h : step s = .next t) (hf : t.fault ≠ s.fault) :
    t.ps = s.ps := by
  cases step_effect h with
  | access ha => exact ha.ps
  | overlap _ ht => simp [ht]
  | illegal words _ ht => simp [ht]
  | accepted words i _ _ ht => exact exec_ps_of_fault (s := accept words (moved s)) ht hf
  | going words todo hp ht =>
    obtain ⟨-, -, i, -, hseq, -⟩ := hs words todo hp
    subst ht
    exact run_ps_of_fault hseq hf

/-- Settles O32: a fault is written once, with its record, and the trace has brought the pin bank to where it is. -/
theorem faultEffect : Obligations.FaultEffect := by
  intro s t hs h hf
  cases step_faultWrite h with
  | kept hf' => exact absurd hf' hf
  | raised r hr hnone hp hf' hh =>
    refine ⟨hnone, hp, step_ps_of_fault hs h hf, step_bankFollowsTrace h, ⟨r, hh, hf'.symm, hr.opIndex, hr.site⟩, ?_⟩
    intro tm words rest
    refine step_issue_stopped (.inl hp) rfl rfl ?_
    rw [← hnone]
    exact hf

/-! ### The gate (R174) -/

/-- The gate's fault changes the port, the fault and its record, even where a host move is already due. -/
theorem exec_unpowered {i : Instr} {s : State} (hg : isGated i = true) (hwf : i.wellFormed = true)
    (hps : s.ps ≠ .on) : exec i s = .next (raise .notPowered none s) := by
  obtain ⟨t, h⟩ := exec_next i s
  cases exec_cases h with
  | unpowered _ _ ht => exact ht ▸ h
  | selector hno => simp [hwf] at hno
  | range _ _ _ _ _ hon => exact absurd hon hps
  | runs _ hon => exact absurd (hon hg) hps
  | resumeOn hi => subst hi; cases hg
  | suspendOff hi => subst hi; cases hg

/-- The sequencer raises no fault but CONFIG_HAZARD. -/
theorem run_fault (todo : List Micro) (s : State) :
    (run todo s).fault = s.fault ∨ (run todo s).fault = .configHazard := by
  cases run_ends todo s with
  | finished _ hf => exact .inl hf
  | paused _ _ _ _ _ hf => exact .inl hf
  | hazard _ _ _ _ _ _ _ hf =>
    by_cases hnone : s.fault = .none
    · exact .inr (hf.trans (if_pos hnone))
    · exact .inl (hf.trans (if_neg hnone))

theorem wellFormed_of_not_isGated {i : Instr} (h : isGated i = false) : i.wellFormed = true := by
  cases i with
  | resume | suspend => rfl
  | _ => cases h

theorem exec_ungated_fault {i : Instr} {s t : State} (hg : isGated i = false) (h : exec i s = .next t) :
    t.fault = s.fault ∨ t.fault = .configHazard := by
  cases exec_cases h with
  | runs _ _ _ _ ht => exact ht ▸ run_fault _ s
  | resumeOn _ _ ht => exact .inl (by simp [ht])
  | suspendOff _ _ ht => exact .inl (by simp [ht])
  | unpowered hg' => simp [hg] at hg'
  | selector hwf => simp [wellFormed_of_not_isGated hg] at hwf
  | range _ _ _ _ hi => subst hi; cases hg

/-- Settles O30: the gate's answer is the operation's, and an operation without a gate raises CONFIG_HAZARD at most. -/
theorem gateStopsUnpoweredOperations : Obligations.GateStopsUnpoweredOperations := by
  refine ⟨fun i s hg hwf hf hps => ?_, fun i s t hg hf h => ?_⟩
  · rw [exec_unpowered hg hwf hps, raise_of_no_fault hf]
  · rcases exec_ungated_fault hg h with ht | ht
    · exact ht ▸ hf
    · simp [ht]

/-! ### The priority of the faults of one issue (R178) -/

/-- The gate comes before the range check, and both before any event, even where a host move is already due. -/
theorem exec_sendIndexedBuffer_overflow {s : State} {buf len : Word} (idx : Byte) (sel : Sel)
    (ho : buf.toNat + len.toNat > 2 ^ 32) : exec (.sendIndexedBuffer idx buf len sel) s =
      .next (raise (if s.ps = .on then .addrOverflow else .notPowered) none s) := by
  split
  · next hps =>
    obtain ⟨t, h⟩ := exec_next (.sendIndexedBuffer idx buf len sel) s
    cases exec_cases h with
    | range _ _ _ _ _ _ _ ht => exact ht ▸ h
    | unpowered _ hoff => exact absurd hps hoff
    | runs _ _ _ hr => exact absurd (hr idx buf len sel rfl) (by omega)
    | selector hwf => cases hwf
    | resumeOn hi => cases hi
    | suspendOff hi => cases hi
  · next hps => exact exec_unpowered rfl rfl hps

/-- The events of `After`, where no transfer is among them. -/
theorem After.adds {s t : State} {evs : List Event} {reads : List (Nat × Byte)}
    (h : After s t (evs.map showEvent) reads) (hx : ∀ e ∈ evs, ∀ b, showEvent e ≠ .X b) : addsEvents s t evs := by
  obtain ⟨new, ht, hnew⟩ := h.trace
  rwa [eq_of_map_showEvent_eq hx hnew.symm]

/-- The first two accesses of the frame are DC LOW and the master's line. -/
theorem sendIndexedBuffer_hazard {s t : State} {idx : Byte} {buf len : Word} {sel : Sel} (hs : startable s)
    (hps : s.ps = .on) (hle : buf.toNat + len.toNat ≤ 2 ^ 32)
    (hno : canDrive s .dc = false ∨ canDrive s .csM = false)
    (h : exec (.sendIndexedBuffer idx buf len sel) s = .next t) :
    t.fault = .configHazard ∧ addsEvents s t (if canDrive s .dc = true then [.pinWrite s.cfg.dc .low] else []) := by
  obtain ⟨-, hdcFault, hcsMFault, -⟩ := sendIndexedBuffer_faults hs h hle
  by_cases hdc : canDrive s .dc = true
  · have hf := hcsMFault hps hdc (hno.resolve_left (by simp [hdc]))
    rw [if_pos hdc]
    exact ⟨hf.fault, hf.after.adds (evs := [.pinWrite s.cfg.dc .low]) (by simp [showEvent])⟩
  · have hf := hdcFault hps (eq_false_of_ne_true hdc)
    rw [if_neg hdc]
    exact ⟨hf.fault, hf.after.adds (evs := []) (by simp)⟩

/-- Settles O31: the port's own checks, the decoder, the gate, the range check and the accesses, in this order. -/
theorem faultPriority : Obligations.FaultPriority := by
  refine ⟨fun s words rest hf ha => step_issue_stopped (hostsTurn_of_due ha) ha rfl hf,
    fun s words rest hf hp ha => ?_, fun s w operands hlen hi hw => ⟨_, step_illegalWord hlen hi hw, rfl⟩,
    fun s idx buf len sel hi ho => ?_, fun i s hg hwf hf hps => ⟨_, exec_unpowered hg hwf hps, by simp [hf]⟩,
    fun s idx buf len sel hs hps hle hno => ?_⟩
  · cases hport : s.port with
    | idle => exact absurd hport hp
    | executing latched todo => exact ⟨_, step_issue_overlap (hostsTurn_of_due ha) ha rfl hf hport, rfl⟩
  · refine ⟨_, (step_legalIssue hi (decode_encode rfl)).trans (exec_sendIndexedBuffer_overflow idx sel ho), ?_, ?_⟩
    · simp
    · exact (raise_fault ..).trans (if_pos (fault_of_issuesNext hi))
  · obtain ⟨t, h⟩ := exec_next (.sendIndexedBuffer idx buf len sel) s
    exact ⟨t, h, sendIndexedBuffer_hazard hs hps hle hno h⟩

end Sys2Proof.Machine
end

section
/-! SUPPORT. Bus transfers and pin reads need `PS` ON (spec/60_exceptions.md R174). -/

namespace Sys2Proof.Machine

/-- The event is no bus transfer and no pin read. -/
def OffBus (e : Event) : Prop := (∀ p v, e ≠ .pinRead p v) ∧ ∀ b r, e ≠ .xfer b r

theorem offBus_iff {e : Event} : OffBus e ↔ (∀ p v, showEvent e ≠ .R p v) ∧ ∀ b, showEvent e ≠ .X b := by
  cases e <;> simp [OffBus, showEvent]

/-- The operations without a gate use no bus: `resume` sets pins up, `suspend` writes the rail. -/
theorem offBus_of_not_gated {c : Configuration} {i : Instr} {m : Micro} {e : Event} (hg : isGated i = false)
    (hm : StepOf c i m) (he : MayEmit c m (showEvent e)) : OffBus e := by
  rw [offBus_iff]
  cases hm with
  | resumeInit | resumeMode | resumeWrite | suspendDrive =>
    have hshow : showEvent e = _ := he
    simp [hshow]
  | resumePower | suspendPower => cases he
  | frameDrive hi | frameXfer hi | frameDelay hi => simp [isGated_of_isFramer hi] at hg
  | frameXferMem | resetDrive | resetDelay | poll => cases hg

/-- Steps of an operation without a gate add no bus event. -/
theorem SeqFrame.offBus {i : Instr} {todo : List Micro} {s t : State} {new : List Event} (h : SeqFrame todo s t)
    (hseq : todo ⊆ fullSeq s.cfg i) (hg : isGated i = false) (hnew : addsEvents s t new) : ∀ e ∈ new, OffBus e := by
  obtain ⟨new', ht, hmay⟩ := h.events
  obtain rfl : new' = new := List.append_cancel_left (ht.symm.trans hnew)
  intro e he
  obtain ⟨m, hm, hme⟩ := hmay e he
  exact offBus_of_not_gated hg (fullSeq_steps s.cfg i m (hseq hm)) hme

theorem addsEvents_eq_nil {s t : State} {new : List Event} (h : addsEvents s t new) (ht : t.trace = s.trace) :
    new = [] := List.self_eq_append_right.mp (ht.symm.trans h)

/-- A gated operation that is not powered adds no event. -/
theorem exec_offBus {i : Instr} {s t : State} {new : List Event} (h : exec i s = .next t) (hps : s.ps ≠ .on)
    (hnew : addsEvents s t new) : ∀ e ∈ new, OffBus e := by
  cases hg : isGated i with
  | false => exact (exec_frame h).offBus (List.Subset.refl _) hg hnew
  | true =>
    have ht : t.trace = s.trace := by
      cases exec_cases h with
      | selector _ ht => simp [ht]
      | unpowered _ _ ht => simp [ht]
      | range _ _ _ _ _ hon => exact absurd hon hps
      | runs _ hon => exact absurd (hon hg) hps
      | resumeOn _ _ ht => simp [ht]
      | suspendOff _ _ ht => simp [ht]
    simp [addsEvents_eq_nil hnew ht]

/-- Settles O51: with `PS` not ON only an operation without a gate emits an event, whether it starts or goes on. -/
theorem busIsUsedOnlyWhileOn : Obligations.BusIsUsedOnlyWhileOn := by
  intro s t new hs h hnew
  by_cases hps : s.ps = .on
  · exact .inr hps
  left
  have hnil : t.trace = s.trace → ∀ e ∈ new, OffBus e := fun ht => by simp [addsEvents_eq_nil hnew ht]
  cases step_effect h with
  | access ha => exact hnil ha.trace
  | overlap _ ht => exact hnil (by simp [ht])
  | illegal words _ ht => exact hnil (by simp [ht])
  | accepted words i _ _ ht => exact exec_offBus (s := accept words (moved s)) ht hps hnew
  | going words todo hp ht =>
    obtain ⟨-, -, i, -, hseq, hon⟩ := hs words todo hp
    cases hg : isGated i with
    | true => exact absurd (hon hg) hps
    | false => exact (ht ▸ run_frame todo s).offBus hseq.subset hg hnew

end Sys2Proof.Machine
end

section
/-! SUPPORT. An issue to an operation in flight, and the end of a run (spec/60_exceptions.md R177, R194). -/

namespace Sys2Proof.Machine

/-! ### OVERLAP (R177) -/

/-- An operation stuck on a refused read leaves the turn to a host that counts steps. -/
theorem hostsTurn_of_stuck {s : State} {words : List Word} {todo : List Micro} {n : Nat} {act : HostAction}
    {rest : List HostMove} (hp : s.port = .executing words todo) (ha : s.agenda = ⟨.afterSteps n, act⟩ :: rest)
    (hw : (waitsForRead todo s).isSome = true) : hostsTurn s :=
  .inr (.inr ⟨by simp [hostCounts, ha], words, todo, hp, hw⟩)

/-- Settles O10: between two steps and while the operation is stuck it is the host's turn, and its issue is an OVERLAP. -/
theorem issueWhileExecutingOverlaps : Obligations.IssueWhileExecutingOverlaps := by
  intro s words words' todo n rest _ hf hp ha hwhen
  refine step_issue_overlap ?_ ha rfl hf hp
  rcases hwhen with rfl | hw
  · exact hostsTurn_of_due ha
  · exact hostsTurn_of_stuck hp ha hw

/-! ### Completed runs (R194) -/

theorem isIssue_eq_false_iff {act : HostAction} : isIssue act = false ↔ ∀ words, act ≠ .issue words := by
  cases act <;> simp [isIssue]

theorem runCompleted_iff {s : State} : runCompleted s = true ↔
    (∀ mv ∈ s.agenda, isIssue mv.action = false) ∧ s.port = .idle ∧ s.fault = .none := by
  simp [runCompleted, and_assoc]

/-- The agenda, the values handed to the host and host memory are no part of the PFPS. -/
theorem samePfps_of_hostFields (s : State) (agenda : List HostMove) (reads : List (HostReg × Word))
    (mem : List Host.Cell) : SamePfps s { s with agenda := agenda, hostReads := reads, hostMem := mem } := by
  constructor <;> rfl

/-- A host move that is no issue is made, and leaves the PFPS as it is. -/
theorem step_of_no_issue {s : State} {mv : HostMove} {rest : List HostMove} (hp : s.port = .idle)
    (ha : s.agenda = mv :: rest) (hmv : isIssue mv.action = false) :
    ∃ t, step s = .next t ∧ SamePfps s t ∧ t.agenda = rest := by
  obtain ⟨tm, act⟩ := mv
  have ht : hostsTurn s := .inl hp
  cases act with
  | issue words => cases hmv
  | readReg r => exact ⟨_, step_readReg ht ha, samePfps_of_hostFields .., rfl⟩
  | writeReg r v => exact ⟨_, step_writeReg ht ha, samePfps_of_hostFields .., rfl⟩
  | memWrite a b =>
    have hno : inBufferInFlight s a.toNat = false := by simp [inBufferInFlight, hp]
    exact ⟨_, step_memWrite ht ha hno, samePfps_of_hostFields .., rfl⟩
  | memRefuse a => exact ⟨_, step_memRefuse ht ha, samePfps_of_hostFields .., rfl⟩

/-- A completed run has a next state, with fewer host moves left if there were any. -/
theorem step_of_runCompleted {s : State} (h : runCompleted s = true) :
    ∃ t, step s = .next t ∧ SamePfps s t ∧ t.agenda = s.agenda.tail := by
  obtain ⟨hno, hp, -⟩ := runCompleted_iff.mp h
  cases ha : s.agenda with
  | nil => exact ⟨s, by simp [step, fetch, hp, hostTurn, ha], samePfps_of_hostFields .., ha⟩
  | cons mv rest => exact step_of_no_issue hp ha (hno mv (by simp [ha]))

/-- Settles O58: moves that are no issues leave the PFPS as it is, and no issue is among those that are left. -/
theorem completedRunsAreOver : Obligations.CompletedRunsAreOver := by
  refine ⟨fun s => by simp only [runCompleted_iff, isIssue_eq_false_iff], fun s h => ?_⟩
  obtain ⟨hno, hp, hf⟩ := runCompleted_iff.mp h
  obtain ⟨t, ht, hsame, ha⟩ := step_of_runCompleted h
  have hf' : t.fault = .none := hsame.fault.trans hf
  refine ⟨t, ht, runCompleted_iff.mpr ⟨fun mv hmv => ?_, hsame.port.trans hp, hf'⟩, hsame.ps, hsame.pins, hf',
    hsame.trace, hsame.opIndex⟩
  rw [ha] at hmv
  exact hno mv (List.mem_of_mem_tail hmv)

end Sys2Proof.Machine
end

section
/-! SUPPORT. The sequencer apart from the host: what a step of it answers depends on the agenda and the port only in that
the host counts it (spec/60_exceptions.md R193; log entry 4). -/

namespace Sys2Proof.Machine

/-! ### One step of the sequencer, apart from the host -/

/-- What one step answers, its state looked at through `f`. -/
def Advance.map (f : State → State) : Advance → Advance
  | .done s => .done (f s)
  | .again s => .again (f s)
  | .refused => .refused
  | .hazard r => .hazard r

theorem Advance.map_map (f g : State → State) (a : Advance) : (a.map g).map f = a.map fun s => f (g s) := by
  cases a <;> rfl

/-- The state with this agenda and this port. -/
def withHost (agenda : List HostMove) (port : Port) (s : State) : State := { s with agenda := agenda, port := port }

/-- The state without a host: no move is left, and no operation in flight. -/
def offHost (s : State) : State := withHost [] .idle s

theorem withHost_doPinMode (p : PinId) (d : Direction) (s : State) :
    withHost s.agenda s.port (doPinMode p d (offHost s)) = doPinMode p d s := by
  simp only [doPinMode, setPinCell]
  split <;> rfl

theorem withHost_doPinWrite (p : PinId) (v : Level) (s : State) :
    withHost s.agenda s.port (doPinWrite p v (offHost s)) = doPinWrite p v s := by
  simp only [doPinWrite, setPinCell]
  split <;> rfl

theorem doPinRead_offHost (p : PinId) (s : State) : (doPinRead p (offHost s)).1 = (doPinRead p s).1 ∧
    withHost s.agenda s.port (doPinRead p (offHost s)).2 = (doPinRead p s).2 := by
  cases h : s.levelInputs <;> simp [doPinRead, drawLevel, emit, offHost, withHost, h]

theorem withHost_doXfer (b : Byte) (s : State) :
    withHost s.agenda s.port (doXfer b (offHost s)) = doXfer b s := by
  cases h : s.byteInputs <;> simp [doXfer, drawByte, emit, offHost, withHost, h]

theorem tick_of_noMoves {s : State} (h : s.agenda = []) : tick s = s := tick_of_waits (by simp [hostCounts, h])

theorem eq_setPower_of_isSilent {m : Micro} (h : isSilent m = true) : ∃ ps, m = .setPower ps := by
  cases m with
  | setPower ps => exact ⟨ps, rfl⟩
  | _ => cases h

/-! One equation for each step with a check. -/

theorem advance_drive_eq (r : Role) (v : Level) (s : State) : advance (.drive r v) s =
    if canDrive s r = true then .done (tick (doPinWrite (pinOf s.cfg r) v s)) else .hazard r := by
  by_cases hc : canDrive s r = true <;> simp [advance, drive_eq, hc]

theorem advance_poll_eq (lvl : Level) (s : State) : advance (.poll lvl) s =
    if canSample s .busy = true then
      if (doPinRead (pinOf s.cfg .busy) s).1 = lvl then .done (tick (doPinRead (pinOf s.cfg .busy) s).2)
      else .again (tick (emit (.delayMs tBusyPoll) (doPinRead (pinOf s.cfg .busy) s).2))
    else .hazard .busy := by
  by_cases hc : canSample s .busy = true <;> simp [advance, sample_eq, hc]

theorem advance_xferMem_eq (a : Nat) (s : State) : advance (.xferMem a) s =
    (memRead s a).elim .refused fun b =>
      .done (tick (doXfer b { s with memHistory := s.memHistory ++ [(a, b)] })) := by
  cases hm : memRead s a <;> simp [advance, hm]

/-- A step with an event acts the same whatever the agenda and the port are, and then counts. -/
theorem advance_eq_offHost {m : Micro} (h : isSilent m = false) (s : State) :
    advance m s = (advance m (offHost s)).map fun u => tick (withHost s.agenda s.port u) := by
  have hpart : ∀ {u v : State}, u.agenda = [] → withHost s.agenda s.port u = v →
      tick v = tick (withHost s.agenda s.port (tick u)) := fun hu hv => by rw [tick_of_noMoves hu, hv]
  cases m with
  | gpioInit => exact congrArg Advance.done (hpart rfl rfl)
  | delayUs n => exact congrArg Advance.done (hpart rfl rfl)
  | delayMs n => exact congrArg Advance.done (hpart rfl rfl)
  | pinMode p d => exact congrArg Advance.done (hpart (doPinMode_agenda ..) (withHost_doPinMode p d s))
  | pinWrite p v => exact congrArg Advance.done (hpart (doPinWrite_agenda ..) (withHost_doPinWrite p v s))
  | xfer b => exact congrArg Advance.done (hpart (doXfer_agenda ..) (withHost_doXfer b s))
  | drive r v =>
    have hc' : canDrive (offHost s) r = canDrive s r := rfl
    rw [advance_drive_eq, advance_drive_eq, hc', apply_ite (Advance.map _)]
    exact ite_congr rfl (fun _ => congrArg Advance.done
      (hpart (doPinWrite_agenda ..) (withHost_doPinWrite (pinOf s.cfg r) v s))) fun _ => rfl
  | poll lvl =>
    obtain ⟨hlevel, hread⟩ := doPinRead_offHost (pinOf s.cfg .busy) s
    have hnone : (doPinRead (pinOf s.cfg .busy) (offHost s)).2.agenda = [] := drawLevel_agenda _
    have hc' : canSample (offHost s) .busy = canSample s .busy := rfl
    have hpin : pinOf (offHost s).cfg .busy = pinOf s.cfg .busy := rfl
    rw [advance_poll_eq, advance_poll_eq, hc', hpin, hlevel, apply_ite (Advance.map _), apply_ite (Advance.map _)]
    refine ite_congr rfl (fun _ => ite_congr rfl (fun _ => congrArg Advance.done (hpart hnone hread)) fun _ => ?_)
      fun _ => rfl
    exact congrArg Advance.again (hpart hnone (congrArg (emit _) hread))
  | xferMem a =>
    have hm' : memRead (offHost s) a = memRead s a := rfl
    rw [advance_xferMem_eq, advance_xferMem_eq, hm']
    cases memRead s a with
    | none => rfl
    | some b =>
      exact congrArg Advance.done
        (hpart (doXfer_agenda ..) (withHost_doXfer b { s with memHistory := s.memHistory ++ [(a, b)] }))
  | setPower ps => cases h

/-- An update of the agenda and the port that keeps up with the host's counting goes through a step. -/
theorem advance_commutes {m : Micro} {s : State} {f : State → State} (hoff : offHost (f s) = offHost s)
    (htick : isSilent m = false → ∀ u,
      tick (withHost (f s).agenda (f s).port u) = f (tick (withHost s.agenda s.port u)))
    (hps : ∀ ps, { f s with ps := ps } = f { s with ps := ps }) : advance m (f s) = (advance m s).map f := by
  cases hm : isSilent m with
  | true =>
    obtain ⟨ps, rfl⟩ := eq_setPower_of_isSilent hm
    exact congrArg Advance.done (hps ps)
  | false => rw [advance_eq_offHost hm, advance_eq_offHost hm s, hoff, Advance.map_map, funext (htick hm)]

theorem tick_agenda_congr {s t : State} (h : t.agenda = s.agenda) : (tick t).agenda = (tick s).agenda := by
  simp only [tick, h]
  split <;> simp [h]

theorem Advance.exists_of_map_done {f : State → State} {a : Advance} {t : State} (h : a.map f = .done t) :
    ∃ u, t = f u := by
  cases a <;> cases h
  exact ⟨_, rfl⟩

theorem Advance.exists_of_map_again {f : State → State} {a : Advance} {t : State} (h : a.map f = .again t) :
    ∃ u, t = f u := by
  cases a <;> cases h
  exact ⟨_, rfl⟩

/-- The host has counted a step with an event; a silent step it does not notice. -/
theorem advance_done_agenda {m : Micro} {s t : State} (h : advance m s = .done t) :
    t.agenda = if isSilent m = true then s.agenda else (tick s).agenda := by
  cases hm : isSilent m with
  | true =>
    obtain ⟨ps, rfl⟩ := eq_setPower_of_isSilent hm
    cases h
    rfl
  | false =>
    obtain ⟨u, rfl⟩ := Advance.exists_of_map_done ((advance_eq_offHost hm s).symm.trans h)
    exact tick_agenda_congr rfl

/-- The host has counted a missed turn of the poll loop. -/
theorem advance_again_agenda {m : Micro} {s t : State} (h : advance m s = .again t) : t.agenda = (tick s).agenda := by
  obtain ⟨⟨lvl, rfl⟩, -⟩ := advance_again_keeps h
  obtain ⟨u, rfl⟩ := Advance.exists_of_map_again ((advance_eq_offHost rfl s).symm.trans h)
  exact tick_agenda_congr rfl

theorem tick_pauseAt (l : List Micro) (s : State) : tick (pauseAt l s) = pauseAt l (tick s) := by
  simp only [tick, pauseAt]
  split <;> rfl

theorem advance_pauseAt (m : Micro) (l : List Micro) (s : State) :
    advance m (pauseAt l s) = (advance m s).map (pauseAt l) :=
  advance_commutes rfl (fun _ u => tick_pauseAt l (withHost s.agenda s.port u)) fun _ => rfl

/-! ### One equation for each way a run goes on -/

section RunCons

variable {m : Micro} {rest : List Micro} {s t : State}

/-- A host move that is due comes before a step with an event (log entry 24). -/
theorem run_cons_of_due (hd : hostDue s = true ∧ isSilent m = false) : run (m :: rest) s = pauseAt (m :: rest) s := by
  rw [run, if_pos hd]

variable (hd : ¬ (hostDue s = true ∧ isSilent m = false))
include hd

theorem run_cons_of_done (h : advance m s = .done t) : run (m :: rest) s = run rest t := by rw [run, if_neg hd, h]

theorem run_cons_of_again (h : advance m s = .again t) : run (m :: rest) s = pauseAt (m :: rest) t := by
  rw [run, if_neg hd, h]

theorem run_cons_of_refused (h : advance m s = .refused) : run (m :: rest) s = pauseAt (m :: rest) s := by
  rw [run, if_neg hd, h]

theorem run_cons_of_hazard {r : Role} (h : advance m s = .hazard r) : run (m :: rest) s = raiseHazard r s := by
  rw [run, if_neg hd, h]

end RunCons

/-- What runs does not depend on what the port held to do, only on the words latched in it. -/
theorem run_pauseAt (todo l : List Micro) (s : State) : run todo (pauseAt l s) = run todo s := by
  have hadv : ∀ {m u a}, advance m u = a → advance m (pauseAt l u) = a.map (pauseAt l) := fun h =>
    h ▸ advance_pauseAt _ l _
  fun_induction run todo s with
  | case1 s => rfl
  | case2 m rest s hd => exact run_cons_of_due (s := pauseAt l s) hd
  | case3 m rest s hd t h ih => exact (run_cons_of_done (s := pauseAt l s) hd (hadv h)).trans ih
  | case4 m rest s hd t h => exact run_cons_of_again (s := pauseAt l s) (t := pauseAt l t) hd (hadv h)
  | case5 m rest s hd h => exact run_cons_of_refused (s := pauseAt l s) hd (hadv h)
  | case6 m rest s hd r h => exact run_cons_of_hazard (s := pauseAt l s) hd (hadv h)

end Sys2Proof.Machine
end

section
/-! SUPPORT. What a host that looks at an operation later sees of it, compared with one that looks sooner
(spec/60_exceptions.md R193; log entry 4). -/

namespace Sys2Proof.Machine

/-! ### A later look of the host -/

/-- The state with the agenda changed in this way. -/
def onAgenda (g : List HostMove → List HostMove) (s : State) : State := { s with agenda := g s.agenda }

/-- The change of the agenda puts a move off: it makes none due, and where none is due it keeps up with the counting. -/
structure PutsOff (g : List HostMove → List HostMove) : Prop where
  not_due : ∀ s, hostDue s = false → hostDue (onAgenda g s) = false
  counts : ∀ s, hostDue s = false → tick (onAgenda g s) = onAgenda g (tick s)

/-- How a run (to `t`) compares with one whose host looks later (to `v`): they end alike, where the operation is over or
cannot go on, or the first pauses for the host's move and the second goes on from there. -/
inductive LaterLook (g : List HostMove → List HostMove) (words : List Word) (todo : List Micro) (t v : State) :
    Prop where
  | ended (hp : t.port = .idle) (hv : v = onAgenda g t)
  | stuck (rest : List Micro) (hp : t.port = .executing words rest) (hw : (waitsForRead rest t).isSome = true)
      (hv : v = onAgenda g t)
  | missed (lvl : Level) (rest : List Micro) (hp : t.port = .executing words rest) (hpoll : .poll lvl ∈ todo)
      (hv : v = onAgenda g t)
  | due (rest : List Micro) (hp : t.port = .executing words rest) (hd : hostDue t = true)
      (hv : v = run rest (onAgenda g t))

theorem LaterLook.cons {g : List HostMove → List HostMove} {words : List Word} {todo : List Micro} {t v : State}
    (h : LaterLook g words todo t v) (m : Micro) : LaterLook g words (m :: todo) t v := by
  cases h with
  | ended hp hv => exact .ended hp hv
  | stuck rest hp hw hv => exact .stuck rest hp hw hv
  | missed lvl rest hp hpoll hv => exact .missed lvl rest hp (List.mem_cons_of_mem _ hpoll) hv
  | due rest hp hd hv => exact .due rest hp hd hv

/-- Only a refused memory read keeps the sequencer waiting. -/
theorem waitsForRead_of_refused {m : Micro} {s : State} (h : advance m s = .refused) (rest : List Micro) :
    (waitsForRead (m :: rest) s).isSome = true := by
  cases m with
  | xferMem a =>
    rw [advance_xferMem_eq] at h
    cases hm : memRead s a with
    | none => simp [waitsForRead, hm]
    | some b => simp [hm] at h
  | drive r v => rw [advance_drive_eq] at h; split at h <;> cases h
  | poll lvl =>
    rw [advance_poll_eq] at h
    split at h
    · split at h <;> cases h
    · cases h
  | _ => cases h

theorem raise_onAgenda (g : List HostMove → List HostMove) (code : FaultCode) (site : Option (Role × PinId))
    (s : State) : raise code site (onAgenda g s) = onAgenda g (raise code site s) := by
  by_cases hf : s.fault = .none <;> simp [raise, onAgenda, hf]

section PutsOff

variable {g : List HostMove → List HostMove} (hg : PutsOff g)
include hg

theorem advance_onAgenda {m : Micro} {s : State} (hd : ¬ (hostDue s = true ∧ isSilent m = false)) :
    advance m (onAgenda g s) = (advance m s).map (onAgenda g) :=
  advance_commutes rfl (fun hm u => hg.counts (withHost s.agenda s.port u) (eq_false_of_ne_true fun h => hd ⟨h, hm⟩))
    fun _ => rfl

theorem run_laterLook (todo : List Micro) (s : State) :
    LaterLook g (latchedWords s.port) todo (run todo s) (run todo (onAgenda g s)) := by
  have hgo : ∀ {m u}, ¬ (hostDue u = true ∧ isSilent m = false) →
      ¬ (hostDue (onAgenda g u) = true ∧ isSilent m = false) := fun hd ⟨hdue, hm⟩ => by
    simp [hg.not_due _ (eq_false_of_ne_true fun h => hd ⟨h, hm⟩)] at hdue
  have hadv : ∀ {m u a}, ¬ (hostDue u = true ∧ isSilent m = false) → advance m u = a →
      advance m (onAgenda g u) = a.map (onAgenda g) := fun hd h => h ▸ advance_onAgenda hg hd
  fun_induction run todo s with
  | case1 s => exact .ended rfl rfl
  | case2 m rest s hd =>
    obtain ⟨hdue, -⟩ := hd
    exact .due (m :: rest) rfl hdue (run_pauseAt _ (m :: rest) (onAgenda g s)).symm
  | case3 m rest s hd t h ih =>
    rw [run_cons_of_done (hgo hd) (hadv hd h), ← (advance_done_keeps h).port]
    exact ih.cons m
  | case4 m rest s hd t h =>
    obtain ⟨⟨lvl, rfl⟩, hk⟩ := advance_again_keeps h
    rw [run_cons_of_again (hgo hd) (hadv hd h)]
    exact .missed lvl (.poll lvl :: rest) (by simp [hk.port]) (List.mem_cons_self ..) rfl
  | case5 m rest s hd h =>
    rw [run_cons_of_refused (hgo hd) (hadv hd h)]
    exact .stuck (m :: rest) rfl (waitsForRead_of_refused h rest) rfl
  | case6 m rest s hd r h =>
    rw [run_cons_of_hazard (hgo hd) (hadv hd h)]
    exact .ended (raise_port ..) (raise_onAgenda g _ _ s)

end PutsOff

/-! ### Hosts that wait, and hosts that look later -/

theorem onAgenda_of_eq {g : List HostMove → List HostMove} {s : State} (h : g s.agenda = s.agenda) :
    onAgenda g s = s := by rw [onAgenda, h]

/-- A host whose move is not due waits for completion or counts on. -/
theorem counting_of_not_due {s : State} (hd : hostDue s = false) :
    hostCounts s = false ∨ ∃ k act rest, s.agenda = ⟨.afterSteps (k + 1), act⟩ :: rest := by
  cases ha : s.agenda with
  | nil => exact .inl (by simp [hostCounts, ha])
  | cons mv rest =>
    obtain ⟨tm, act⟩ := mv
    cases tm with
    | onCompletion => exact .inl (by simp [hostCounts, ha])
    | afterSteps n =>
      cases n with
      | zero => simp [hostDue, ha] at hd
      | succ k => exact .inr ⟨k, act, rest, rfl⟩

theorem tick_of_counting {s : State} {k : Nat} {act : HostAction} {rest : List HostMove}
    (ha : s.agenda = ⟨.afterSteps (k + 1), act⟩ :: rest) :
    tick s = { s with agenda := ⟨.afterSteps k, act⟩ :: rest } := by simp [tick, ha]

/-- The next move at another time. -/
def retime (tm : Timing) : List HostMove → List HostMove
  | [] => []
  | mv :: rest => ⟨tm, mv.action⟩ :: rest

theorem withHostTiming_eq (tm : Timing) (s : State) : withHostTiming tm s = onAgenda (retime tm) s := by
  cases h : s.agenda with
  | nil => rw [onAgenda_of_eq (by rw [h]; rfl), withHostTiming, h]
  | cons mv rest => simp [withHostTiming, onAgenda, retime, h]

theorem waiting_eq (s : State) : waiting s = onAgenda (retime .onCompletion) s := withHostTiming_eq .onCompletion s

theorem hostCounts_retime (s : State) : hostCounts (onAgenda (retime .onCompletion) s) = false := by
  cases h : s.agenda <;> simp [onAgenda, retime, hostCounts, h]

theorem putsOff_waiting : PutsOff (retime .onCompletion) := by
  refine ⟨fun s _ => hostDue_of_waits (hostCounts_retime s), fun s hd => ?_⟩
  rw [tick_of_waits (hostCounts_retime s)]
  rcases counting_of_not_due hd with hc | ⟨k, act, rest, ha⟩
  · rw [tick_of_waits hc]
  · simp [tick_of_counting ha, onAgenda, retime, ha]

/-- The next move `n` steps later, if the host counts steps. -/
def postpone (n : Nat) : List HostMove → List HostMove
  | ⟨.afterSteps k, act⟩ :: rest => ⟨.afterSteps (k + n), act⟩ :: rest
  | moves => moves

theorem postpone_of_waits {s : State} (h : hostCounts s = false) (n : Nat) : postpone n s.agenda = s.agenda := by
  unfold hostCounts at h
  unfold postpone
  split
  · next ha => simp [ha] at h
  · rfl

theorem putsOff_postpone (n : Nat) : PutsOff (postpone n) := by
  have hlater : ∀ {s : State} {k act rest}, s.agenda = ⟨.afterSteps (k + 1), act⟩ :: rest →
      (onAgenda (postpone n) s).agenda = ⟨.afterSteps (k + n + 1), act⟩ :: rest := fun ha => by
    simp [onAgenda, postpone, ha, Nat.add_right_comm]
  refine ⟨fun s hd => ?_, fun s hd => ?_⟩ <;> rcases counting_of_not_due hd with hc | ⟨k, act, rest, ha⟩
  · rw [onAgenda_of_eq (postpone_of_waits hc n), hd]
  · simp [hostDue, hlater ha]
  · rw [tick_of_waits hc, onAgenda_of_eq (postpone_of_waits hc n), tick_of_waits hc]
  · rw [tick_of_counting (hlater ha), tick_of_counting ha]
    rfl

/-! ### Going on, or waiting for a read -/

/-- The operation in flight goes on where no host move is due and no read is refused. -/
theorem step_of_going {s : State} {words : List Word} {todo : List Micro} (hp : s.port = .executing words todo)
    (hd : hostDue s = false) (hw : waitsForRead todo s = none) : step s = .next (run todo s) := by
  simp [step, fetch, hp, hd, hw]

theorem pauseAt_of_port {s : State} {words : List Word} {todo : List Micro} (hp : s.port = .executing words todo) :
    pauseAt todo s = s := by rw [pauseAt, hp, latchedWords, ← hp]

/-- A sequence that begins with a refused read stays where it is. -/
theorem run_of_waitsForRead {s : State} {words : List Word} {todo : List Micro} (hp : s.port = .executing words todo)
    (hw : (waitsForRead todo s).isSome = true) : run todo s = s := by
  unfold waitsForRead at hw
  split at hw
  · next a rest =>
    have hm : memRead s a = none := by
      by_contra hm
      simp [hm] at hw
    by_cases hd : hostDue s = true
    · rw [run_cons_of_due ⟨hd, rfl⟩, pauseAt_of_port hp]
    · rw [run_cons_of_refused (fun h => hd h.1) (by rw [advance_xferMem_eq, hm]; rfl), pauseAt_of_port hp]
  · cases hw

/-! ### A waiting host -/

/-- `t` is where a counting host finds the PFPS, `v` where a waiting host does: the same, or the first was interrupted and
going on gives what the second sees. -/
def SeenWaiting (t v : State) : Prop :=
  v = waiting t ∨ t.port ≠ .idle ∧ hostDue t = true ∧ .next v = step (waiting t)

theorem waiting_cfg (s : State) : (waiting s).cfg = s.cfg := by rw [waiting_eq]; rfl
theorem waiting_ps (s : State) : (waiting s).ps = s.ps := by rw [waiting_eq]; rfl

theorem run_seenWaiting (todo : List Micro) (s : State) : SeenWaiting (run todo s) (run todo (waiting s)) := by
  simp only [SeenWaiting, waiting_eq]
  cases run_laterLook putsOff_waiting todo s with
  | ended _ hv | stuck _ _ _ hv | missed _ _ _ _ hv => exact .inl hv
  | due rest hp hd hv =>
    have hp' : (onAgenda (retime .onCompletion) (run todo s)).port = .executing (latchedWords s.port) rest := hp
    cases hw : waitsForRead rest (onAgenda (retime .onCompletion) (run todo s)) with
    | none =>
      exact .inr ⟨by simp [hp], hd, (congrArg _ hv).trans
        (step_of_going hp' (hostDue_of_waits (hostCounts_retime _)) hw).symm⟩
    | some a => exact .inl (hv.trans (run_of_waitsForRead hp' (by simp [hw])))

theorem raise_seenWaiting (code : FaultCode) (site : Option (Role × PinId)) (s : State) :
    SeenWaiting (raise code site s) (raise code site (waiting s)) := by
  rw [SeenWaiting, waiting_eq, waiting_eq, raise_onAgenda]
  exact .inl rfl

section Operations

variable {s : State}

theorem gate_seenWaiting {go : State → State} (h : SeenWaiting (go s) (go (waiting s))) :
    SeenWaiting (gate s go) (gate (waiting s) go) := by
  by_cases hon : s.ps = .on
  · simpa [gate, busEnabled, waiting_ps, hon] using h
  · simpa [gate, busEnabled, waiting_ps, hon] using raise_seenWaiting .notPowered none s

theorem requireSel_seenWaiting (sel : Sel) {go : State → State} (h : SeenWaiting (go s) (go (waiting s))) :
    SeenWaiting (requireSel sel s go) (requireSel sel (waiting s) go) := by
  unfold requireSel
  split
  · exact h
  · exact raise_seenWaiting ..

theorem runSeq_seenWaiting (seq : Configuration → List Micro) :
    SeenWaiting (run (seq s.cfg) s) (run (seq (waiting s).cfg) (waiting s)) := by
  rw [waiting_cfg]
  exact run_seenWaiting ..

/-- Every check an operation makes before its first event is made alike. -/
theorem exec_seenWaiting {i : Instr} {t : State} (h : exec i s = .next t) :
    ∃ v, exec i (waiting s) = .next v ∧ SeenWaiting t v := by
  have hon : gpioConfigured (waiting s) = gpioConfigured s := by simp [gpioConfigured, waiting_ps]
  cases i with
  | sendCommand idx =>
    cases h
    exact ⟨_, rfl, gate_seenWaiting (runSeq_seenWaiting (sendCommandSeq · idx))⟩
  | sendCommandWithByte idx dat =>
    cases h
    exact ⟨_, rfl, gate_seenWaiting (runSeq_seenWaiting (sendCommandWithByteSeq · idx dat))⟩
  | sendCommandWithByteSelect idx dat sel =>
    cases h
    exact ⟨_, rfl, requireSel_seenWaiting sel
      (gate_seenWaiting (runSeq_seenWaiting (sendCommandWithByteSelectSeq · idx dat sel)))⟩
  | sendFixedValueRun idx dat count sel =>
    cases h
    exact ⟨_, rfl, gate_seenWaiting (runSeq_seenWaiting (sendFixedValueRunSeq · idx dat count sel))⟩
  | sendIndexedBuffer idx buf len sel =>
    cases h
    refine ⟨_, rfl, gate_seenWaiting ?_⟩
    split
    · exact raise_seenWaiting ..
    · exact runSeq_seenWaiting (sendIndexedBufferSeq · idx buf len sel)
  | selectPanelHalf sel =>
    cases h
    exact ⟨_, rfl, requireSel_seenWaiting sel (gate_seenWaiting (runSeq_seenWaiting (selectPanelHalfSeq · sel)))⟩
  | resume =>
    cases h
    refine ⟨_, rfl, ?_⟩
    rw [hon]
    exact runSeq_seenWaiting fun c => if gpioConfigured s = true then [] else resumeSeq c
  | suspend =>
    cases h
    refine ⟨_, rfl, ?_⟩
    rw [hon]
    exact runSeq_seenWaiting (suspendSeq · (gpioConfigured s))
  | resetSequence d1 d2 d3 d4 d5 =>
    cases h
    exact ⟨_, rfl, gate_seenWaiting (run_seenWaiting ..)⟩
  | waitBusy lvl =>
    cases h
    exact ⟨_, rfl, gate_seenWaiting (run_seenWaiting ..)⟩

end Operations

theorem SeenWaiting.outcome {t v : State} {o : Host.Outcome State Fault Refusal} (h : SeenWaiting t v)
    (ho : o = .next v) : o = .next (waiting t) ∨ t.port ≠ .idle ∧ hostDue t = true ∧ o = step (waiting t) := by
  rw [ho]
  exact h.imp_left (congrArg _)

/-- Settles O55: what a run of the sequencer does under a waiting host begins with what it does under a counting one. -/
theorem countingHostsSeeTheWaitingHostsOperation : Obligations.CountingHostsSeeTheWaitingHostsOperation := by
  refine ⟨fun i s t h => ?_, fun s t words todo hp hd hw h => ?_⟩
  · obtain ⟨v, hv, hseen⟩ := exec_seenWaiting h
    exact hseen.outcome hv
  · cases (step_of_going hp hd hw).symm.trans h
    refine (run_seenWaiting todo s).outcome ?_
    rw [waiting_eq]
    exact step_of_going hp (hostDue_of_waits (hostCounts_retime s)) hw

/-! ### A host that looks after one step, and after more -/

section Counting

variable {act : HostAction} {moves : List HostMove}

/-- The host counts steps to this action, and has these moves after it. -/
def CountsTo (act : HostAction) (moves : List HostMove) (s : State) : Prop :=
  ∃ j, s.agenda = ⟨.afterSteps j, act⟩ :: moves

theorem CountsTo.of_agenda {s t : State} (h : CountsTo act moves s) (ha : t.agenda = s.agenda) :
    CountsTo act moves t := h.imp fun _ hj => ha.trans hj

theorem CountsTo.tick {s : State} (h : CountsTo act moves s) : CountsTo act moves (tick s) := by
  obtain ⟨j, hj⟩ := h
  cases j with
  | zero => exact ⟨0, by simp [Machine.tick, hj]⟩
  | succ k => exact ⟨k, by rw [tick_of_counting hj]⟩

/-- Only the count changes while the sequencer runs. -/
theorem CountsTo.run {s : State} (h : CountsTo act moves s) (todo : List Micro) : CountsTo act moves (run todo s) := by
  refine run_preserves (CountsTo act moves) todo (fun m _ u t hu ha => ?_)
    (fun m _ u t hu ha => hu.tick.of_agenda (advance_again_agenda ha))
    (fun l u hu => hu.of_agenda rfl) (fun u hu => hu.of_agenda rfl) (fun r u hu => hu.of_agenda (raise_agenda ..)) s h
  have hag := advance_done_agenda ha
  split at hag
  · exact hu.of_agenda hag
  · exact hu.tick.of_agenda hag

/-- A counted move put off is a move at another time, and one that was due comes after the steps it was put off. -/
theorem CountsTo.postpone_eq {s : State} (h : CountsTo act moves s) (n : Nat) :
    ∃ m, onAgenda (postpone n) s = withHostTiming (.afterSteps m) s ∧ (hostDue s = true → m = n) := by
  obtain ⟨j, hj⟩ := h
  refine ⟨j + n, by simp [withHostTiming, onAgenda, postpone, hj], fun hd => ?_⟩
  cases j with
  | zero => exact Nat.zero_add n
  | succ k => simp [hostDue, hj] at hd

/-- A move put off by a step is not due. -/
theorem hostDue_postpone_succ (n : Nat) (s : State) : hostDue (onAgenda (postpone (n + 1)) s) = false := by
  by_cases hd : hostDue s = true
  · unfold hostDue at hd
    split at hd
    · next ha => simp [hostDue, onAgenda, postpone, ha]
    · cases hd
  · exact (putsOff_postpone (n + 1)).not_due s (eq_false_of_ne_true hd)

theorem onAgenda_postpone_zero (s : State) : onAgenda (postpone 0) s = s := by
  refine onAgenda_of_eq ?_
  unfold postpone
  split
  · next ha => exact ha.symm
  · rfl

/-- Where a host that counts one step finds an operation other than the poll loop, one that counts `n` steps more finds it
ended or stuck alike, or finds it `n` steps after the point where it paused for the first. -/
theorem step_postponed {s : State} {words : List Word} {todo : List Micro} (hp : s.port = .executing words todo)
    (hpoll : ∀ m ∈ todo, ∀ lvl, m ≠ .poll lvl) (hw : waitsForRead todo s = none)
    (ha : s.agenda = ⟨.afterSteps 1, act⟩ :: moves) (n : Nat) : ∃ u, step s = .next u ∧
      ((u.port = .idle ∧ ∃ m, step (onAgenda (postpone n) s) = .next (withHostTiming (.afterSteps m) u)) ∨
       (∃ todo' m, u.port = .executing words todo' ∧ (n = 0 ∨ (waitsForRead todo' u).isSome = true) ∧
         step (onAgenda (postpone n) s) = .next (withHostTiming (.afterSteps m) u)) ∨
       (n ≠ 0 ∧ u.port ≠ .idle ∧ step (onAgenda (postpone n) s) = step (withHostTiming (.afterSteps n) u))) := by
  have hnotDue : hostDue s = false := by simp [hostDue, ha]
  have hlong : step (onAgenda (postpone n) s) = .next (run todo (onAgenda (postpone n) s)) :=
    step_of_going hp ((putsOff_postpone n).not_due s hnotDue) hw
  have hlook := run_laterLook (putsOff_postpone n) todo s
  rw [hp, latchedWords] at hlook
  obtain ⟨m, hm, hdue⟩ := (CountsTo.run ⟨1, ha⟩ todo).postpone_eq n
  refine ⟨run todo s, step_of_going hp hnotDue hw, ?_⟩
  rw [hlong]
  cases hlook with
  | ended hidle hv => exact .inl ⟨hidle, m, by rw [hv, hm]⟩
  | stuck rest hport hstuck hv => exact .inr (.inl ⟨rest, m, hport, .inr hstuck, by rw [hv, hm]⟩)
  | missed lvl rest _ hmem _ => exact absurd rfl (hpoll _ hmem lvl)
  | due rest hport hd hv =>
    cases n with
    | zero =>
      refine .inr (.inl ⟨rest, m, hport, .inl rfl, ?_⟩)
      rw [← hm, onAgenda_postpone_zero, onAgenda_postpone_zero]
    | succ k =>
      obtain rfl := hdue hd
      have hport' : (onAgenda (postpone (k + 1)) (run todo s)).port = .executing words rest := hport
      rw [hv, ← hm]
      cases hwait : waitsForRead rest (run todo s) with
      | none =>
        exact .inr (.inr ⟨by simp, by simp [hport], (step_of_going hport' (hostDue_postpone_succ k _) hwait).symm⟩)
      | some a =>
        refine .inr (.inl ⟨rest, k + 1, hport, .inr (by simp [hwait]), ?_⟩)
        rw [run_of_waitsForRead hport' (Option.isSome_of_eq_some hwait), hm]

end Counting

/-- Settles O54: the longer step ends where the shorter one does, or goes on where the shorter one paused for the host. -/
theorem longStepsAreSingleStepsComposed : Obligations.LongStepsAreSingleStepsComposed := by
  intro s words todo act moves n hp hpoll hw ha
  have hone : (onAgenda (retime (.afterSteps 1)) s).agenda = ⟨.afterSteps 1, act⟩ :: moves := by
    simp [onAgenda, retime, ha]
  have hlong : onAgenda (postpone n) (onAgenda (retime (.afterSteps 1)) s) = s :=
    onAgenda_of_eq (s := s) (g := fun l => postpone n (retime (.afterSteps 1) l))
      (by simp [ha, retime, postpone, Nat.add_comm 1 n])
  have hstep := step_postponed (s := onAgenda (retime (.afterSteps 1)) s) hp hpoll hw hone n
  rw [hlong] at hstep
  rw [withHostTiming_eq]
  exact hstep

end Sys2Proof.Machine
end

section
/-! SUPPORT. One event, or one turn of the poll loop, for one step of the sequencer (spec/60_exceptions.md R193). -/

namespace Sys2Proof.Machine

/-! ### One event at a time -/

/-- A step that goes on emits one event, but for the write of `PS`. -/
theorem advance_done_adds_one {m : Micro} {s t : State} (hm : isSilent m = false) (h : advance m s = .done t) :
    ∃ e, addsEvents s t [e] := by
  cases m with
  | gpioInit => cases h; exact ⟨.gpioInit, by simp [addsEvents]⟩
  | pinMode p d => cases h; exact ⟨.pinMode p d, by simp [addsEvents]⟩
  | pinWrite p v => cases h; exact ⟨.pinWrite p v, by simp [addsEvents]⟩
  | delayUs n => cases h; exact ⟨.delayUs n, by simp [addsEvents]⟩
  | delayMs n => cases h; exact ⟨.delayMs n, by simp [addsEvents]⟩
  | xfer b => cases h; exact ⟨.xfer b (drawByte s).1, by simp [addsEvents]⟩
  | drive r v =>
    rw [advance_drive_eq] at h
    split at h
    · cases h; exact ⟨.pinWrite (pinOf s.cfg r) v, by simp [addsEvents]⟩
    · cases h
  | poll lvl =>
    rw [advance_poll_eq] at h
    split at h
    · split at h
      · cases h; exact ⟨.pinRead (pinOf s.cfg .busy) (drawLevel s).1, by simp [addsEvents, doPinRead]⟩
      · cases h
    · cases h
  | xferMem a =>
    rw [advance_xferMem_eq] at h
    cases hr : memRead s a with
    | none => simp [hr] at h
    | some b =>
      rw [hr] at h
      cases h
      exact ⟨_, (tick_trace _).trans (doXfer_trace ..)⟩
  | setPower ps => cases hm

/-- A missed turn of the poll loop emits its read and its delay. -/
theorem advance_again_adds {m : Micro} {s t : State} (h : advance m s = .again t) :
    ∃ p v, addsEvents s t [.pinRead p v, .delayMs 32#32] := by
  obtain ⟨⟨lvl, rfl⟩, -⟩ := advance_again_keeps h
  rw [advance_poll_eq] at h
  split at h
  · split at h
    · cases h
    · cases h
      exact ⟨pinOf s.cfg .busy, (drawLevel s).1, by simp [addsEvents, doPinRead, tBusyPoll]⟩
  · cases h

/-- Where a host move is due the sequencer emits nothing. -/
theorem run_trace_of_due (todo : List Micro) {s : State} (hd : hostDue s = true) : (run todo s).trace = s.trace := by
  induction todo generalizing s with
  | nil => rfl
  | cons m rest ih =>
    cases hm : isSilent m with
    | true =>
      obtain ⟨ps, rfl⟩ := eq_setPower_of_isSilent hm
      rw [run_cons_of_done (by simp [hm]) rfl]
      exact ih (s := { s with ps := ps }) hd
    | false => rw [run_cons_of_due ⟨hd, hm⟩]; rfl

/-- At most one event was added, or a missed poll's two (R193). -/
def AddsOneTurn (s t : State) : Prop :=
  ∃ new, addsEvents s t new ∧ (new.length ≤ 1 ∨ ∃ p v, new = [.pinRead p v, .delayMs 32#32])

theorem AddsOneTurn.of_same {s t : State} (h : t.trace = s.trace) : AddsOneTurn s t :=
  ⟨[], by simp [addsEvents, h], by simp⟩

theorem run_addsOneTurn {act : HostAction} {moves : List HostMove} (todo : List Micro) (s : State)
    (ha : s.agenda = ⟨.afterSteps 1, act⟩ :: moves) : AddsOneTurn s (run todo s) := by
  fun_induction run todo s with
  | case1 s => exact .of_same rfl
  | case2 m rest s hd => exact .of_same rfl
  | case3 m rest s hd t h ih =>
    have hag := advance_done_agenda h
    cases hm : isSilent m with
    | true =>
      obtain ⟨ps, rfl⟩ := eq_setPower_of_isSilent hm
      cases h
      exact ih ha
    | false =>
      rw [if_neg (by simp [hm]), tick_of_counting ha] at hag
      obtain ⟨e, he⟩ := advance_done_adds_one hm h
      exact ⟨[e], (run_trace_of_due rest (by simp [hostDue, hag])).trans he, by simp⟩
  | case4 m rest s hd t h =>
    obtain ⟨p, v, hpv⟩ := advance_again_adds h
    exact ⟨_, hpv, .inr ⟨p, v, rfl⟩⟩
  | case5 m rest s hd h => exact .of_same rfl
  | case6 m rest s hd r h => exact .of_same (raise_trace ..)

/-- Settles O53: after the first event the host's move is due, and no move of the host emits one. -/
theorem sequencerMovesOneEventAtATime : Obligations.SequencerMovesOneEventAtATime := by
  intro s t words todo act moves hp ha h
  have hnoIssue : ∀ words, ¬ issuesNext s words := fun words ⟨hidle, _⟩ => by simp [hp] at hidle
  cases step_effect h with
  | access hs => exact AddsOneTurn.of_same hs.trace
  | overlap _ ht => exact AddsOneTurn.of_same (by simp [ht])
  | illegal words hi _ => exact absurd hi (hnoIssue words)
  | accepted words i hi _ _ => exact absurd hi (hnoIssue words)
  | going words' todo' _ ht => exact ht ▸ run_addsOneTurn todo' s ha

end Sys2Proof.Machine
end

section
/-! SUPPORT. The delays of an operation are those of its event sequence, and their sums, operation by operation
(spec/70_reset_and_hazards.md R212). -/

namespace Sys2Proof.Machine

/-! ### Sums over a stretch of the trace -/

@[simp] theorem sumUs_append (a b : List Shown) : sumUs (a ++ b) = sumUs a + sumUs b := by
  induction a with
  | nil => simp [sumUs]
  | cons e es ih =>
    cases e with
    | Dus n => simp only [List.cons_append, sumUs, ih, Nat.add_assoc]
    | _ => simpa only [List.cons_append, sumUs] using ih

@[simp] theorem sumMs_append (a b : List Shown) : sumMs (a ++ b) = sumMs a + sumMs b := by
  induction a with
  | nil => simp [sumMs]
  | cons e es ih =>
    cases e with
    | Dms n => simp only [List.cons_append, sumMs, ih, Nat.add_assoc]
    | _ => simpa only [List.cons_append, sumMs] using ih

/-- `t` is `s` after events whose delays have these sums. -/
def AddsDelays (s t : State) (us ms : Nat) : Prop :=
  ∃ new, addsEvents s t new ∧ sumUs (new.map showEvent) = us ∧ sumMs (new.map showEvent) = ms

theorem AddsDelays.of_same {s t : State} (h : t.trace = s.trace) : AddsDelays s t 0 0 :=
  ⟨[], by simp [addsEvents, h], rfl, rfl⟩

theorem AddsDelays.trans {s t u : State} {us ms us' ms' : Nat} (h : AddsDelays s t us ms)
    (k : AddsDelays t u us' ms') : AddsDelays s u (us + us') (ms + ms') := by
  obtain ⟨a, ha, rfl, rfl⟩ := h
  obtain ⟨b, hb, rfl, rfl⟩ := k
  refine ⟨a ++ b, ?_, by simp, by simp⟩
  rw [addsEvents, hb, ha, List.append_assoc]

/-! ### Sums over an event sequence -/

/-- The µs delay a step of the sequencer emits where it goes on. -/
def microUs : Micro → Nat
  | .delayUs n => n.toNat
  | .gpioInit | .pinMode _ _ | .pinWrite _ _ | .drive _ _ | .poll _ | .xfer _ | .xferMem _ | .delayMs _
  | .setPower _ => 0

/-- The ms delay a step of the sequencer emits where it goes on. -/
def microMs : Micro → Nat
  | .delayMs n => n.toNat
  | .gpioInit | .pinMode _ _ | .pinWrite _ _ | .drive _ _ | .poll _ | .xfer _ | .xferMem _ | .delayUs _
  | .setPower _ => 0

/-- The delays of a sequence, summed. -/
def seqUs (todo : List Micro) : Nat := (todo.map microUs).sum
def seqMs (todo : List Micro) : Nat := (todo.map microMs).sum

@[simp] theorem seqUs_nil : seqUs [] = 0 := rfl
@[simp] theorem seqUs_cons (m : Micro) (todo : List Micro) : seqUs (m :: todo) = microUs m + seqUs todo := rfl
@[simp] theorem seqUs_append (a b : List Micro) : seqUs (a ++ b) = seqUs a + seqUs b := by simp [seqUs]

theorem seqUs_eq_zero {todo : List Micro} (h : ∀ m ∈ todo, microUs m = 0) : seqUs todo = 0 :=
  List.sum_eq_zero (List.forall_mem_map.mpr h)

theorem seqMs_eq_zero {todo : List Micro} (h : ∀ m ∈ todo, microMs m = 0) : seqMs todo = 0 :=
  List.sum_eq_zero (List.forall_mem_map.mpr h)

/-! ### A run emits the delays of its sequence -/

/-- A step that goes on emits its own delay; a poll turn that matches emits none. -/
theorem advance_done_addsDelays {m : Micro} {s t : State} (h : advance m s = .done t) :
    AddsDelays s t (microUs m) (microMs m) := by
  cases hm : isSilent m with
  | true =>
    obtain ⟨ps, rfl⟩ := eq_setPower_of_isSilent hm
    cases h
    exact .of_same rfl
  | false =>
    obtain ⟨e, he⟩ := advance_done_adds_one hm h
    obtain ⟨new, hnew, hmay⟩ := (advance_done_frame h).events
    obtain rfl : new = [e] := List.append_cancel_left (hnew.symm.trans he)
    have hshow : MayEmit s.cfg m (showEvent e) := by simpa using hmay
    cases m with
    | poll lvl =>
      rw [advance_poll_eq] at h
      split at h
      · split at h
        · cases h
          exact ⟨[.pinRead (pinOf s.cfg .busy) (drawLevel s).1], by simp [addsEvents, doPinRead], rfl, rfl⟩
        · cases h
      · cases h
    | xferMem a =>
      obtain ⟨b, hb⟩ := hshow
      exact ⟨[e], he, by simp [hb, sumUs, microUs], by simp [hb, sumMs, microMs]⟩
    | setPower ps => cases hm
    | _ =>
      have hb : showEvent e = _ := hshow
      exact ⟨[e], he, by simp [hb, sumUs, microUs], by simp [hb, sumMs, microMs]⟩

theorem raise_fault_ne_none {code : FaultCode} (hc : code ≠ .none) (site : Option (Role × PinId)) (s : State) :
    (raise code site s).fault ≠ .none := by
  rw [raise_fault]
  split
  · exact hc
  · assumption

/-- A run that is over without a fault went through its whole sequence. -/
theorem run_addsDelays (todo : List Micro) (s : State) (hp : (run todo s).port = .idle)
    (hf : (run todo s).fault = .none) : AddsDelays s (run todo s) (seqUs todo) (seqMs todo) := by
  fun_induction run todo s with
  | case1 s => exact .of_same rfl
  | case2 m rest s hd => cases hp
  | case3 m rest s hd t h ih => exact (advance_done_addsDelays h).trans (ih hp hf)
  | case4 m rest s hd t h => cases hp
  | case5 m rest s hd h => cases hp
  | case6 m rest s hd r h => exact absurd hf (raise_fault_ne_none (by simp) _ s)

/-! ### A completed operation emits the delays of its sequence -/

/-- Only the framer operations have µs delays. -/
theorem seqUs_fullSeq_of_not_framer (c : Configuration) {i : Instr} (hi : isFramer i = false) :
    seqUs (fullSeq c i) = 0 := by
  refine seqUs_eq_zero fun m hm => ?_
  cases fullSeq_steps c i m hm with
  | frameDelay hi' => simp [hi'] at hi
  | _ => rfl

/-- Only `resetSequence` has ms delays, beside the poll loop's missed turns. -/
theorem seqMs_fullSeq (c : Configuration) {i : Instr} (hi : i.opcode ≠ .resetSequence) :
    seqMs (fullSeq c i) = 0 := by
  refine seqMs_eq_zero fun m hm => ?_
  cases fullSeq_steps c i m hm with
  | resetDelay => exact absurd rfl hi
  | _ => rfl

/-- A completed operation emits the delays of its event sequence; `resume` in ON and `suspend` outside ON, which run
none of theirs, emit none. -/
theorem exec_addsDelays {i : Instr} {s t : State} (h : exec i s = .next t) (hp : t.port = .idle)
    (hf : t.fault = .none) : AddsDelays s t (seqUs (fullSeq s.cfg i)) (seqMs (fullSeq s.cfg i)) := by
  cases exec_cases h with
  | runs _ _ _ _ ht =>
    subst ht
    exact run_addsDelays _ s hp hf
  | resumeOn hi _ ht =>
    rw [hi, seqUs_fullSeq_of_not_framer _ rfl, seqMs_fullSeq (i := .resume) _ nofun]
    exact .of_same (by simp [ht])
  | suspendOff hi _ ht =>
    rw [hi, seqUs_fullSeq_of_not_framer _ rfl, seqMs_fullSeq (i := .suspend) _ nofun]
    exact .of_same (by simp [ht])
  | selector _ ht => exact absurd (ht ▸ hf) (raise_fault_ne_none (by simp) _ s)
  | unpowered _ _ ht => exact absurd (ht ▸ hf) (raise_fault_ne_none (by simp) _ s)
  | range _ _ _ _ _ _ _ ht => exact absurd (ht ▸ hf) (raise_fault_ne_none (by simp) _ s)

/-! ### The sums of each operation's sequence -/

section Rows

variable (c : Configuration)

@[simp] theorem seqUs_driveIfConnected (r : Role) (v : Level) : seqUs (driveIfConnected c r v) = 0 := by
  unfold driveIfConnected
  split <;> rfl

@[simp] theorem seqUs_deassertCS (e : EffSel) : seqUs (deassertCS c e) = 0 := by
  cases e <;> simp [deassertCS, microUs]

@[simp] theorem seqUs_commandPhase (idx : Byte) : seqUs (commandPhase c idx) = c.delayCS.toNat := by
  simp [commandPhase, microUs]

@[simp] theorem seqUs_assertCS_single : seqUs (assertCS c .single) = c.delayCS.toNat := by
  simp [assertCS, microUs]

theorem seqUs_assertCS_of_ne_single {e : EffSel} (he : e ≠ .single) :
    seqUs (assertCS c e) = c.tSelectSettle.toNat := by
  cases e with
  | single => exact absurd rfl he
  | _ => simp [assertCS, microUs]

/-- On LARGE the assertion settles for `T_SELECT_SETTLE`, off it for `delayCS`. -/
theorem seqUs_assertCS_selectedHalves (sel : Sel) : seqUs (assertCS c (selectedHalves c sel)) =
    if c.family = .large then c.tSelectSettle.toNat else c.delayCS.toNat := by
  split
  · next hl => exact seqUs_assertCS_of_ne_single c (selectedHalves_of_large hl sel)
  · next hl => rw [selectedHalves_of_not_large hl, seqUs_assertCS_single]

/-- A data phase settles twice, or twice around each transfer with `SETTLE_PER_BYTE`. -/
theorem seqUs_dataBody {transfers : List Micro} (hx : ∀ m ∈ transfers, microUs m = 0) :
    seqUs (dataBody c transfers) =
      (if c.settlePerByte = true then 2 * transfers.length else 2) * c.delayCS.toNat := by
  unfold dataBody
  split
  · induction transfers with
    | nil => simp
    | cons x xs ih =>
      obtain ⟨hx, hxs⟩ := List.forall_mem_cons.mp hx
      have hd : microUs (.delayUs c.delayCS) = c.delayCS.toNat := rfl
      simp [ih hxs, hx, hd]
      ring
  · simp [seqUs_eq_zero hx, microUs]
    omega

theorem seqUs_dataFrame (e : EffSel) (idx : Byte) (between : List Micro) {transfers : List Micro}
    (hx : ∀ m ∈ transfers, microUs m = 0) :
    seqUs (dataFrame c e idx between transfers) = seqUs (assertCS c e) + c.delayCS.toNat +
      (if c.settlePerByte = true then 2 * transfers.length else 2) * c.delayCS.toNat + seqUs between := by
  simp [dataFrame_eq, frameHead, seqUs_dataBody c hx, microUs]
  omega

theorem seqUs_sendCommand (idx : Byte) : seqUs (fullSeq c (.sendCommand idx)) = 2 * c.delayCS.toNat := by
  simp [fullSeq, sendCommandSeq, microUs]
  omega

theorem seqUs_sendCommandWithByte (idx dat : Byte) :
    seqUs (fullSeq c (.sendCommandWithByte idx dat)) = 4 * c.delayCS.toNat := by
  rw [fullSeq, sendCommandWithByteSeq, seqUs_dataFrame c _ _ _ (by simp [microUs])]
  simp
  omega

theorem seqUs_sendCommandWithByteSelect (idx dat : Byte) (sel : Sel) :
    seqUs (fullSeq c (.sendCommandWithByteSelect idx dat sel)) =
      if c.family = .large then c.tSelectSettle.toNat + 3 * c.delayCS.toNat else 4 * c.delayCS.toNat := by
  rw [fullSeq, sendCommandWithByteSelectSeq, effSel_eq_selectedHalves rfl, seqUs_dataFrame c _ _ _ (by simp [microUs]),
    seqUs_assertCS_selectedHalves]
  simp
  split <;> omega

theorem seqUs_sendFixedValueRun (idx dat : Byte) (count : Word) (sel : Sel) :
    seqUs (fullSeq c (.sendFixedValueRun idx dat count sel)) =
      (if c.family = .large then c.tSelectSettle.toNat else c.delayCS.toNat) + c.delayCS.toNat +
        (if c.settlePerByte = true then 2 * count.toNat else 2) * c.delayCS.toNat := by
  rw [fullSeq, sendFixedValueRunSeq, effSel_eq_selectedHalves rfl, seqUs_dataFrame c _ _ _ (by simp [microUs]),
    seqUs_assertCS_selectedHalves]
  simp

theorem seqUs_bcastSteps (sel : Sel) :
    seqUs (bcastSteps c sel) = if c.family = .large ∧ sel = .omitted then 450 else 0 := by
  unfold bcastSteps
  split <;> rfl

theorem seqUs_sendIndexedBuffer (idx : Byte) (buf len : Word) (sel : Sel) :
    seqUs (fullSeq c (.sendIndexedBuffer idx buf len sel)) =
      (if c.family = .large then c.tSelectSettle.toNat else c.delayCS.toNat) + c.delayCS.toNat +
        (if c.settlePerByte = true then 2 * len.toNat else 2) * c.delayCS.toNat +
        (if c.family = .large ∧ sel = .omitted then 450 else 0) := by
  rw [fullSeq_sendIndexedBuffer, seqUs_dataFrame c _ _ _ (by simp [bufferXfers, microUs]),
    seqUs_assertCS_selectedHalves, seqUs_bcastSteps]
  simp [bufferXfers]

theorem seqUs_selectPanelHalf (sel : Sel) :
    seqUs (fullSeq c (.selectPanelHalf sel)) = c.tSelectSettle.toNat := by
  by_cases hl : c.family = .large
  · rw [fullSeq_selectPanelHalf_of_large hl]
    exact seqUs_assertCS_of_ne_single c (selectedHalves_of_large hl sel)
  · rw [fullSeq_selectPanelHalf_of_not_large hl]
    simp [microUs]

theorem seqMs_resetSequence (d1 d2 d3 d4 d5 : Word) : seqMs (fullSeq c (.resetSequence d1 d2 d3 d4 d5)) =
    d1.toNat + d2.toNat + d3.toNat + d4.toNat + d5.toNat := by
  simp [fullSeq, resetSequenceSeq, seqMs, microMs]
  omega

end Rows

/-! ### The poll loop -/

/-- Each missed turn of the loop delays 32 ms. -/
theorem afterMisses_addsDelays (s : State) (v : Level) (n : Nat) (rest : List Level) :
    AddsDelays s (afterMisses s v n rest) 0 (32 * n) := by
  induction n with
  | zero => exact ⟨[], rfl, rfl, rfl⟩
  | succ n ih =>
    have hmiss : AddsDelays (afterMisses s v n rest) (afterMisses (afterMisses s v n rest) v 1 rest) 0 32 :=
      ⟨[.pinRead s.cfg.busy v, .delayMs 32#32], rfl, rfl, rfl⟩
    rw [← afterMisses_add s v n 1 rest rest]
    exact ih.trans hmiss

/-- The turn that matches ends the loop without a delay. -/
theorem step_hit_addsDelays {s t : State} {lvl : Level} (h : polling s lvl) (ht : step s = .next t)
    (hp : t.port = .idle) (hf : t.fault = .none) : AddsDelays s t 0 0 := by
  obtain ⟨-, -, hw, -, words, hport⟩ := h
  cases (step_of_poll hw hport).symm.trans ht
  exact run_addsDelays [.poll lvl] s hp hf

/-- Settles O44: a completed operation emits the delays of its event sequence, and the loop of `waitBusy` those of its
missed turns. -/
theorem delaySums : Obligations.DelaySums := by
  refine ⟨fun s u idx dat count buf len d1 d2 d3 d4 d5 sel i us ms _ h hp hf hrow => ?_,
    fun s lvl v n rest h hv hi => ?_⟩
  · have hsums : seqUs (fullSeq s.cfg i) = us ∧ seqMs (fullSeq s.cfg i) = ms := by
      rcases hrow with ⟨rfl, rfl, rfl⟩ | ⟨rfl, rfl, rfl⟩ | ⟨rfl, -, rfl, rfl⟩ | ⟨rfl, rfl, rfl⟩ |
        ⟨rfl, rfl, rfl⟩ | ⟨rfl, -, rfl, rfl⟩ | ⟨rfl | rfl, rfl, rfl⟩ | ⟨rfl, rfl, rfl⟩
      · exact ⟨seqUs_sendCommand .., seqMs_fullSeq _ nofun⟩
      · exact ⟨seqUs_sendCommandWithByte .., seqMs_fullSeq _ nofun⟩
      · exact ⟨seqUs_sendCommandWithByteSelect .., seqMs_fullSeq _ nofun⟩
      · exact ⟨seqUs_sendFixedValueRun .., seqMs_fullSeq _ nofun⟩
      · exact ⟨seqUs_sendIndexedBuffer .., seqMs_fullSeq _ nofun⟩
      · exact ⟨seqUs_selectPanelHalf .., seqMs_fullSeq _ nofun⟩
      · exact ⟨seqUs_fullSeq_of_not_framer _ rfl, seqMs_fullSeq _ nofun⟩
      · exact ⟨seqUs_fullSeq_of_not_framer _ rfl, seqMs_fullSeq _ nofun⟩
      · exact ⟨seqUs_fullSeq_of_not_framer _ rfl, seqMs_resetSequence ..⟩
    obtain ⟨rfl, rfl⟩ := hsums
    exact exec_addsDelays h hp hf
  · have hpoll := h.afterMisses v n (lvl :: rest)
    obtain ⟨t, ht, hp, hf⟩ := step_hit hpoll rfl
    obtain ⟨new, hsums⟩ := (afterMisses_addsDelays s v n _).trans (step_hit_addsDelays hpoll ht hp hf)
    exact ⟨t, new, (run_misses h hv n 1 hi).trans (coreRun_of_step Sys2Proof.core ht 0), hsums⟩

end Sys2Proof.Machine
end
